-- ==== Sys2Proof/Word.lean ====
section
/-! DEFINITION. The byte, the byte sequence and the fixed constants of the architecture (00_scope.md
rules R9, R11, R12, R15). Everything computed from bytes is in Machine/Bytes.lean. -/

namespace Sys2Proof

/-- A byte: 8 bits, an unsigned value 0 to 255 (rule R11). -/
abbrev Byte := BitVec 8

/-- A byte sequence with zero-based offsets (rule R12). Equal sequences are equal lists. -/
abbrev ByteSeq := List Byte

/-- `SOP1` (rule R9). -/
abbrev sop1 : Byte := 0xFF
/-- `SOP2_RSP`, "sync", the response kind (rule R9). -/
abbrev sop2Rsp : Byte := 0xFF
/-- `SOP2_ASYNC`, "async marker" (rule R9). -/
abbrev sop2Async : Byte := 0xFE
/-- `HDR_SIZE`: bytes before the payload of an inbound frame (rule R9). -/
abbrev hdrSize : Nat := 5
/-- `MIN_FRAME`: the smallest inbound frame, in bytes (rule R9). -/
abbrev minFrame : Nat := 6
/-- `CMD_HDR_SIZE`: bytes before the payload of a command frame (rule R9). -/
abbrev cmdHdrSize : Nat := 6
/-- `SAMPLE_BYTES`: bytes one active field consumes in mask-driven mode (rule R9). -/
abbrev sampleBytes : Nat := 2

end Sys2Proof
end

