-- ==== Sys2Proof/Config.lean ====
section
/-! DEFINITION. What an instance of SMFA fixes (00_scope.md rule R10): the open parameters, held as one
plain record that `State` carries and no transaction writes (10_state.md rule R42), and the one open
function, `TextDecode`, an opaque constant. -/

namespace Sys2Proof

/-- The open parameters of rule R10. They are values of the instance, so a claim about every state is a
claim about every choice of them. The defaults are used only by `State.reset`: the normative unbounded
semantics for the three bounds, the suggested values for `MASK_W` and `STREAM_EVENT_ID`
(PRESUMED, assumption log entry 3). -/
structure Params where
  /-- `PARTIAL_CAP`; `none` is the normative unbounded semantics. -/
  partialCap : Option Nat := none
  /-- `CHUNK_MAX`; `none` is the normative unbounded semantics. -/
  chunkMax : Option Nat := none
  /-- `MASK_W`, the width in bits of each mask register. -/
  maskWidth : Nat := 32
  /-- `STREAM_EVENT_ID`, the reserved event id. -/
  streamEventId : Byte := 0x03
  /-- `W_MAX`, the largest byte width of an integer-valued field; `none` is unbounded. -/
  maxWidth : Option Nat := none
  deriving DecidableEq, Repr

/-- `TextDecode` where the spec leaves it open (43_field_codec.md rule R196): total, depending on the
encoding name and the bytes alone, nothing else known of it. A free value: it has no body
(assumption log entry 4). -/
opaque Config.textDecodeOpen : String → ByteSeq → List Char

end Sys2Proof
end

