-- ==== Sys2Proof/Syntax.lean ====
section
/-! DEFINITION. The encoded objects and the instructions: frames, Field Descriptors, Parser Entries, the
Parser Table, and `Instr`, one constructor for each of the 26 rows of spec/opcode_table.json
(30_encoding.md rules R112, R113). -/

namespace Sys2Proof

/-- Result of HEADER_KIND (rule R142). -/
inductive HeaderKind where
  | response
  | async
  | invalid
  deriving DecidableEq, Repr

/-- A Frame (rule R140). `sop1` and `sop2` are fixed by the variant (`Frame.sop1`, `Frame.sop2` in
Machine/Bytes.lean); a response length has 8 bits and an async length 16 (rule R15). A value of this type is a
Frame of the spec exactly when `Frame.valid` holds. -/
inductive Frame where
  | response (responseCode sequence : Byte) (length : BitVec 8) (payload : ByteSeq) (checksum : Byte)
  | async (eventId : Byte) (length : BitVec 16) (payload : ByteSeq) (checksum : Byte)
  deriving DecidableEq, Repr

/-- A response key: device id, command id (rule R101). -/
abbrev RespKey := Byte × Byte

/-- Parser Key (rule R101). -/
inductive Key where
  | resp (did cid : Byte)
  | async (id : Byte)
  deriving DecidableEq, Repr

/-- The mask register a FLD.BITMASK descriptor names (rule R107). -/
inductive MaskReg where
  | mask1
  | mask2
  deriving DecidableEq, Repr

/-- The `format` attribute of the integer type (rule R106). -/
inductive NumFormat where
  | none
  | hex
  deriving DecidableEq, Repr

/-- A Field Descriptor as the table holds it (rules R103 to R107): a name, an 8-bit type code and the
attributes. An attribute its type does not have is present and ignored. `reg` is the number 1 or 2 of the
owning mask register. The spec gives no storage layout (91_not_in_source.md N11), so this record is the
encoded form. -/
structure Descriptor where
  name : String
  code : BitVec 8
  format : NumFormat := .none
  lo : Nat := 0
  hi : Nat := 0
  encoding : String := ""
  pmask : Option Nat := none
  values : List (Nat × String) := []
  reg : Nat := 1
  bit : Nat := 0
  rangeBottom : Int := 0
  rangeTop : Int := 0
  units : String := ""
  sensor : String := ""
  deriving DecidableEq, Repr

/-- A Parser Entry (rule R102). -/
structure Entry where
  desc : String
  key : Key
  event : Option String := none
  fields : List Descriptor
  deriving DecidableEq, Repr

/-- The Parser Table, a pair of finite maps (rule R100), each held as an association list. -/
structure Table where
  resp : List (RespKey × Entry) := []
  async : List (Byte × Entry) := []
  deriving DecidableEq, Repr

/-- The instructions of SMFA (00_scope.md rule R2): the ten transactions, the two inbound frame formats and
the outbound one, and the Field Descriptor types. `FLD.UNKNOWN` has six rows in the opcode table and so six
constructors here. `lo`, `hi` are the attributes `from`, `to`. -/
inductive Instr where
  -- transactions (rule R112)
  | reset
  | checksum (s : ByteSeq)
  | verify (s : ByteSeq) (c : Byte)
  | headerKind (b : ByteSeq)
  | declaredLength (b : ByteSeq)
  | frameDecode (b : ByteSeq)
  | ingest (chunk : ByteSeq)
  | decodeRecord (f : Frame) (key : Option RespKey) (mask1 mask2 : Option Nat)
  | decode (chunk : ByteSeq) (key : Option RespKey) (mask1 mask2 : Option Nat)
  | buildFrame (deviceId commandId : Option Byte) (sequence : Byte) (payload : ByteSeq)
  -- inbound frame formats (rules R92, R93)
  | frameResponse (responseCode sequence : Byte) (length : BitVec 8) (payload : ByteSeq) (claimed : Byte)
  | frameAsync (eventId : Byte) (length : BitVec 16) (payload : ByteSeq) (claimed : Byte)
  -- outbound frame format (rule R96)
  | frameCommand (deviceId commandId sequence : Byte) (payload : ByteSeq)
  -- Field Descriptor types (rules R104, R113)
  | fldNum (name : String) (lo hi : Nat)
  | fldHex (name : String) (lo hi : Nat)
  | fldText (name : String) (lo hi : Nat) (encoding : String)
  | fldRaw (name : String) (lo hi : Nat)
  | fldPredef (name : String) (lo hi : Nat) (pmask : Option Nat) (values : List (Nat × String))
  | fldBitmask (name : String) (reg : MaskReg) (bit : Nat) (rangeBottom rangeTop : Int) (units sensor : String)
  | fldSigned (name : String) (lo hi : Nat)
  | fldUnknown06 (name : String) (code : BitVec 8) (lo hi : Nat)
  | fldUnknown08 (name : String) (code : BitVec 8) (lo hi : Nat)
  | fldUnknown10 (name : String) (code : BitVec 8) (lo hi : Nat)
  | fldUnknown20 (name : String) (code : BitVec 8) (lo hi : Nat)
  | fldUnknown40 (name : String) (code : BitVec 8) (lo hi : Nat)
  | fldUnknown80 (name : String) (code : BitVec 8) (lo hi : Nat)
  deriving DecidableEq, Repr

end Sys2Proof
end

