-- ==== Sys2Proof/Machine/Bytes.lean ====
section
/-! DEFINITION. Pure functions of byte sequences: byte order, sign extension, slices, the Checksum Unit's
formula, the header operations and the two predicates on buffers, and the parts of a Frame. -/

namespace Sys2Proof.Machine

/-- `be(s)`, the unsigned big-endian value of a byte sequence (rules R13, R67). -/
def be (s : ByteSeq) : Nat := s.foldl (fun v x => v * 256 + x.toNat) 0

/-- `sext_n(v)`: two's complement over `n` bits (rule R14). -/
def sext (n v : Nat) : Int := if v < 2 ^ (n - 1) then (v : Int) else (v : Int) - 2 ^ n

/-- `MemRead(space, addr, n)`: defined only when `addr + n <= len(space)`; a read never leaves its space and never
pads (rules R14, R70). -/
def memRead (space : ByteSeq) (addr n : Nat) : Option ByteSeq :=
  if addr + n ≤ space.length then some ((space.drop addr).take n) else none

/-- The sum of the bytes, over the natural numbers (rule R130). -/
def byteSum (s : ByteSeq) : Nat := (s.map BitVec.toNat).sum

/-- `CHECKSUM(s)` (rule R130). -/
def checksum (s : ByteSeq) : Byte := BitVec.ofNat 8 (255 - byteSum s % 256)

/-- `VERIFY(s, c)` (rule R131). -/
def verify (s : ByteSeq) (c : Byte) : Bool := checksum s == c

/-- `HEADER_KIND(b)`: looks at offset 1 only; `none` outside its domain `len(b) >= 2` (rule R142). -/
def headerKind : ByteSeq → Option HeaderKind
  | _ :: k :: _ => some (if k = sop2Rsp then .response else if k = sop2Async then .async else .invalid)
  | _ => none

/-- `DECLARED_LENGTH(b)`: offset 4, or offsets 3 and 4 big-endian; `none` outside its domain (rules R143, R111). -/
def declaredLength : ByteSeq → Option Nat
  | _ :: k :: _ :: b3 :: b4 :: _ =>
    if k = sop2Rsp then some b4.toNat
    else if k = sop2Async then some (b3.toNat * 256 + b4.toNat)
    else none
  | _ => none

/-- `frame_len(b) = 5 + DECLARED_LENGTH(b)` (rule R144). -/
def frameLen (b : ByteSeq) : Option Nat := (declaredLength b).map (hdrSize + ·)

/-- `sops_ok(b)` (rule R145). -/
def sopsOk : ByteSeq → Bool
  | b0 :: b1 :: _ => b0 == sop1 && (b1 == sop2Rsp || b1 == sop2Async)
  | _ => false

/-- `complete(b)`: at least 6 bytes, a valid SOP pair, and at least the frame's length; bytes after the frame are
allowed and the checksum is not looked at (rule R146). -/
def complete (b : ByteSeq) : Bool :=
  decide (minFrame ≤ b.length) && sopsOk b &&
    match frameLen b with
    | some n => decide (n ≤ b.length)
    | none => false

/-- The domain of FRAME_DECODE: complete, and a declared length of at least 1 (rules R147, R150). -/
def frameDecodable (b : ByteSeq) : Bool := complete b && frameLen b != some hdrSize

end Sys2Proof.Machine

namespace Sys2Proof

/-- A Frame's payload (rule R140). -/
def Frame.payload : Frame → ByteSeq
  | .response _ _ _ p _ => p
  | .async _ _ p _ => p

/-- A Frame's `length` field as a number (rule R140). -/
def Frame.length : Frame → Nat
  | .response _ _ l _ _ => l.toNat
  | .async _ l _ _ => l.toNat

/-- A Frame's `checksum` field (rule R140). -/
def Frame.claimed : Frame → Byte
  | .response _ _ _ _ c => c
  | .async _ _ _ c => c

/-- A Frame's first start byte (rule R140). -/
def Frame.sop1 : Frame → Byte
  | .response .. => Sys2Proof.sop1
  | .async .. => Sys2Proof.sop1

/-- A Frame's second start byte, which tells the variant (rule R140). -/
def Frame.sop2 : Frame → Byte
  | .response .. => sop2Rsp
  | .async .. => sop2Async

/-- The bytes at offsets 2 to 4 of the frame (rule R141). -/
def Frame.header3 : Frame → ByteSeq
  | .response rc sq l _ _ => [rc, sq, l]
  | .async ev l _ _ => [ev, BitVec.ofNat 8 (l.toNat / 256), BitVec.ofNat 8 (l.toNat % 256)]

/-- The raw bytes of a Frame (rule R141). -/
def Frame.bytes (f : Frame) : ByteSeq := [f.sop1, f.sop2] ++ f.header3 ++ f.payload ++ [f.claimed]

/-- `len(payload) + 1 = length` (rule R140). -/
def Frame.shapeOk (f : Frame) : Bool := f.payload.length + 1 == f.length

/-- "A Frame value exists only if its checksum verified" (rule R140); the range summed is rule R133's. -/
def Frame.valid (f : Frame) : Bool := f.shapeOk && Machine.verify (f.header3 ++ f.payload) f.claimed

end Sys2Proof
end

