-- ==== Sys2Proof/WellFormed.lean ====
section
/-! DEFINITION. Which instructions are well formed as terms: each operand in the domain its rule gives it, and each
field small enough for its encoding. The checks that need the instance's parameters (the table's W1 to W8, the mask
width, the capacities) are the loader's and the meanings' (Machine/Loader.lean, Machine/Operands.lean). -/

namespace Sys2Proof

/-- Distinct keys: an association list that is a finite map. -/
def distinctKeys {α β : Type} [DecidableEq α] (m : List (α × β)) : Bool := decide (m.map Prod.fst).Nodup

/-- The optional bitmask of FLD.PREDEF fits the field: `pmask < 2^(8*(to-from))` (rule R108, W8). -/
def pmaskFits (lo hi : Nat) : Option Nat → Bool
  | none => true
  | some m => decide (m < 2 ^ (8 * (hi - lo)))

/-- Well-formedness of an instruction. -/
def Instr.wf : Instr → Bool
  | .reset => true
  | .checksum _ => true
  | .verify _ _ => true
  | .headerKind b => decide (2 ≤ b.length)
  | .declaredLength b => (Machine.declaredLength b).isSome
  | .frameDecode b => Machine.frameDecodable b
  | .ingest _ => true
  | .decodeRecord f _ _ _ => f.valid
  | .decode _ _ _ _ => true
  | .buildFrame _ _ _ p => decide (p.length ≤ 254)
  | .frameResponse _ _ l p _ => p.length + 1 == l.toNat
  | .frameAsync _ l p _ => p.length + 1 == l.toNat
  | .frameCommand _ _ _ p => decide (p.length ≤ 254)
  | .fldNum _ lo hi => decide (lo < hi)
  | .fldHex _ lo hi => decide (lo < hi)
  | .fldText _ lo hi _ => decide (lo ≤ hi)
  | .fldRaw _ lo hi => decide (lo ≤ hi)
  | .fldPredef _ lo hi pm vs => decide (lo < hi) && pmaskFits lo hi pm && distinctKeys vs
  | .fldBitmask _ _ _ _ _ _ _ => true
  | .fldSigned _ lo hi => decide (lo < hi)
  | .fldUnknown06 _ c _ _ => c &&& 0xFE == 0x06
  | .fldUnknown08 _ c _ _ => c &&& 0xF8 == 0x08
  | .fldUnknown10 _ c _ _ => c &&& 0xF0 == 0x10
  | .fldUnknown20 _ c _ _ => c &&& 0xE0 == 0x20
  | .fldUnknown40 _ c _ _ => c &&& 0xC0 == 0x40
  | .fldUnknown80 _ c _ _ => c &&& 0x80 == 0x80

end Sys2Proof
end

