-- ==== Sys2Proof/Decode.lean ====
section
/-! DEFINITION. The encoded form of an instruction and its decoder and encoder (30_encoding.md rules R90 to R98, R104,
R112 to R114). Each format of spec/opcode_table.json is a match space of its own: a transaction is selected by a 4-bit
code and carries its operands beside it (the spec gives operands no bits), an inbound frame is selected by its first
two bytes and is all bytes, a command frame is described by its fields, a descriptor is selected by the 9-bit word
`hexflag * 256 + type code`. -/

namespace Sys2Proof

/-- The operand lines beside a transaction's select code (rule R112, the operands column). A transaction reads the lines
its row names and no other. -/
structure Operands where
  bytes : ByteSeq := []
  byte : Byte := 0
  frame : Frame := .response 0 0 1 [] 0xFE
  key : Option RespKey := none
  mask1 : Option Nat := none
  mask2 : Option Nat := none
  deviceId : Option Byte := none
  commandId : Option Byte := none
  sequence : Byte := 0
  deriving DecidableEq, Repr

/-- An encoded instruction, in one of the four formats of the opcode table. -/
inductive Code where
  /-- format XACT: the 4-bit select code and the operand lines -/
  | xact (select : BitVec 4) (ops : Operands)
  /-- format FRAME_IN: the bytes at the Frame Decoder's input -/
  | frameIn (bytes : ByteSeq)
  /-- format FRAME_OUT: the two start bytes to send and the fields of the frame to produce -/
  | frameOut (sops : BitVec 16) (deviceId commandId sequence : Byte) (payload : ByteSeq)
  /-- format FDESC: a Field Descriptor -/
  | fdesc (d : Descriptor)
  deriving DecidableEq, Repr

/-- Why the decoder rejects an encoded instruction. -/
inductive DecodeError where
  /-- a select code `0xA` to `0xF` (rules R112, R287 d) -/
  | unassignedSelect (code : BitVec 4)
  /-- fewer bytes than the frame has (rules R146, R150) -/
  | frameIncomplete
  /-- the first byte is not `0xFF` (rules R91, R99) -/
  | badSop1 (b : Byte)
  /-- the second byte is neither `0xFF` nor `0xFE` (rules R91, R99) -/
  | badSop2 (b : Byte)
  /-- a declared length of 0 (rules R95, R150) -/
  | zeroLength
  /-- the start bytes of a command frame are not `FF FF` (rule R253) -/
  | badCommandSops (w : BitVec 16)
  /-- a FLD.BITMASK descriptor whose `reg` is neither 1 nor 2 (rules R107, R108 W6) -/
  | badMaskRegister (reg : Nat)
  deriving DecidableEq, Repr

/-- Bit 8 of a descriptor's match word (rule R113). -/
def hexflag : NumFormat → BitVec 1
  | .none => 0
  | .hex => 1

/-- A descriptor's match word `hexflag * 256 + type code` (rule R113). -/
def Descriptor.word (d : Descriptor) : BitVec 9 := hexflag d.format ++ d.code

/-- The payload and the checksum byte of a frame whose header declared `L`, from the bytes after the header
(rules R92 to R94). -/
def frameTail (L : Nat) (rest : ByteSeq) : Except DecodeError (ByteSeq × Byte) :=
  if L = 0 then .error .zeroLength
  else
    match rest.drop (L - 1) with
    | c :: _ => .ok (rest.take (L - 1), c)
    | [] => .error .frameIncomplete

/-- The FRAME_IN decoder: the two rows of the format, matched on the first two bytes, then the header of rule R92 or
R93. Bytes after the frame are not looked at (rule R149). -/
def decodeFrameIn : ByteSeq → Except DecodeError Instr
  | b0 :: b1 :: b2 :: b3 :: b4 :: rest =>
    if b0 ≠ sop1 then .error (.badSop1 b0)
    else if b1 = sop2Rsp then
      (frameTail b4.toNat rest).map fun (p, c) => .frameResponse b2 b3 b4 p c
    else if b1 = sop2Async then
      (frameTail (b3.toNat * 256 + b4.toNat) rest).map fun (p, c) => .frameAsync b2 (b3 ++ b4) p c
    else .error (.badSop2 b1)
  | _ => .error .frameIncomplete

/-- The XACT decoder (rule R112). -/
def decodeXact (select : BitVec 4) (o : Operands) : Except DecodeError Instr :=
  if select = 0x0 then .ok .reset
  else if select = 0x1 then .ok (.checksum o.bytes)
  else if select = 0x2 then .ok (.verify o.bytes o.byte)
  else if select = 0x3 then .ok (.headerKind o.bytes)
  else if select = 0x4 then .ok (.declaredLength o.bytes)
  else if select = 0x5 then .ok (.frameDecode o.bytes)
  else if select = 0x6 then .ok (.ingest o.bytes)
  else if select = 0x7 then .ok (.decodeRecord o.frame o.key o.mask1 o.mask2)
  else if select = 0x8 then .ok (.decode o.bytes o.key o.mask1 o.mask2)
  else if select = 0x9 then .ok (.buildFrame o.deviceId o.commandId o.sequence o.bytes)
  else .error (.unassignedSelect select)

/-- The number of a mask register in a descriptor (rule R107). -/
def maskRegOf (reg : Nat) : Except DecodeError MaskReg :=
  if reg = 1 then .ok .mask1 else if reg = 2 then .ok .mask2 else .error (.badMaskRegister reg)

/-- The FDESC decoder: the thirteen rows of the format, each a match and a mask on the descriptor's word
(rules R104, R113). The six blocks of FLD.UNKNOWN cover every type code from `0x06` up (rule R114). -/
def decodeDescriptor (d : Descriptor) : Except DecodeError Instr :=
  let w := d.word
  if w &&& 0x1FF = 0x000 then .ok (.fldNum d.name d.lo d.hi)
  else if w &&& 0x1FF = 0x100 then .ok (.fldHex d.name d.lo d.hi)
  else if w &&& 0x0FF = 0x001 then .ok (.fldText d.name d.lo d.hi d.encoding)
  else if w &&& 0x0FF = 0x002 then .ok (.fldRaw d.name d.lo d.hi)
  else if w &&& 0x0FF = 0x003 then .ok (.fldPredef d.name d.lo d.hi d.pmask d.values)
  else if w &&& 0x0FF = 0x004 then
    (maskRegOf d.reg).map fun r => .fldBitmask d.name r d.bit d.rangeBottom d.rangeTop d.units d.sensor
  else if w &&& 0x0FF = 0x005 then .ok (.fldSigned d.name d.lo d.hi)
  else if w &&& 0x0FE = 0x006 then .ok (.fldUnknown06 d.name d.code d.lo d.hi)
  else if w &&& 0x0F8 = 0x008 then .ok (.fldUnknown08 d.name d.code d.lo d.hi)
  else if w &&& 0x0F0 = 0x010 then .ok (.fldUnknown10 d.name d.code d.lo d.hi)
  else if w &&& 0x0E0 = 0x020 then .ok (.fldUnknown20 d.name d.code d.lo d.hi)
  else if w &&& 0x0C0 = 0x040 then .ok (.fldUnknown40 d.name d.code d.lo d.hi)
  else .ok (.fldUnknown80 d.name d.code d.lo d.hi)

/-- The decoder, total on every encoded instruction. A command frame is never decoded from bytes (rule R97). -/
def decode : Code → Except DecodeError Instr
  | .xact sel o => decodeXact sel o
  | .frameIn b => decodeFrameIn b
  | .frameOut w did cid sq p =>
    if w = sop1 ++ sop2Rsp then .ok (.frameCommand did cid sq p) else .error (.badCommandSops w)
  | .fdesc d => decodeDescriptor d

/-- The number 1 or 2 of a mask register (rule R107). -/
def regNumber : MaskReg → Nat
  | .mask1 => 1
  | .mask2 => 2

/-- The encoder, from the same tables. -/
def encode : Instr → Code
  | .reset => .xact 0x0 {}
  | .checksum s => .xact 0x1 { bytes := s }
  | .verify s c => .xact 0x2 { bytes := s, byte := c }
  | .headerKind b => .xact 0x3 { bytes := b }
  | .declaredLength b => .xact 0x4 { bytes := b }
  | .frameDecode b => .xact 0x5 { bytes := b }
  | .ingest c => .xact 0x6 { bytes := c }
  | .decodeRecord f k m1 m2 => .xact 0x7 { frame := f, key := k, mask1 := m1, mask2 := m2 }
  | .decode c k m1 m2 => .xact 0x8 { bytes := c, key := k, mask1 := m1, mask2 := m2 }
  | .buildFrame did cid sq p => .xact 0x9 { deviceId := did, commandId := cid, sequence := sq, bytes := p }
  | .frameResponse rc sq l p c => .frameIn ([sop1, sop2Rsp, rc, sq, l] ++ p ++ [c])
  | .frameAsync ev l p c =>
    .frameIn ([sop1, sop2Async, ev, BitVec.ofNat 8 (l.toNat / 256), BitVec.ofNat 8 (l.toNat % 256)] ++ p ++ [c])
  | .frameCommand did cid sq p => .frameOut 0xFFFF did cid sq p
  | .fldNum n lo hi => .fdesc { name := n, code := 0x00, lo := lo, hi := hi }
  | .fldHex n lo hi => .fdesc { name := n, code := 0x00, format := .hex, lo := lo, hi := hi }
  | .fldText n lo hi e => .fdesc { name := n, code := 0x01, lo := lo, hi := hi, encoding := e }
  | .fldRaw n lo hi => .fdesc { name := n, code := 0x02, lo := lo, hi := hi }
  | .fldPredef n lo hi pm vs => .fdesc { name := n, code := 0x03, lo := lo, hi := hi, pmask := pm, values := vs }
  | .fldBitmask n r b rb rt u se =>
    .fdesc
      { name := n, code := 0x04, reg := regNumber r, bit := b, rangeBottom := rb, rangeTop := rt, units := u,
        sensor := se }
  | .fldSigned n lo hi => .fdesc { name := n, code := 0x05, lo := lo, hi := hi }
  | .fldUnknown06 n c lo hi => .fdesc { name := n, code := c, lo := lo, hi := hi }
  | .fldUnknown08 n c lo hi => .fdesc { name := n, code := c, lo := lo, hi := hi }
  | .fldUnknown10 n c lo hi => .fdesc { name := n, code := c, lo := lo, hi := hi }
  | .fldUnknown20 n c lo hi => .fdesc { name := n, code := c, lo := lo, hi := hi }
  | .fldUnknown40 n c lo hi => .fdesc { name := n, code := c, lo := lo, hi := hi }
  | .fldUnknown80 n c lo hi => .fdesc { name := n, code := c, lo := lo, hi := hi }

/-- The value an opcode-table row of the code's format is matched on (rule R113): the select code, the two start bytes
as a 16-bit value, or the descriptor's word. -/
def Code.word : Code → Nat
  | .xact sel _ => sel.toNat
  | .frameIn b => Machine.be (b.take 2)
  | .frameOut w _ _ _ _ => w.toNat
  | .fdesc d => d.word.toNat

/-- Match and mask of an instruction's row in spec/opcode_table.json. -/
def Instr.row : Instr → Nat × Nat
  | .reset => (0x0, 0xF)
  | .checksum _ => (0x1, 0xF)
  | .verify _ _ => (0x2, 0xF)
  | .headerKind _ => (0x3, 0xF)
  | .declaredLength _ => (0x4, 0xF)
  | .frameDecode _ => (0x5, 0xF)
  | .ingest _ => (0x6, 0xF)
  | .decodeRecord _ _ _ _ => (0x7, 0xF)
  | .decode _ _ _ _ => (0x8, 0xF)
  | .buildFrame _ _ _ _ => (0x9, 0xF)
  | .frameResponse _ _ _ _ _ => (0xFFFF, 0xFFFF)
  | .frameAsync _ _ _ _ => (0xFFFE, 0xFFFF)
  | .frameCommand _ _ _ _ => (0xFFFF, 0xFFFF)
  | .fldNum _ _ _ => (0x000, 0x1FF)
  | .fldHex _ _ _ => (0x100, 0x1FF)
  | .fldText _ _ _ _ => (0x001, 0x0FF)
  | .fldRaw _ _ _ => (0x002, 0x0FF)
  | .fldPredef _ _ _ _ _ => (0x003, 0x0FF)
  | .fldBitmask _ _ _ _ _ _ _ => (0x004, 0x0FF)
  | .fldSigned _ _ _ => (0x005, 0x0FF)
  | .fldUnknown06 _ _ _ _ => (0x006, 0x0FE)
  | .fldUnknown08 _ _ _ _ => (0x008, 0x0F8)
  | .fldUnknown10 _ _ _ _ => (0x010, 0x0F0)
  | .fldUnknown20 _ _ _ _ => (0x020, 0x0E0)
  | .fldUnknown40 _ _ _ _ => (0x040, 0x0C0)
  | .fldUnknown80 _ _ _ _ => (0x080, 0x080)

/-- The operands that stand beside a select code when only the code is given: zeros and absent values, and, where the
opcode table's operands column asks for more, the smallest operand in the operation's domain
(assumption log entry 12). -/
def sampleOperands (select : BitVec 4) : Operands :=
  if select = 0x3 then { bytes := [0, 0] }
  else if select = 0x4 then { bytes := [sop1, sop2Rsp, 0, 0, 0] }
  else if select = 0x5 then { bytes := [sop1, sop2Rsp, 0, 0, 1, 0xFE] }
  else {}

/-- The descriptor that has a given match word and the smallest attributes every type accepts: the byte range `0..1`,
mask register 1, bit 0 (assumption log entry 12). -/
def sampleDescriptor (w : BitVec 9) : Descriptor :=
  { name := "", code := w.setWidth 8, format := if w.getLsbD 8 then .hex else .none, lo := 0, hi := 1,
    encoding := "ascii" }

/-- The encoded instruction that a bare opcode-table word of `nbits` bits stands for. A word does not say its format, and
the formats' words overlap: up to 8 bits a word that is an assigned select code is a transaction and any other a
descriptor word; above 8 bits the two FRAME_IN words are frames with a declared length of 1, and any other word below
`0x200` is a descriptor word (assumption log entry 12). -/
def tableCode (nbits w : Nat) : Option Code :=
  if nbits ≤ 8 then
    if w < 10 then some (.xact (BitVec.ofNat 4 w) (sampleOperands (BitVec.ofNat 4 w)))
    else if w < 256 then some (.fdesc (sampleDescriptor (BitVec.ofNat 9 w)))
    else none
  else if w = 0xFFFF then some (.frameIn [sop1, sop2Rsp, 0, 0, 1, 0xFE])
  else if w = 0xFFFE then some (.frameIn [sop1, sop2Async, 0, 0, 1, 0xFE])
  else if w < 512 then some (.fdesc (sampleDescriptor (BitVec.ofNat 9 w)))
  else none

/-- What the decoder reads from an opcode-table word. -/
def decodeTableWord (nbits w : Nat) : Option Instr :=
  match tableCode nbits w with
  | some c => (decode c).toOption
  | none => none

end Sys2Proof
end

