-- ==== Sys2Proof/Machine/State.lean ====
section
/-! DEFINITION. The state of the machine as plain data: the partial buffer, the registers of the descriptor walk, the
configuration, the host's pending requests and the result channel; the values that flow through them; and the reasons
the machine stops (10_state.md, 43_field_codec.md rule R191, 44_record_decode.md rule R221, 60_exceptions.md). -/

namespace Sys2Proof.Machine

/-- The value of an enumerated field (rule R191). -/
inductive EnumValue where
  | mapped (label : String)
  | unknown (code : Nat)
  deriving DecidableEq, Repr

/-- The error sentinels (rule R191). -/
inductive FieldError where
  | unparseable (code : BitVec 8)
  | outOfRange
  deriving DecidableEq, Repr

/-- A sample list with the metadata attached when it was created (rules R191, R202). `values` is oldest first. -/
structure Samples where
  sensor : String
  rangeBottom : Int
  rangeTop : Int
  units : String
  values : List Int
  deriving DecidableEq, Repr

/-- A decoded field (rule R191). A text is a sequence of characters. -/
inductive Value where
  | num (n : Nat)
  | hexStr (t : List Char)
  | text (t : List Char)
  | raw (s : ByteSeq)
  | enum (v : EnumValue)
  | signed (i : Int)
  | samples (s : Samples)
  | fieldError (e : FieldError)
  deriving DecidableEq, Repr

/-- A finite map from field name to value in order of first insertion (rules R40, R221). -/
abbrev FieldMap := List (String × Value)

/-- The cause of an UnparseableField notification (90_conflicts.md C11). -/
inductive UnparseableCause where
  | unknownType (code : BitVec 8)
  | outOfRange
  deriving DecidableEq, Repr

/-- A notification on the result channel (rules R260, R261, R264, R266). -/
inductive Notification where
  | checksumMismatch (computed claimed : Byte)
  | unparseableField (name : String) (cause : UnparseableCause)
  deriving DecidableEq, Repr

/-- Why an INGEST returned no Frame (rule R160). -/
inductive NoneCause where
  | pending
  | garbage
  | zeroLength
  deriving DecidableEq, Repr

/-- Why a Frame was passed through undecoded (rule R221). -/
inductive RawReason where
  | emptyPayload
  | noEntry
  | missingStreamingContext
  | noActiveField
  deriving DecidableEq, Repr

/-- A Decoded Record (rule R221). -/
structure Record where
  desc : String
  key : Key
  event : Option String
  fields : FieldMap
  frame : Frame
  residual : Nat
  deriving DecidableEq, Repr

/-- The result of a transaction (the result column of rule R112). -/
inductive Result where
  /-- RESET -/
  | none
  /-- CHECKSUM -/
  | byte (b : Byte)
  /-- VERIFY -/
  | bool (b : Bool)
  /-- HEADER_KIND -/
  | kind (k : HeaderKind)
  /-- DECLARED_LENGTH -/
  | length (n : Nat)
  /-- FRAME_DECODE, INGEST, FRAME.RESPONSE, FRAME.ASYNC -/
  | frame (f : Frame)
  /-- FRAME_DECODE, INGEST, DECODE, FRAME.RESPONSE, FRAME.ASYNC: no Frame is produced -/
  | checksumMismatch (computed claimed : Byte)
  /-- `None(cause)` of INGEST -/
  | noFrame (cause : NoneCause)
  /-- `Nothing(cause)` of DECODE -/
  | nothing (cause : NoneCause)
  /-- DECODE_RECORD, DECODE -/
  | record (r : Record)
  /-- `Raw(frame, reason)` of DECODE_RECORD, DECODE -/
  | raw (f : Frame) (reason : RawReason)
  /-- BUILD_FRAME, FRAME.COMMAND: the byte space `OUT` -/
  | bytes (out : ByteSeq)
  deriving DecidableEq, Repr

/-- What the host receives from one transaction: its result and the notifications raised, in order. -/
structure Reply where
  result : Result
  notes : List Notification
  deriving DecidableEq, Repr

/-- The transaction-local registers of DECODE_RECORD (rules R36 to R38, R40), the operands they work on, and the
notifications collected so far (rule R276). -/
structure Walk where
  /-- the Frame; its payload is the byte space `PAY` -/
  frame : Frame
  /-- the Parser Entry being walked -/
  entry : Entry
  /-- `MASK1`, latched at the start of the transaction -/
  mask1 : Option Nat
  /-- `MASK2`, latched at the start of the transaction -/
  mask2 : Option Nat
  /-- `FI`, the field index, the only program counter -/
  fi : Nat
  /-- `CUR`, the payload cursor -/
  cur : Nat
  /-- `REC`, the running record -/
  fields : FieldMap
  /-- the notifications raised so far, delivered with the result -/
  notes : List Notification
  deriving DecidableEq, Repr

/-- What a field step makes of a walk: it goes on, or the transaction ends with a Record. -/
inductive Progress where
  | running (w : Walk)
  | finished (r : Record) (notes : List Notification)
  deriving DecidableEq, Repr

/-- What FRAME_DECODE makes of a buffer in its domain (rule R147). -/
inductive FrameOutcome where
  | frame (f : Frame)
  | mismatch (computed claimed : Byte)
  deriving DecidableEq, Repr

/-- What INGEST makes of a chunk (rule R160). -/
inductive IngestOutcome where
  | frame (f : Frame)
  | none (cause : NoneCause)
  | mismatch (computed claimed : Byte)
  deriving DecidableEq, Repr

/-- A request of the host at the command port: an encoded instruction, or the load of a Parser Table (rule R302). -/
inductive HostRequest where
  | issue (c : Code)
  | loadTable (t : Table)
  deriving DecidableEq, Repr

/-- The state. `partialBuf` is the only persistent architectural state (rule R30); `walk` holds the transaction-local
registers and is `none` between transactions (rule R45); `params` and `table` are the configuration (rule R42). -/
structure State where
  /-- the open parameters, fixed at instantiation (rule R10) -/
  params : Params
  /-- `TABLE` (rule R42) -/
  table : Table
  /-- whether a DECODE_RECORD has been made, after which `TABLE` may not be written (rule R80) -/
  tableUsed : Bool
  /-- `PARTIAL` (rule R32) -/
  partialBuf : ByteSeq
  /-- `FI`, `CUR`, `REC`, `MASK1`, `MASK2` inside a DECODE_RECORD; they do not exist outside one (rule R45) -/
  walk : Option Walk
  /-- the host's requests, in the order it issued them (rule R76) -/
  port : List HostRequest
  /-- the result channel: what the last transaction returned, `none` before the first -/
  reply : Option Reply
  deriving DecidableEq, Repr

/-- The reasons the machine stops with a fault: none exist. "SMFA has no fatal condition" (rule R277); every abnormal
outcome of the spec is a result or a notification. Safe: no step of the model faults. -/
inductive Fault where
  deriving DecidableEq, Repr

/-- The reasons an instruction is given no meaning. All are safe: the model stops, so no claim about what follows can be
proved. All but the first two and the last seven are the cases of rule R287; the last seven are the model's (assumption log
entries 6, 10, 13 and 17). -/
inductive Refusal where
  /-- raised by an arm of `exec` whose instruction has no meaning yet; no arm does -/
  | notModelled (mnemonic : String)
  /-- raised by `step`: the request at the port, or the descriptor at `FI`, does not decode (rules R112, R150, R287 d) -/
  | undecodable (e : DecodeError)
  /-- raised by HEADER_KIND on fewer than 2 bytes (rules R142, R287 a) -/
  | headerTooShort
  /-- raised by DECLARED_LENGTH on fewer than 5 bytes or an invalid kind (rules R143, R287 a) -/
  | lengthUndefined
  /-- raised by FRAME_DECODE on a buffer that is not complete or has declared length 0 (rules R150, R287 b) -/
  | frameNotDecodable
  /-- raised by BUILD_FRAME and FRAME.COMMAND with more than 254 payload bytes (rules R252, R287 c) -/
  | payloadTooLong
  /-- raised by the table load, DECODE_RECORD and DECODE with a `TABLE` that is not well formed (rules R108, R287 e) -/
  | tableIllFormed
  /-- raised by the table load after the first DECODE_RECORD (rules R80, R287 e) -/
  | tableInUse
  /-- raised by INGEST and DECODE on a chunk longer than `CHUNK_MAX` (rules R66, R287 g) -/
  | chunkTooLong
  /-- raised by INGEST and DECODE when the new `PARTIAL` would exceed `PARTIAL_CAP` (rules R66, R287 g) -/
  | partialOverflow
  /-- raised by DECODE_RECORD and DECODE on a mask of `2^MASK_W` or more (rule R287 h) -/
  | maskTooWide
  /-- raised by DECODE_RECORD, FRAME.RESPONSE and FRAME.ASYNC on an operand that is no Frame: a length field that does
  not count its payload, or, for DECODE_RECORD, an unverified checksum (rule R140: no such Frame exists); that it is refused
  is the model's choice (assumption log entries 13 and 17) -/
  | notAFrame
  /-- raised by a Field Descriptor outside a walk, where it has no payload to read (rule R190) -/
  | noWalk
  /-- raised by a Field Descriptor that fails W2, W3, W6 or W8 (rule R108) or, for FLD.UNKNOWN, lies outside its row -/
  | descriptorIllFormed
  /-- raised by FLD.BITMASK in an entry that requires no mask and by any other type in one that does
  (rules R108 W4, W5, R114) -/
  | descriptorOutOfPlace
  /-- raised by FLD.BITMASK when its mask register is absent; no run reaches it (rule R224 tests first) -/
  | maskAbsent
  /-- raised by FLD.BITMASK when the value under its name is no sample list; no run reaches it (rule R200) -/
  | sampleListExpected
  /-- raised by a walk that outlasts its bound; no run reaches it (rule R238) -/
  | walkUnfinished
  deriving DecidableEq, Repr

/-- What a meaning answers. -/
abbrev Answer := Host.Outcome State Fault Refusal

/-- The machine right after reset (rules R45, R300): `PARTIAL` empty, no walk, nothing pending, nothing returned. The
parameters are the defaults of `Params` (assumption log entry 3) and no table is loaded (log entry 2). -/
def State.reset : State :=
  { params := {}, table := {}, tableUsed := false, partialBuf := [], walk := none, port := [], reply := none }

end Sys2Proof.Machine
end

