-- ==== Sys2Proof/Machine/Ops.lean ====
section
/-! DEFINITION. The operations the meanings share: answering the host and raising a notification, the reads and
writes of `PARTIAL`, FRAME_DECODE, the five steps of INGEST, and the advance and the end of a descriptor walk. -/

namespace Sys2Proof.Machine

/-! ## The result channel: outcomes and notifications -/

/-- A transaction that ends with a result and raises nothing. -/
def State.respond (s : State) (r : Result) : State := { s with reply := some { result := r, notes := [] } }

/-- Raising ChecksumMismatch, the only notification that ends a transaction: the information is in the result, nothing
is saved, and control returns to the host (rules R261, R274, R276). -/
def State.raiseMismatch (s : State) (computed claimed : Byte) : State :=
  { s with
    reply :=
      some { result := .checksumMismatch computed claimed, notes := [.checksumMismatch computed claimed] } }

/-- Raising UnparseableField inside a walk: it is collected and delivered with the result (rules R264, R266, R276). -/
def Walk.raise (w : Walk) (name : String) (cause : UnparseableCause) : Walk :=
  { w with notes := w.notes ++ [.unparseableField name cause] }

/-! ## PARTIAL -/

/-- A bound of the instance holds of a length (`none` is unbounded). -/
def withinBound (bound : Option Nat) (n : Nat) : Bool :=
  match bound with
  | none => true
  | some k => decide (n ≤ k)

/-- The contents of `PARTIAL` are legal: its length is at most `PARTIAL_CAP` (rule R32). -/
def Memory.wf (p : Params) (contents : ByteSeq) : Bool := withinBound p.partialCap contents.length

/-- Write of `PARTIAL`, refused when it would exceed `PARTIAL_CAP`, never truncated (rule R66). -/
def State.writePartial (s : State) (b : ByteSeq) : Except Refusal State :=
  if Memory.wf s.params b then .ok { s with partialBuf := b } else .error .partialOverflow

/-! ## FRAME_DECODE -/

/-- `FRAME_DECODE(b)` (rule R147); `none` outside its domain (rule R150). It reads the first frame only (rule R149). -/
def frameDecode (b : ByteSeq) : Option FrameOutcome :=
  if frameDecodable b then
    match b with
    | _ :: k :: b2 :: b3 :: b4 :: _ =>
      match declaredLength b with
      | none => none
      | some L =>
        match memRead b hdrSize (L - 1), memRead b 2 (L + 2), b[L + 4]? with
        | some payload, some range, some claimed =>
          if verify range claimed then
            if k = sop2Rsp then some (.frame (.response b2 b3 b4 payload claimed))
            else some (.frame (.async b2 (b3 ++ b4) payload claimed))
          else some (.mismatch (checksum range) claimed)
        | _, _, _ => none
    | _ => none
  else none

/-- The check of one frame given by its fields: the range summed is the header after the start bytes and the payload
(rules R133, R148). -/
def judgeFrame (f : Frame) : FrameOutcome :=
  let c := checksum (f.header3 ++ f.payload)
  if c = f.claimed then .frame f else .mismatch c f.claimed

/-- The answer of a frame decode that is a transaction of its own; `PARTIAL` is not touched (rule R147). -/
def State.answerFrame (s : State) : FrameOutcome → State
  | .frame f => s.respond (.frame f)
  | .mismatch computed claimed => s.raiseMismatch computed claimed

/-! ## INGEST -/

/-- `DECODE_AND_CARRY(b)`: the outcome and the new `PARTIAL` (rules R162, R168, R169, R171). The `none` case does not
occur on a complete buffer. -/
def decodeAndCarry (b : ByteSeq) : Option (IngestOutcome × ByteSeq) :=
  match frameLen b with
  | none => none
  | some n =>
    if n = hdrSize then some (.none .zeroLength, [])
    else
      match frameDecode (b.take n) with
      | none => none
      | some (.mismatch computed claimed) => some (.mismatch computed claimed, [])
      | some (.frame f) => some (.frame f, b.drop n)

/-- The five steps of INGEST on the old `PARTIAL` and a chunk: the outcome and the new `PARTIAL` (rule R162). -/
def ingestSteps (old chunk : ByteSeq) : Option (IngestOutcome × ByteSeq) :=
  if complete chunk then decodeAndCarry chunk
  else
    let buf := old ++ chunk
    if 2 ≤ buf.length ∧ sopsOk buf = false then some (.none .garbage, [])
    else if complete buf then decodeAndCarry buf
    else some (.none .pending, buf)

/-- INGEST with the bounds of the instance: the outcome and the state with the new `PARTIAL` (rules R160, R66). -/
def State.ingest (s : State) (chunk : ByteSeq) : Except Refusal (IngestOutcome × State) :=
  if withinBound s.params.chunkMax chunk.length then
    match ingestSteps s.partialBuf chunk with
    | none => .error .frameNotDecodable
    | some (o, b) => (s.writePartial b).map fun t => (o, t)
  else .error .chunkTooLong

/-! ## The descriptor walk -/

/-- The payload of the Frame being walked: the byte space `PAY` (rule R61). -/
def Walk.payload (w : Walk) : ByteSeq := w.frame.payload

/-- `x[REC][name] <- v`: a new name goes last, an old one keeps its place (rules R40, R221). -/
def putField (name : String) (v : Value) : FieldMap → FieldMap
  | [] => [(name, v)]
  | (n, x) :: rest => if n = name then (n, v) :: rest else (n, x) :: putField name v rest

/-- Store a decoded value under a field's name (rule R190). -/
def Walk.put (w : Walk) (name : String) (v : Value) : Walk := { w with fields := putField name v w.fields }

/-- `requires_mask(e)`: the entry's key is the reserved event id (rule R109). -/
def requiresMask (p : Params) (e : Entry) : Bool := e.key == Key.async p.streamEventId

/-- The Record a walk ends with; `residual` is 0 in fixed-offset mode (rules R221, R228, R232). -/
def Walk.record (p : Params) (w : Walk) : Record :=
  { desc := w.entry.desc, key := w.entry.key, event := w.entry.event, fields := w.fields, frame := w.frame,
    residual := if requiresMask p w.entry then w.payload.length - w.cur else 0 }

/-- The walk ends: the Record and the collected notifications are the result. -/
def Walk.finish (p : Params) (w : Walk) : Progress := .finished (w.record p) w.notes

/-- What the value of `FI` says: below the number of fields the walk goes on; at the end it wraps to 0 in mask-driven
mode while payload remains, and otherwise ends (rules R37, R230, R236). -/
def Walk.settle (p : Params) (w : Walk) : Progress :=
  if w.fi < w.entry.fields.length then .running w
  else if requiresMask p w.entry ∧ w.cur < w.payload.length then .running { w with fi := 0 }
  else w.finish p

/-- `pc <- x[FI] + 1`, then the test of the end of the list (rules R230, R236). -/
def Walk.advance (p : Params) (w : Walk) : Progress := ({ w with fi := w.fi + 1 } : Walk).settle p

/-- The state after a field step. When the walk ends, the registers cease to exist and the Record is the result
(rules R45, R221). -/
def State.progress (s : State) : Progress → State
  | .running w => { s with walk := some w }
  | .finished r notes => { s with walk := none, reply := some { result := .record r, notes := notes } }

/-- A field step on the walk in progress; refused where there is none. -/
def State.inWalk (s : State) (f : Walk → Except Refusal Progress) : Answer :=
  match s.walk with
  | none => .refused .noWalk
  | some w =>
    match f w with
    | .ok g => .next (s.progress g)
    | .error r => .refused r

/-- The fetch of the Field Codec: the descriptor at `FI`, decoded; `none` when `FI` is at the end of the list
(rules R37, R284). -/
def Walk.fetch (w : Walk) : Option (Except DecodeError Instr) :=
  (w.entry.fields[w.fi]?).map decodeDescriptor

end Sys2Proof.Machine
end

