-- ==== Sys2Proof/Machine/Assembler.lean ====
section
/-! DEFINITION. The meanings of the Frame Assembler's own transactions, INGEST and RESET (42_frame_assembler.md). -/

namespace Sys2Proof.Machine

/-- RESET (rules R178, R300, R301): `PARTIAL <- []` and nothing else; it has no result. -/
def execReset (s : State) : Answer := .next (({ s with partialBuf := [] } : State).respond .none)

/-- The answer of INGEST (rule R160). -/
def State.answerIngest (s : State) : IngestOutcome → State
  | .frame f => s.respond (.frame f)
  | .none c => s.respond (.noFrame c)
  | .mismatch computed claimed => s.raiseMismatch computed claimed

/-- INGEST (rules R160 to R175). -/
def execIngest (chunk : ByteSeq) (s : State) : Answer :=
  match s.ingest chunk with
  | .ok (o, t) => .next (t.answerIngest o)
  | .error r => .refused r

end Sys2Proof.Machine
end

