-- ==== Sys2Proof/Machine/Checksum.lean ====
section
/-! DEFINITION. The meanings of the Checksum Unit's transactions (40_checksum.md). -/

namespace Sys2Proof.Machine

/-- CHECKSUM (rule R130): total, no state but the result. -/
def execChecksum (b : ByteSeq) (s : State) : Answer := .next (s.respond (.byte (checksum b)))

/-- VERIFY (rule R131): total, raises nothing. -/
def execVerify (b : ByteSeq) (c : Byte) (s : State) : Answer := .next (s.respond (.bool (verify b c)))

end Sys2Proof.Machine
end

