-- ==== Sys2Proof/Machine/Operands.lean ====
section
/-! DEFINITION. How each operand is assembled and checked (30_encoding.md rule R111): field values, samples, mask
bits, text and hexadecimal rendering, table lookup, defaults, and the domains of descriptor attributes. -/

namespace Sys2Proof.Machine

/-! ## Masks -/

/-- A mask operand has at most `MASK_W` bits; an absent one has no bits to check (rules R36, R287 h). -/
def maskFits (p : Params) : Option Nat → Bool
  | none => true
  | some m => decide (m < 2 ^ p.maskWidth)

/-- `(x[MASKreg] >> bit) mod 2 = 1` (rules R111 g, R233). -/
def maskBit (m bit : Nat) : Bool := (m >>> bit) % 2 == 1

/-- The mask register a descriptor names (rule R107). -/
def Walk.mask (w : Walk) : MaskReg → Option Nat
  | .mask1 => w.mask1
  | .mask2 => w.mask2

/-! ## Attribute domains (rule R108) -/

/-- W3's bound on the width of an integer-valued field. -/
def widthOk (p : Params) (lo hi : Nat) : Bool := withinBound p.maxWidth (hi - lo)

/-! ## Field values -/

/-- The base-16 digit of a number below 16, ten to fifteen as `A` to `F` (rule R194). -/
def hexDigit (n : Nat) : Char := if n < 10 then Char.ofNat (48 + n) else Char.ofNat (55 + n)

/-- The base-16 digits of `n` before `acc`; `fuel` bounds their number. -/
def hexDigitsBefore : Nat → Nat → List Char → List Char
  | 0, _, acc => acc
  | fuel + 1, n, acc =>
    if n < 16 then hexDigit n :: acc else hexDigitsBefore fuel (n / 16) (hexDigit (n % 16) :: acc)

/-- `hexdigits(n)`: most significant first, no leading zero, `"0"` for zero (rule R194). -/
def hexDigits (n : Nat) : List Char := hexDigitsBefore (n + 1) n []

/-- `TextDecode(enc, s)`: fixed for ascii on bytes below `0x80`, free elsewhere (rule R196). -/
def textDecode (enc : String) (s : ByteSeq) : List Char :=
  if enc = "ascii" ∧ s.all (fun x => decide (x.toNat < 128)) then s.map (fun x => Char.ofNat x.toNat)
  else Config.textDecodeOpen enc s

/-- Every U+0000 replaced by the character `0` (rule R195). -/
def replaceNul (t : List Char) : List Char := t.map fun c => if c = Char.ofNat 0 then '0' else c

/-- FLD.NUM's value (rule R193). -/
def numValue (s : ByteSeq) : Value := .num (be s)

/-- FLD.HEX's value (rule R194). -/
def hexValue (s : ByteSeq) : Value := .hexStr ('0' :: 'x' :: hexDigits (be s))

/-- FLD.TEXT's value (rule R195). -/
def textValue (enc : String) (s : ByteSeq) : Value := .text (replaceNul (textDecode enc s))

/-- FLD.RAW's value (rule R197). -/
def rawValue (s : ByteSeq) : Value := .raw s

/-- The code FLD.PREDEF looks up: masked bitwise when the descriptor has a mask (rules R111 e, R198). -/
def predefCode (pmask : Option Nat) (s : ByteSeq) : Nat :=
  match pmask with
  | none => be s
  | some m => be s &&& m

/-- FLD.PREDEF's value (rule R198). -/
def predefValue (pmask : Option Nat) (values : List (Nat × String)) (s : ByteSeq) : Value :=
  match values.lookup (predefCode pmask s) with
  | some label => .enum (.mapped label)
  | none => .enum (.unknown (predefCode pmask s))

/-- FLD.SIGNED's value: two's complement over `8 * (to - from)` bits (rules R111 d, R199). -/
def signedValue (lo hi : Nat) (s : ByteSeq) : Value := .signed (sext (8 * (hi - lo)) (be s))

/-- The sample conversion: `2^16` is subtracted exactly when the raw value exceeds the declared upper range
(rules R111 f, R200, R201). -/
def sampleOf (rangeTop : Int) (raw : Nat) : Int := if (raw : Int) > rangeTop then (raw : Int) - 65536 else raw

/-- FLD.BITMASK's value: a new list with the descriptor's metadata on first occurrence, the old one grown by one
sample later; `none` when the old value is no sample list (rules R200, R202). -/
def sampleValue (fresh : Samples) (raw : Nat) : Option Value → Option Value
  | none => some (.samples { fresh with values := [sampleOf fresh.rangeTop raw] })
  | some (.samples old) => some (.samples { old with values := old.values ++ [sampleOf fresh.rangeTop raw] })
  | some _ => none

/-! ## BUILD_FRAME operands -/

/-- An absent device or command id reads as 0 (rule R251). -/
def idOrZero (b : Option Byte) : Byte := b.getD 0

end Sys2Proof.Machine

namespace Sys2Proof

/-! ## Table lookup -/

/-- `lookup(f, key)`: an async frame by its event id, a response frame by the host's key (rules R110, R223, R226). -/
def Table.lookup (t : Table) (f : Frame) (key : Option RespKey) : Option Entry :=
  match f with
  | .async ev _ _ _ => t.async.lookup ev
  | .response .. =>
    match key with
    | none => none
    | some k => t.resp.lookup k

/-- `active(d)` under a pair of masks, for a descriptor as the table holds it (rule R233). -/
def Descriptor.active (mask1 mask2 : Nat) (d : Descriptor) : Bool :=
  Machine.maskBit (if d.reg = 1 then mask1 else mask2) d.bit

end Sys2Proof
end

