-- ==== Sys2Proof/Machine/FrameBuild.lean ====
section
/-! DEFINITION. Frame Construction: the command frame format and BUILD_FRAME (45_frame_build.md; 30_encoding.md rule
R96). -/

namespace Sys2Proof.Machine

/-- The bytes of a command frame (rules R96, R250): the six header bytes, the payload, the checksum over everything
after the two start bytes. -/
def commandBytes (deviceId commandId sequence : Byte) (payload : ByteSeq) : ByteSeq :=
  let body := [deviceId, commandId, sequence, BitVec.ofNat 8 (payload.length + 1)] ++ payload
  [sop1, sop2Rsp] ++ body ++ [checksum body]

/-- A payload whose declared length fits one byte (rule R252). -/
def payloadFits (payload : ByteSeq) : Bool := decide (payload.length ≤ 254)

/-- FRAME.COMMAND (rule R96): the outbound format, produced and never decoded. -/
def execFrameCommand (deviceId commandId sequence : Byte) (payload : ByteSeq) (s : State) : Answer :=
  if payloadFits payload then .next (s.respond (.bytes (commandBytes deviceId commandId sequence payload)))
  else .refused .payloadTooLong

/-- BUILD_FRAME (rules R250 to R252): an absent device or command id is 0. -/
def execBuildFrame (deviceId commandId : Option Byte) (sequence : Byte) (payload : ByteSeq) (s : State) : Answer :=
  if payloadFits payload then
    .next (s.respond (.bytes (commandBytes (idOrZero deviceId) (idOrZero commandId) sequence payload)))
  else .refused .payloadTooLong

end Sys2Proof.Machine
end

