-- ==== Sys2Proof/Machine/FrameDecoder.lean ====
section
/-! DEFINITION. The meanings of the Frame Decoder's transactions and of the two inbound frame formats
(41_frame_decoder.md; 30_encoding.md rules R92, R93). All are pure: `PARTIAL` is not touched (rule R151). -/

namespace Sys2Proof.Machine

/-- HEADER_KIND (rule R142). -/
def execHeaderKind (b : ByteSeq) (s : State) : Answer :=
  match headerKind b with
  | some k => .next (s.respond (.kind k))
  | none => .refused .headerTooShort

/-- DECLARED_LENGTH (rule R143). -/
def execDeclaredLength (b : ByteSeq) (s : State) : Answer :=
  match declaredLength b with
  | some n => .next (s.respond (.length n))
  | none => .refused .lengthUndefined

/-- FRAME_DECODE (rules R147 to R150). -/
def execFrameDecode (b : ByteSeq) (s : State) : Answer :=
  match frameDecode b with
  | some o => .next (s.answerFrame o)
  | none => .refused .frameNotDecodable

/-- FRAME.RESPONSE (rules R92, R140, R148): a frame in the response format yields the Frame of its fields, or
ChecksumMismatch. -/
def execFrameResponse (responseCode sequence : Byte) (length : BitVec 8) (payload : ByteSeq) (claimed : Byte)
    (s : State) : Answer :=
  let f := Frame.response responseCode sequence length payload claimed
  if f.shapeOk then .next (s.answerFrame (judgeFrame f)) else .refused .notAFrame

/-- FRAME.ASYNC (rules R93, R140, R148): a frame in the async format yields the Frame of its fields, or
ChecksumMismatch. -/
def execFrameAsync (eventId : Byte) (length : BitVec 16) (payload : ByteSeq) (claimed : Byte) (s : State) : Answer :=
  let f := Frame.async eventId length payload claimed
  if f.shapeOk then .next (s.answerFrame (judgeFrame f)) else .refused .notAFrame

end Sys2Proof.Machine
end

