-- ==== Sys2Proof/Machine/FieldCodec.lean ====
section
/-! DEFINITION. The meanings of the Field Descriptor types (43_field_codec.md), each one field step of the walk in
progress: the slice is selected and checked (44_record_decode.md rules R229, R231, R233, R235), the value is decoded,
stored in `REC` under the field's name, and `FI` and `CUR` advance (rules R230, R234, R236). -/

namespace Sys2Proof.Machine

/-- FIXED_FIELD for a recognised type: `from .. to` of the payload, or the OutOfRange sentinel and its notification;
no byte is read out of range (rules R229, R231). -/
def fixedField (p : Params) (name : String) (lo hi : Nat) (attrsOk : Bool) (value : ByteSeq → Value) (w : Walk) :
    Except Refusal Progress :=
  if attrsOk = false then .error .descriptorIllFormed
  else if requiresMask p w.entry then .error .descriptorOutOfPlace
  else
    match memRead w.payload lo (hi - lo) with
    | some s => .ok ((w.put name (value s)).advance p)
    | none => .ok (((w.raise name .outOfRange).put name (.fieldError .outOfRange)).advance p)

/-- FIXED_FIELD for an unrecognised type: the slice is not read and its bounds are not checked
(rules R203, R229, R264). -/
def unknownField (p : Params) (name : String) (code : BitVec 8) (inRow : Bool) (w : Walk) :
    Except Refusal Progress :=
  if inRow = false then .error .descriptorIllFormed
  else if requiresMask p w.entry then .error .descriptorOutOfPlace
  else .ok (((w.raise name (.unknownType code)).put name (.fieldError (.unparseable code))).advance p)

/-- The body of MASK_WALK's loop (rules R232 to R236): an inactive field only advances `FI`; an active one takes the
next 2 bytes at `CUR` and grows its sample list, or ends the walk when fewer remain. -/
def ringField (p : Params) (name : String) (reg : MaskReg) (bit : Nat) (fresh : Samples) (w : Walk) :
    Except Refusal Progress :=
  if ¬ bit < p.maskWidth then .error .descriptorIllFormed
  else if requiresMask p w.entry = false then .error .descriptorOutOfPlace
  else
    match w.mask reg with
    | none => .error .maskAbsent
    | some m =>
      if maskBit m bit then
        match memRead w.payload w.cur sampleBytes with
        | none => .ok (w.finish p)
        | some s =>
          match sampleValue fresh (be s) (w.fields.lookup name) with
          | none => .error .sampleListExpected
          | some v => .ok (({ w.put name v with cur := w.cur + sampleBytes } : Walk).advance p)
      else .ok (w.advance p)

/-- FLD.NUM (rule R193). -/
def execFldNum (name : String) (lo hi : Nat) (s : State) : Answer :=
  s.inWalk (fixedField s.params name lo hi ((Instr.fldNum name lo hi).wf && widthOk s.params lo hi) numValue)

/-- FLD.HEX (rule R194). -/
def execFldHex (name : String) (lo hi : Nat) (s : State) : Answer :=
  s.inWalk (fixedField s.params name lo hi ((Instr.fldHex name lo hi).wf && widthOk s.params lo hi) hexValue)

/-- FLD.TEXT (rule R195). -/
def execFldText (name : String) (lo hi : Nat) (encoding : String) (s : State) : Answer :=
  s.inWalk (fixedField s.params name lo hi (Instr.fldText name lo hi encoding).wf (textValue encoding))

/-- FLD.RAW (rule R197). -/
def execFldRaw (name : String) (lo hi : Nat) (s : State) : Answer :=
  s.inWalk (fixedField s.params name lo hi (Instr.fldRaw name lo hi).wf rawValue)

/-- FLD.PREDEF (rule R198). -/
def execFldPredef (name : String) (lo hi : Nat) (pmask : Option Nat) (values : List (Nat × String)) (s : State) :
    Answer :=
  s.inWalk
    (fixedField s.params name lo hi ((Instr.fldPredef name lo hi pmask values).wf && widthOk s.params lo hi)
      (predefValue pmask values))

/-- FLD.SIGNED (rule R199). -/
def execFldSigned (name : String) (lo hi : Nat) (s : State) : Answer :=
  s.inWalk
    (fixedField s.params name lo hi ((Instr.fldSigned name lo hi).wf && widthOk s.params lo hi) (signedValue lo hi))

/-- FLD.BITMASK (rules R200 to R202). -/
def execFldBitmask (name : String) (reg : MaskReg) (bit : Nat) (rangeBottom rangeTop : Int) (units sensor : String)
    (s : State) : Answer :=
  s.inWalk
    (ringField s.params name reg bit
      { sensor := sensor, rangeBottom := rangeBottom, rangeTop := rangeTop, units := units, values := [] })

/-- FLD.UNKNOWN, type codes `0x06` and `0x07` (rule R203). -/
def execFldUnknown06 (name : String) (code : BitVec 8) (lo hi : Nat) (s : State) : Answer :=
  s.inWalk (unknownField s.params name code (Instr.fldUnknown06 name code lo hi).wf)

/-- FLD.UNKNOWN, type codes `0x08` to `0x0F` (rule R203). -/
def execFldUnknown08 (name : String) (code : BitVec 8) (lo hi : Nat) (s : State) : Answer :=
  s.inWalk (unknownField s.params name code (Instr.fldUnknown08 name code lo hi).wf)

/-- FLD.UNKNOWN, type codes `0x10` to `0x1F` (rule R203). -/
def execFldUnknown10 (name : String) (code : BitVec 8) (lo hi : Nat) (s : State) : Answer :=
  s.inWalk (unknownField s.params name code (Instr.fldUnknown10 name code lo hi).wf)

/-- FLD.UNKNOWN, type codes `0x20` to `0x3F` (rule R203). -/
def execFldUnknown20 (name : String) (code : BitVec 8) (lo hi : Nat) (s : State) : Answer :=
  s.inWalk (unknownField s.params name code (Instr.fldUnknown20 name code lo hi).wf)

/-- FLD.UNKNOWN, type codes `0x40` to `0x7F` (rule R203). -/
def execFldUnknown40 (name : String) (code : BitVec 8) (lo hi : Nat) (s : State) : Answer :=
  s.inWalk (unknownField s.params name code (Instr.fldUnknown40 name code lo hi).wf)

/-- FLD.UNKNOWN, type codes `0x80` to `0xFF` (rule R203). -/
def execFldUnknown80 (name : String) (code : BitVec 8) (lo hi : Nat) (s : State) : Answer :=
  s.inWalk (unknownField s.params name code (Instr.fldUnknown80 name code lo hi).wf)

end Sys2Proof.Machine
end

