-- ==== Sys2Proof/Machine/Loader.lean ====
section
/-! DEFINITION. The table check of the loader, W1 to W8 (30_encoding.md rule R108), and the load itself
(70_reset_and_hazards.md rules R302, R303; 20_memory.md rule R80). -/

namespace Sys2Proof

open Machine

/-- A descriptor is of type FLD.BITMASK. -/
def Descriptor.isBitmask (d : Descriptor) : Bool := d.code == 0x04

/-- A descriptor's type is recognised. -/
def Descriptor.isKnown (d : Descriptor) : Bool := decide (d.code.toNat < 6)

/-- W2: `from <= to` for a fixed-offset type. -/
def Descriptor.w2 (d : Descriptor) : Bool := !d.isKnown || d.isBitmask || decide (d.lo ≤ d.hi)

/-- W3: `from < to` and the width bound for FLD.NUM (and FLD.HEX), FLD.SIGNED and FLD.PREDEF. -/
def Descriptor.w3 (p : Params) (d : Descriptor) : Bool :=
  !(d.code == 0x00 || d.code == 0x05 || d.code == 0x03) || (decide (d.lo < d.hi) && widthOk p d.lo d.hi)

/-- W6: the mask register and the bit of FLD.BITMASK. -/
def Descriptor.w6 (p : Params) (d : Descriptor) : Bool :=
  !d.isBitmask || ((d.reg == 1 || d.reg == 2) && decide (d.bit < p.maskWidth))

/-- W8, and that `values` is a finite map, for FLD.PREDEF. -/
def Descriptor.w8 (d : Descriptor) : Bool :=
  !(d.code == 0x03) || (pmaskFits d.lo d.hi d.pmask && distinctKeys d.values)

/-- The conditions on one entry: W1, W4, W5 and those on its descriptors. -/
def Entry.wf (p : Params) (e : Entry) : Bool :=
  decide (e.fields.map Descriptor.name).Nodup &&
    e.fields.all fun d =>
      d.w2 && d.w3 p && (d.isBitmask == requiresMask p e) && d.w6 p && d.w8

/-- The conditions on a table: each entry is well formed and stored under its own key (W7), and each map has distinct
keys. -/
def Table.wf (p : Params) (t : Table) : Bool :=
  distinctKeys t.resp && distinctKeys t.async &&
    t.resp.all (fun (k, e) => e.key == Key.resp k.1 k.2 && e.wf p) &&
      t.async.all (fun (k, e) => e.key == Key.async k && e.wf p)

end Sys2Proof

namespace Sys2Proof.Machine

/-- The host loads `TABLE`, before its first use only; a table that fails the check is refused. -/
def State.loadTable (s : State) (t : Table) : Answer :=
  if s.tableUsed then .refused .tableInUse
  else if t.wf s.params then .next { s with table := t }
  else .refused .tableIllFormed

end Sys2Proof.Machine
end

