-- ==== Sys2Proof/Machine/RecordDecode.lean ====
section
/-! DEFINITION. DECODE_RECORD, which runs the descriptors of a Parser Entry over a Frame's payload in one transaction
(44_record_decode.md), and DECODE, the composition of INGEST and DECODE_RECORD (42_frame_assembler.md rule R176). -/

namespace Sys2Proof.Machine

/-- The Field Codec's dispatch: the descriptor types, and nothing else, are its instructions (rule R190). -/
def execField (i : Instr) (s : State) : Answer :=
  match i with
  | .fldNum n lo hi => execFldNum n lo hi s
  | .fldHex n lo hi => execFldHex n lo hi s
  | .fldText n lo hi e => execFldText n lo hi e s
  | .fldRaw n lo hi => execFldRaw n lo hi s
  | .fldPredef n lo hi pm vs => execFldPredef n lo hi pm vs s
  | .fldBitmask n r b rb rt u se => execFldBitmask n r b rb rt u se s
  | .fldSigned n lo hi => execFldSigned n lo hi s
  | .fldUnknown06 n c lo hi => execFldUnknown06 n c lo hi s
  | .fldUnknown08 n c lo hi => execFldUnknown08 n c lo hi s
  | .fldUnknown10 n c lo hi => execFldUnknown10 n c lo hi s
  | .fldUnknown20 n c lo hi => execFldUnknown20 n c lo hi s
  | .fldUnknown40 n c lo hi => execFldUnknown40 n c lo hi s
  | .fldUnknown80 n c lo hi => execFldUnknown80 n c lo hi s
  | .reset => .refused .noWalk
  | .checksum _ => .refused .noWalk
  | .verify _ _ => .refused .noWalk
  | .headerKind _ => .refused .noWalk
  | .declaredLength _ => .refused .noWalk
  | .frameDecode _ => .refused .noWalk
  | .ingest _ => .refused .noWalk
  | .decodeRecord _ _ _ _ => .refused .noWalk
  | .decode _ _ _ _ => .refused .noWalk
  | .buildFrame _ _ _ _ => .refused .noWalk
  | .frameResponse _ _ _ _ _ => .refused .noWalk
  | .frameAsync _ _ _ _ => .refused .noWalk
  | .frameCommand _ _ _ _ => .refused .noWalk

/-- One field step of a walk in progress: fetch the descriptor at `FI` and run it; at the end of the list, what
`Walk.settle` says (rules R228, R232, R236). -/
def fieldStep (w : Walk) (s : State) : Answer :=
  match w.fetch with
  | none => .next (s.progress (w.settle s.params))
  | some (.error e) => .refused (.undecodable e)
  | some (.ok i) => execField i s

/-- Field steps until the walk ends. `fuel` bounds their number; a walk past the guards never exhausts the bound that
DECODE_RECORD gives it (rules R238, R321). -/
def runWalk : Nat → State → Answer
  | 0, s =>
    match s.walk with
    | none => .next s
    | some _ => .refused .walkUnfinished
  | fuel + 1, s =>
    match s.walk with
    | none => .next s
    | some w =>
      match fieldStep w s with
      | .next t => runWalk fuel t
      | .fault f => .fault f
      | .refused r => .refused r

/-- The bound of rule R238: `len(PAY) + 1` cycles over the field list. -/
def walkFuel (w : Walk) : Nat := (w.payload.length + 1) * w.entry.fields.length

/-- The registers at the start of a walk (rules R37, R38, R40, R45): `FI = 0`, `CUR = 0`, `REC` empty, the masks latched. -/
def Walk.start (f : Frame) (e : Entry) (mask1 mask2 : Option Nat) : Walk :=
  { frame := f, entry := e, mask1 := mask1, mask2 := mask2, fi := 0, cur := 0, fields := [], notes := [] }

/-- Start a walk and run it to its end. An entry with no fields ends at once (rule R228). -/
def State.walkEntry (s : State) (f : Frame) (e : Entry) (mask1 mask2 : Option Nat) : Answer :=
  let w := Walk.start f e mask1 mask2
  runWalk (walkFuel w) (s.progress (w.settle s.params))

/-- DECODE_RECORD (rules R220 to R240), with its tests in the order of rule R272. -/
def execDecodeRecord (f : Frame) (key : Option RespKey) (mask1 mask2 : Option Nat) (s : State) : Answer :=
  if s.table.wf s.params = false then .refused .tableIllFormed
  else if f.valid = false then .refused .notAFrame
  else if (maskFits s.params mask1 && maskFits s.params mask2) = false then .refused .maskTooWide
  else
    let s0 : State := { s with tableUsed := true, walk := none }
    if f.payload = [] then .next (s0.respond (.raw f .emptyPayload))
    else
      match s.table.lookup f key with
      | none => .next (s0.respond (.raw f .noEntry))
      | some e =>
        if requiresMask s.params e then
          match mask1, mask2 with
          | some m1, some m2 =>
            if e.fields.any (Descriptor.active m1 m2) then s0.walkEntry f e mask1 mask2
            else .next (s0.respond (.raw f .noActiveField))
          | _, _ => .next (s0.respond (.raw f .missingStreamingContext))
        else s0.walkEntry f e mask1 mask2

/-- DECODE (rule R176): INGEST, then DECODE_RECORD on the Frame if there is one. -/
def execDecode (chunk : ByteSeq) (key : Option RespKey) (mask1 mask2 : Option Nat) (s : State) : Answer :=
  if (maskFits s.params mask1 && maskFits s.params mask2) = false then .refused .maskTooWide
  else
    match s.ingest chunk with
    | .error r => .refused r
    | .ok (.none c, t) => .next (t.respond (.nothing c))
    | .ok (.mismatch computed claimed, t) => .next (t.raiseMismatch computed claimed)
    | .ok (.frame f, t) => execDecodeRecord f key mask1 mask2 t

end Sys2Proof.Machine
end

