-- ==== Sys2Proof/Machine/Dispatch.lean ====
section
/-! DEFINITION. One arm for each constructor of Instr: its meaning. -/

namespace Sys2Proof.Machine

def exec (i : Instr) (s : State) : Host.Outcome State Fault Refusal :=
  match i with
  -- transactions
  | .reset => Sys2Proof.Machine.execReset s
  | .checksum b => Sys2Proof.Machine.execChecksum b s
  | .verify b c => Sys2Proof.Machine.execVerify b c s
  | .headerKind b => Sys2Proof.Machine.execHeaderKind b s
  | .declaredLength b => Sys2Proof.Machine.execDeclaredLength b s
  | .frameDecode b => Sys2Proof.Machine.execFrameDecode b s
  | .ingest chunk => Sys2Proof.Machine.execIngest chunk s
  | .decodeRecord f key m1 m2 => Sys2Proof.Machine.execDecodeRecord f key m1 m2 s
  | .decode chunk key m1 m2 => Sys2Proof.Machine.execDecode chunk key m1 m2 s
  | .buildFrame did cid sq p => Sys2Proof.Machine.execBuildFrame did cid sq p s
  -- frame formats
  | .frameResponse rc sq l p c => Sys2Proof.Machine.execFrameResponse rc sq l p c s
  | .frameAsync ev l p c => Sys2Proof.Machine.execFrameAsync ev l p c s
  | .frameCommand did cid sq p => Sys2Proof.Machine.execFrameCommand did cid sq p s
  -- descriptor types
  | .fldNum n lo hi => Sys2Proof.Machine.execFldNum n lo hi s
  | .fldHex n lo hi => Sys2Proof.Machine.execFldHex n lo hi s
  | .fldText n lo hi enc => Sys2Proof.Machine.execFldText n lo hi enc s
  | .fldRaw n lo hi => Sys2Proof.Machine.execFldRaw n lo hi s
  | .fldPredef n lo hi pm vs => Sys2Proof.Machine.execFldPredef n lo hi pm vs s
  | .fldBitmask n r b rb rt u se => Sys2Proof.Machine.execFldBitmask n r b rb rt u se s
  | .fldSigned n lo hi => Sys2Proof.Machine.execFldSigned n lo hi s
  | .fldUnknown06 n c lo hi => Sys2Proof.Machine.execFldUnknown06 n c lo hi s
  | .fldUnknown08 n c lo hi => Sys2Proof.Machine.execFldUnknown08 n c lo hi s
  | .fldUnknown10 n c lo hi => Sys2Proof.Machine.execFldUnknown10 n c lo hi s
  | .fldUnknown20 n c lo hi => Sys2Proof.Machine.execFldUnknown20 n c lo hi s
  | .fldUnknown40 n c lo hi => Sys2Proof.Machine.execFldUnknown40 n c lo hi s
  | .fldUnknown80 n c lo hi => Sys2Proof.Machine.execFldUnknown80 n c lo hi s

end Sys2Proof.Machine
end

