-- ==== Sys2Proof/Machine/Step.lean ====
section
/-! DEFINITION. One step of the machine (20_memory.md rules R75, R76). Between transactions it takes the host's oldest
request, decodes it and runs it whole; a state with a walk in progress is a point inside DECODE_RECORD, and there it runs
the descriptor at `FI`. With nothing to do it stays as it is. -/

namespace Sys2Proof.Machine

/-- The step on a walk in progress: the descriptor at `FI` (rules R37, R284). -/
def stepWalk (w : Walk) (s : State) : Answer :=
  match w.fetch with
  | none => .next (s.progress (w.settle s.params))
  | some (.error e) => .refused (.undecodable e)
  | some (.ok i) => exec i s

/-- The step on the host's oldest request; the request leaves the port. -/
def stepRequest (r : HostRequest) (s : State) : Answer :=
  match r with
  | .loadTable t => s.loadTable t
  | .issue c =>
    match decode c with
    | .error e => .refused (.undecodable e)
    | .ok i => exec i s

/-- One step. -/
def step (s : State) : Host.Outcome State Fault Refusal :=
  match s.walk with
  | some w => stepWalk w s
  | none =>
    match s.port with
    | [] => .next s
    | r :: rest => stepRequest r { s with port := rest }

/-- A walk that stands at a given descriptor: a Frame with two payload bytes 0 and an entry with that one field, in the
walk mode its type belongs to, bit 0 of `MASK1` set. -/
def sampleWalk (p : Params) (d : Descriptor) : Walk :=
  if d.code = 0x04 then
    Walk.start (.async p.streamEventId 3 [0, 0] (checksum [p.streamEventId, 0, 3, 0, 0]))
      { desc := "", key := .async p.streamEventId, fields := [d] } (some 1) (some 0)
  else
    Walk.start (.response 0 0 3 [0, 0] (checksum [0, 0, 3, 0, 0])) { desc := "", key := .resp 0 0, fields := [d] } none
      none

/-- The state whose next step fetches and runs the instruction of an opcode-table word: a transaction or a frame stands
first at the port; a descriptor stands at `FI` of a walk in progress (assumption log entry 12). -/
def State.withFetchWord (s : State) (nbits w : Nat) : State :=
  match tableCode nbits w with
  | some (.fdesc d) => { s with walk := some (sampleWalk s.params d) }
  | some c => { s with walk := none, port := .issue c :: s.port }
  | none => { s with walk := none, port := .issue (.xact 0xF {}) :: s.port }

end Sys2Proof.Machine
end

