-- ==== Sys2Proof/Machine/Flags.lean ====
section
/-! DEFINITION. SMFA has no status flag, condition code or sticky error bit (10_state.md rule R41). What stands in
their place is the code each outcome has at a status port (60_exceptions.md rule R269), a function of the reply. -/

namespace Sys2Proof.Machine

/-- Status code of a silent outcome of INGEST or DECODE (rule R269). -/
def NoneCause.statusCode : NoneCause → BitVec 8
  | .pending => 0x01
  | .garbage => 0x02
  | .zeroLength => 0x03

/-- Status code of a raw pass-through (rule R269). -/
def RawReason.statusCode : RawReason → BitVec 8
  | .emptyPayload => 0x08
  | .noEntry => 0x09
  | .missingStreamingContext => 0x0A
  | .noActiveField => 0x0B

/-- Status code of a result; `none` for the kinds of result rule R269 has no row for. DESIGN CHOICE (assumption log entry
19): an outcome has the code of its row whichever transaction returns it. R269 names INGEST, DECODE and DECODE_RECORD for
`0x00`; a Frame returned by FRAME_DECODE, FRAME.RESPONSE or FRAME.ASYNC has `0x00` here too. -/
def Result.statusCode : Result → Option (BitVec 8)
  | .none => Option.none
  | .byte _ => Option.none
  | .bool _ => Option.none
  | .kind _ => Option.none
  | .length _ => Option.none
  | .frame _ => some 0x00
  | .checksumMismatch _ _ => some 0x04
  | .noFrame c => some c.statusCode
  | .nothing c => some c.statusCode
  | .record _ => some 0x00
  | .raw _ r => some r.statusCode
  | .bytes _ => Option.none

/-- Status code of a notification (rule R269), whichever transaction raises it (assumption log entry 19). -/
def Notification.statusCode : Notification → BitVec 8
  | .checksumMismatch _ _ => 0x04
  | .unparseableField _ (.unknownType _) => 0x05
  | .unparseableField _ .outOfRange => 0x06

/-- The status port: the code of the last result, and the codes of its notifications in order. -/
def State.status (s : State) : Option (BitVec 8) × List (BitVec 8) :=
  match s.reply with
  | none => (Option.none, [])
  | some r => (r.result.statusCode, r.notes.map Notification.statusCode)

end Sys2Proof.Machine
end

