-- ==== Sys2Proof/Safety.lean ====
section
/-! DEFINITION. What every state between or inside transactions is supposed to satisfy, in the terms the claims use. -/

namespace Sys2Proof.Machine

/-- The registers of a walk in progress: the entry is well formed and the Frame real; `FI` is below the number of
fields; `CUR` is even and inside the payload, and 0 in fixed-offset mode (rules R37, R38); `REC` has names of the entry
only; the masks fit `MASK_W`; and in mask-driven mode both masks are present, some field is active, every value is a
sample list and nothing has been notified (rules R224, R237, R200, R235). -/
def Walk.Inv (p : Params) (w : Walk) : Prop :=
  w.entry.wf p = true ∧ w.frame.valid = true ∧ w.fi < w.entry.fields.length ∧
    w.cur ≤ w.payload.length ∧ w.cur % 2 = 0 ∧
    (∀ x ∈ w.fields, x.1 ∈ w.entry.fields.map Descriptor.name) ∧
    maskFits p w.mask1 = true ∧ maskFits p w.mask2 = true ∧
    (requiresMask p w.entry = false → w.cur = 0) ∧
    (requiresMask p w.entry = true →
      (∃ m1 m2, w.mask1 = some m1 ∧ w.mask2 = some m2 ∧ w.entry.fields.any (Descriptor.active m1 m2) = true) ∧
        (∀ x ∈ w.fields, ∃ l, x.2 = .samples l) ∧ w.notes = [])

/-- A Frame in a result is a Frame of the spec: "A Frame value exists only if its checksum verified" (rule R140). -/
def Result.framesValid : Result → Prop
  | .frame f => f.valid = true
  | .record r => r.frame.valid = true
  | .raw f _ => f.valid = true
  | .none => True
  | .byte _ => True
  | .bool _ => True
  | .kind _ => True
  | .length _ => True
  | .checksumMismatch _ _ => True
  | .noFrame _ => True
  | .nothing _ => True
  | .bytes _ => True

/-- The invariant of the machine: the table is well formed (rule R108), `PARTIAL` is within its capacity (rule R32), the
registers of a walk in progress are legal, and every Frame the host was given is real. -/
def State.Inv (s : State) : Prop :=
  s.table.wf s.params = true ∧ Memory.wf s.params s.partialBuf = true ∧
    (∀ w, s.walk = some w → w.Inv s.params) ∧ (∀ r, s.reply = some r → r.result.framesValid)

/-- A state between transactions: the transaction-local registers do not exist (rule R45). -/
def State.Idle (s : State) : Prop := s.walk = none

end Sys2Proof.Machine
end

