-- ==== Sys2Proof/Certificates/Slice0/Obligations.lean ====
section
/-! DEFINITION. The statements about the model. Each formalises what the cited rules of spec/ say, over every state and
every choice of the open parameters. A statement that gives the whole next state as an update of the state before
says that every register, the configuration, the port and every byte of `PARTIAL` not named in the update is unchanged. -/

namespace Sys2Proof.Claims

open Sys2Proof Sys2Proof.Machine

/-- The sum of a byte sequence over the natural numbers. -/
def total (b : ByteSeq) : Nat := (b.map BitVec.toNat).sum

/-- The checksum byte of a sequence, as a number. -/
def ones (b : ByteSeq) : Nat := 255 - total b % 256

/-- The state before, with a result on the result channel and notifications raised with it. -/
def replied (s : State) (r : Result) (notes : List Notification) : State :=
  { s with reply := some { result := r, notes := notes } }

/-- The state before, with a new `PARTIAL` and a result. -/
def ingested (s : State) (p : ByteSeq) (r : Result) (notes : List Notification) : State :=
  { s with partialBuf := p, reply := some { result := r, notes := notes } }

/-- A length meets an optional bound. -/
def meets (bound : Option Nat) (n : Nat) : Prop := ∀ k, bound = some k → n ≤ k

/-- A chunk the instance accepts, and a new `PARTIAL` it has room for. -/
def room (s : State) (chunk new : ByteSeq) : Prop :=
  meets s.params.chunkMax chunk.length ∧ meets s.params.partialCap new.length

/-- The bytes summed of a Frame: offsets 2, 3, 4 and the payload (rule R133). -/
def summed (f : Frame) : ByteSeq := f.header3 ++ f.payload

/-- The checksum field of a Frame agrees with the bytes summed. -/
def verifies (f : Frame) : Prop := f.claimed.toNat = ones (summed f)

/-- The length field of a Frame counts its payload and the checksum byte (rule R94). -/
def shaped (f : Frame) : Prop := f.payload.length + 1 = f.length

/-- A valid SOP pair at the front (rule R145). -/
def startsFrame (b : ByteSeq) : Prop := ∃ rest, b = 0xFF :: 0xFF :: rest ∨ b = 0xFF :: 0xFE :: rest

/-- The length in bytes of the frame whose header stands at the front of a buffer (rules R98, R143, R144). -/
def sizeIs (b : ByteSeq) (n : Nat) : Prop :=
  ∃ x y z rest,
    (b = 0xFF :: 0xFF :: x :: y :: z :: rest ∧ n = 5 + z.toNat) ∨
      (b = 0xFF :: 0xFE :: x :: y :: z :: rest ∧ n = 5 + (y.toNat * 256 + z.toNat))

/-- "A complete, structurally valid frame" at the front of a buffer (rule R146). -/
def holdsFrame (b : ByteSeq) : Prop := 6 ≤ b.length ∧ ∃ n, sizeIs b n ∧ n ≤ b.length

/-- INGESTs of a list of chunks, one after another: the replies in order and the last state; `none` when one does not
complete (rule R76). -/
def feed : State → List ByteSeq → Option (List Reply × State)
  | s, [] => some ([], s)
  | s, c :: cs =>
    match exec (.ingest c) s with
    | .next t => (feed t cs).map fun (rs, u) => (t.reply.toList ++ rs, u)
    | .fault _ => none
    | .refused _ => none

/-- The reply of an INGEST that returned a Frame. -/
def gotFrame (f : Frame) : Reply := { result := .frame f, notes := [] }

/-- The reply of an INGEST that is waiting. -/
def waiting : Reply := { result := .noFrame .pending, notes := [] }

/-- An update of the next state, when there is one. -/
def onNext (g : State → State) : Answer → Answer
  | .next t => .next (g t)
  | .fault f => .fault f
  | .refused r => .refused r

/-- The state in which a DECODE_RECORD ends: no walk, `TABLE` used, the reply. -/
def decoded (s : State) (r : Result) (notes : List Notification) : State :=
  { s with tableUsed := true, walk := none, reply := some { result := r, notes := notes } }

/-- The operands and the configuration DECODE_RECORD needs: a well-formed table, a Frame, masks of `MASK_W` bits. -/
def recordable (s : State) (f : Frame) (m1 m2 : Option Nat) : Prop :=
  s.table.wf s.params = true ∧ f.valid = true ∧
    (∀ m, m1 = some m → m < 2 ^ s.params.maskWidth) ∧ (∀ m, m2 = some m → m < 2 ^ s.params.maskWidth)

/-- W1 to W6 and W8 of rule R108 on one entry. -/
def entryOk (p : Params) (e : Entry) : Prop :=
  (e.fields.map Descriptor.name).Nodup ∧
    ∀ d ∈ e.fields,
      (d.code.toNat < 6 → d.code ≠ 0x04 → d.lo ≤ d.hi) ∧
        (d.code = 0x00 ∨ d.code = 0x03 ∨ d.code = 0x05 → d.lo < d.hi ∧ meets p.maxWidth (d.hi - d.lo)) ∧
        (d.code = 0x04 ↔ e.key = .async p.streamEventId) ∧
        (d.code = 0x04 → (d.reg = 1 ∨ d.reg = 2) ∧ d.bit < p.maskWidth) ∧
        (d.code = 0x03 →
          (∀ m, d.pmask = some m → m < 2 ^ (8 * (d.hi - d.lo))) ∧ (d.values.map Prod.fst).Nodup)

/-- The entry requires an active-sensor mask (rule R109). -/
def streaming (s : State) (e : Entry) : Prop := e.key = .async s.params.streamEventId

/-- The bytes `from .. to` of a payload. -/
def slice (pay : ByteSeq) (lo hi : Nat) : ByteSeq := (pay.drop lo).take (hi - lo)

/-- The state after a field step in fixed-offset mode that stores `v` under `name` and raises `notes`: `FI` advances by
1, and at the end of the list the Record is the result and the walk is over (rules R228 to R230). -/
def afterFixed (s : State) (w : Walk) (name : String) (v : Value) (notes : List Notification) : State :=
  if w.fi + 1 < w.entry.fields.length then
    { s with
      walk :=
        some { w with fi := w.fi + 1, fields := putField name v w.fields, notes := w.notes ++ notes } }
  else
    { s with
      walk := none
      reply :=
        some
          { result :=
              .record
                { desc := w.entry.desc, key := w.entry.key, event := w.entry.event,
                  fields := putField name v w.fields, frame := w.frame, residual := 0 }
            notes := w.notes ++ notes } }

/-- The Record of a mask-driven walk that ends with a running record and a cursor (rules R221, R232). -/
def ringReply (w : Walk) (fields : FieldMap) (cur : Nat) : Reply :=
  { result :=
      .record
        { desc := w.entry.desc, key := w.entry.key, event := w.entry.event, fields := fields, frame := w.frame,
          residual := w.frame.payload.length - cur }
    notes := w.notes }

/-- The state after a field step in mask-driven mode: `FI` advances by 1; at the end of the list it goes back to 0
while payload remains, and otherwise the Record is the result and the walk is over (rules R232, R236). -/
def afterRing (s : State) (w : Walk) (fields : FieldMap) (cur : Nat) : State :=
  if w.fi + 1 < w.entry.fields.length then
    { s with walk := some { w with fi := w.fi + 1, fields := fields, cur := cur } }
  else if cur < w.frame.payload.length then
    { s with walk := some { w with fi := 0, fields := fields, cur := cur } }
  else { s with walk := none, reply := some (ringReply w fields cur) }

/-- A walk in fixed-offset mode is in progress. -/
def inFixed (s : State) (w : Walk) : Prop := s.walk = some w ∧ ¬ streaming s w.entry

/-- A walk in mask-driven mode is in progress. -/
def inRing (s : State) (w : Walk) : Prop := s.walk = some w ∧ streaming s w.entry

/-- The value of a descriptor over a payload in fixed-offset mode, by its type code (rules R104, R229). -/
def fixedValueOf (d : Descriptor) (pay : ByteSeq) : Value :=
  if 6 ≤ d.code.toNat then .fieldError (.unparseable d.code)
  else if pay.length < d.hi then .fieldError .outOfRange
  else
    let b := slice pay d.lo d.hi
    if d.code = 0x00 then
      match d.format with
      | .none => .num (be b)
      | .hex => hexValue b
    else if d.code = 0x01 then textValue d.encoding b
    else if d.code = 0x02 then .raw b
    else if d.code = 0x03 then predefValue d.pmask d.values b
    else signedValue d.lo d.hi b

/-- The notification a descriptor raises in fixed-offset mode, if any (rules R203, R231, R273). -/
def fixedNoteOf (d : Descriptor) (pay : ByteSeq) : Option Notification :=
  if 6 ≤ d.code.toNat then some (.unparseableField d.name (.unknownType d.code))
  else if pay.length < d.hi then some (.unparseableField d.name .outOfRange)
  else none

/-- Sample number `q` of a mask-driven payload, as the descriptor converts it (rules R201, R234). -/
def sampleAt (d : Descriptor) (pay : ByteSeq) (q : Nat) : Int :=
  let raw : Int := be ((pay.drop (2 * q)).take 2)
  if raw > d.rangeTop then raw - 65536 else raw

/-- The sample list of a descriptor (rules R191, R202). -/
def samplesOf (d : Descriptor) (values : List Int) : Value :=
  .samples
    { sensor := d.sensor, rangeBottom := d.rangeBottom, rangeTop := d.rangeTop, units := d.units, values := values }

/-- A digit of the hexadecimal rendering, as a number. -/
def hexDigitValue (c : Char) : Option Nat := ("0123456789ABCDEF".toList).findIdx? (· == c)

/-- A numeral in base 16, most significant digit first, denotes `n`. -/
def denotes : List Char → Nat → Prop
  | ds, n => ∃ vs : List Nat, ds.map hexDigitValue = vs.map some ∧ n = vs.foldl (fun a v => a * 16 + v) 0

/-- The transactions that write `PARTIAL` (rule R32). -/
def writesPartial : Instr → Prop
  | .reset => True
  | .ingest _ => True
  | .decode _ _ _ _ => True
  | _ => False

end Sys2Proof.Claims

open Sys2Proof Sys2Proof.Machine Sys2Proof.Claims

/-! ## Checksum Unit -/

/-- Rule R130: select code 1 is CHECKSUM; of any byte sequence it is `255 - (sum mod 256)`; nothing but the result
changes. -/
def Obligations.ChecksumIsOnesComplementOfSum : Prop :=
  (∀ o : Operands, decode (.xact 0x1 o) = .ok (.checksum o.bytes)) ∧
  ∀ (b : ByteSeq) (s : State), ∃ c : Byte,
    exec (.checksum b) s = .next (replied s (.byte c) []) ∧ c.toNat = 255 - total b % 256

/-- Rule R131: select code 2 is VERIFY; it answers whether CHECKSUM gives the claimed byte, and raises nothing. -/
def Obligations.VerifyComparesWithChecksum : Prop :=
  (∀ o : Operands, decode (.xact 0x2 o) = .ok (.verify o.bytes o.byte)) ∧
  ∀ (b : ByteSeq) (c : Byte) (s : State), ∃ v : Bool,
    exec (.verify b c) s = .next (replied s (.bool v) []) ∧ (v = true ↔ c.toNat = ones b)

/-- Rule R132 (a) to (e): the complement of the low 8 bits of the sum; sum and checksum make 255; the order of the
bytes does not matter; one changed byte changes the result; two changes whose sum is 0 modulo 256 cancel. The laws are
the derivation rule R132 marks as its own, from rule R130. -/
def Obligations.ChecksumArithmeticLaws : Prop :=
  (∀ b s, exec (.checksum b) s = .next (replied s (.byte (BitVec.ofNat 8 (total b) ^^^ 0xFF#8)) [])) ∧
  (∀ b s c, exec (.checksum b) s = .next (replied s (.byte c) []) → (total b + c.toNat) % 256 = 255) ∧
  (∀ b b' s, b.Perm b' → exec (.checksum b) s = exec (.checksum b') s) ∧
  (∀ (l r : ByteSeq) (x y : Byte) (s : State), x ≠ y →
    exec (.checksum (l ++ x :: r)) s ≠ exec (.checksum (l ++ y :: r)) s) ∧
  (∀ (l m r : ByteSeq) (x y x' y' : Byte) (s : State),
    (x.toNat + y.toNat) % 256 = (x'.toNat + y'.toNat) % 256 →
      exec (.checksum (l ++ x :: m ++ y :: r)) s = exec (.checksum (l ++ x' :: m ++ y' :: r)) s)

/-! ## Frame Decoder -/

/-- Rule R142: select code 3 is HEADER_KIND; it looks at offset 1 only; fewer than 2 bytes are refused. -/
def Obligations.HeaderKindReadsOffsetOne : Prop :=
  (∀ o : Operands, decode (.xact 0x3 o) = .ok (.headerKind o.bytes)) ∧
  ∀ s : State,
    (∀ b0 r, exec (.headerKind (b0 :: 0xFF :: r)) s = .next (replied s (.kind .response) [])) ∧
    (∀ b0 r, exec (.headerKind (b0 :: 0xFE :: r)) s = .next (replied s (.kind .async) [])) ∧
    (∀ b0 b1 r, b1 ≠ 0xFF → b1 ≠ 0xFE →
      exec (.headerKind (b0 :: b1 :: r)) s = .next (replied s (.kind .invalid) [])) ∧
    (∀ b, b.length < 2 → exec (.headerKind b) s = .refused .headerTooShort)

/-- Rule R143: select code 4 is DECLARED_LENGTH; the response kind reads one length byte at offset 4, the async kind
16 bits big-endian at offsets 3 and 4; fewer than 5 bytes or an invalid kind are refused. -/
def Obligations.DeclaredLengthByKind : Prop :=
  (∀ o : Operands, decode (.xact 0x4 o) = .ok (.declaredLength o.bytes)) ∧
  ∀ s : State,
    (∀ b0 b2 b3 b4 r,
      exec (.declaredLength (b0 :: 0xFF :: b2 :: b3 :: b4 :: r)) s = .next (replied s (.length b4.toNat) [])) ∧
    (∀ b0 b2 b3 b4 r,
      exec (.declaredLength (b0 :: 0xFE :: b2 :: b3 :: b4 :: r)) s =
        .next (replied s (.length (b3.toNat * 256 + b4.toNat)) [])) ∧
    (∀ b0 b1 r, b1 ≠ 0xFF → b1 ≠ 0xFE →
      exec (.declaredLength (b0 :: b1 :: r)) s = .refused .lengthUndefined) ∧
    (∀ b, b.length < 5 → exec (.declaredLength b) s = .refused .lengthUndefined)

/-- Rules R147, R148, R149: select code 5 is FRAME_DECODE; on the bytes of a frame followed by anything, FRAME_DECODE
returns the Frame with every field as sent exactly when the checksum over offsets 2 to the end of the payload is the
claimed byte, and otherwise raises ChecksumMismatch with the computed and the claimed byte; `PARTIAL` is not
touched. -/
def Obligations.FrameDecodeReadsOneFrame : Prop :=
  (∀ o : Operands, decode (.xact 0x5 o) = .ok (.frameDecode o.bytes)) ∧
  ∀ (f : Frame) (t : ByteSeq) (s : State), shaped f →
    (verifies f → exec (.frameDecode (f.bytes ++ t)) s = .next (replied s (.frame f) [])) ∧
    (¬ verifies f → ∃ c : Byte, c.toNat = ones (summed f) ∧
      exec (.frameDecode (f.bytes ++ t)) s =
        .next (replied s (.checksumMismatch c f.claimed) [.checksumMismatch c f.claimed]))

/-- Rule R150: a buffer that does not begin with all the bytes of a frame of declared length at least 1 is refused.
The spec's own choice: D28 of 92_eei_decisions.md. -/
def Obligations.FrameDecodeRefusedOutsideDomain : Prop :=
  ∀ (b : ByteSeq) (s : State), (¬ holdsFrame b ∨ sizeIs b 5) →
    exec (.frameDecode b) s = .refused .frameNotDecodable

/-- Rules R92, R93, R95, R146: a buffer is complete with a declared length of at least 1 exactly when it begins with
the bytes of a frame in one of the two inbound formats. That a declared length of 0 is no frame is the spec's own
derivation (R95). -/
def Obligations.CompleteBuffersAreFrameBytes : Prop :=
  ∀ b : ByteSeq,
    (complete b = true ↔ holdsFrame b) ∧
    ((holdsFrame b ∧ ¬ sizeIs b 5) ↔ ∃ f t, shaped f ∧ b = f.bytes ++ t)

/-- Rules R92, R140, R148: FRAME.RESPONSE yields the response Frame of its fields, or ChecksumMismatch; a length field
that does not count the payload and the checksum is no frame. That the row of the table is an instruction with this
result, and refuses what is no frame, is the model's choice (assumption log entry 13). -/
def Obligations.ResponseFormatYieldsItsFrame : Prop :=
  ∀ (rc sq : Byte) (l : BitVec 8) (p : ByteSeq) (c : Byte) (s : State),
    (p.length + 1 = l.toNat → c.toNat = ones ([rc, sq, l] ++ p) →
      exec (.frameResponse rc sq l p c) s = .next (replied s (.frame (.response rc sq l p c)) [])) ∧
    (p.length + 1 = l.toNat → c.toNat ≠ ones ([rc, sq, l] ++ p) → ∃ x : Byte, x.toNat = ones ([rc, sq, l] ++ p) ∧
      exec (.frameResponse rc sq l p c) s =
        .next (replied s (.checksumMismatch x c) [.checksumMismatch x c])) ∧
    (p.length + 1 ≠ l.toNat → exec (.frameResponse rc sq l p c) s = .refused .notAFrame)

/-- Rules R93, R140, R148: FRAME.ASYNC yields the async Frame of its fields, or ChecksumMismatch; the length enters
the sum as its high byte and its low byte. That the row of the table is an instruction with this result, and refuses
what is no frame, is the model's choice (assumption log entry 13). -/
def Obligations.AsyncFormatYieldsItsFrame : Prop :=
  ∀ (ev : Byte) (l : BitVec 16) (p : ByteSeq) (c : Byte) (s : State),
    let body : Nat := (total (ev :: p) + l.toNat / 256 + l.toNat % 256) % 256
    (p.length + 1 = l.toNat → c.toNat + body = 255 →
      exec (.frameAsync ev l p c) s = .next (replied s (.frame (.async ev l p c)) [])) ∧
    (p.length + 1 = l.toNat → c.toNat + body ≠ 255 → ∃ x : Byte, x.toNat + body = 255 ∧
      exec (.frameAsync ev l p c) s =
        .next (replied s (.checksumMismatch x c) [.checksumMismatch x c])) ∧
    (p.length + 1 ≠ l.toNat → exec (.frameAsync ev l p c) s = .refused .notAFrame)

/-- The two inbound formats mean what FRAME_DECODE makes of their bytes, whatever follows them. The choice of
assumption log entry 13, tied to FRAME_DECODE. -/
def Obligations.FrameFormatsAgreeWithFrameDecode : Prop :=
  ∀ (i : Instr) (b t : ByteSeq) (s : State), i.wf = true → encode i = .frameIn b →
    exec (.frameDecode (b ++ t)) s = exec i s

/-! ## Frame Assembler -/

/-- Rule R164: a chunk that is itself a complete frame, with any surplus, is decoded whatever `PARTIAL` holds; the old
contents are lost and the surplus becomes the new `PARTIAL`. Keeping the surplus in step 1 is the spec's own choice:
D4 of 92_eei_decisions.md. -/
def Obligations.FreshFrameWinsOverPartial : Prop :=
  ∀ (f : Frame) (t : ByteSeq) (s : State), shaped f → verifies f → room s (f.bytes ++ t) t →
    exec (.ingest (f.bytes ++ t)) s = .next (ingested s t (.frame f) [])

/-- Rules R165, R167, R168: a chunk that is not complete by itself completes the frame that `PARTIAL` begins; the
bytes after the frame are the new `PARTIAL`. That `PARTIAL` keeps the surplus follows conflict C2 of
90_conflicts.md. -/
def Obligations.AccumulationCompletesFrame : Prop :=
  ∀ (f : Frame) (chunk t : ByteSeq) (s : State), shaped f → verifies f → ¬ holdsFrame chunk →
    s.partialBuf ++ chunk = f.bytes ++ t → room s chunk t →
      exec (.ingest chunk) s = .next (ingested s t (.frame f) [])

/-- Rule R166: an accumulation of at least 2 bytes that does not start with a valid SOP pair is dropped whole,
silently. -/
def Obligations.GarbageIsDroppedSilently : Prop :=
  ∀ (chunk : ByteSeq) (s : State), ¬ holdsFrame chunk → 2 ≤ (s.partialBuf ++ chunk).length →
    ¬ startsFrame (s.partialBuf ++ chunk) → meets s.params.chunkMax chunk.length →
      exec (.ingest chunk) s = .next (ingested s [] (.noFrame .garbage) [])

/-- Rule R170: a fragment is kept and nothing is returned. -/
def Obligations.FragmentIsKept : Prop :=
  ∀ (chunk : ByteSeq) (s : State), ¬ holdsFrame chunk →
    ((s.partialBuf ++ chunk).length < 2 ∨
      (startsFrame (s.partialBuf ++ chunk) ∧ ¬ holdsFrame (s.partialBuf ++ chunk))) →
    room s chunk (s.partialBuf ++ chunk) →
      exec (.ingest chunk) s = .next (ingested s (s.partialBuf ++ chunk) (.noFrame .pending) [])

/-- Rule R169: a checksum failure in step 1 or step 4 clears `PARTIAL`, surplus included, and raises
ChecksumMismatch. That the surplus is dropped too is the spec's own choice: D5 of 92_eei_decisions.md. -/
def Obligations.IngestMismatchClearsPartial : Prop :=
  ∀ (f : Frame) (chunk t : ByteSeq) (s : State), shaped f → ¬ verifies f → meets s.params.chunkMax chunk.length →
    (chunk = f.bytes ++ t ∨ (¬ holdsFrame chunk ∧ s.partialBuf ++ chunk = f.bytes ++ t)) →
      ∃ c : Byte, c.toNat = ones (summed f) ∧
        exec (.ingest chunk) s =
          .next (ingested s [] (.checksumMismatch c f.claimed) [.checksumMismatch c f.claimed])

/-- Rule R171: a complete buffer whose length field reads 0 is discarded silently, in step 1 and in step 4. The spec's
own choice: D3 of 92_eei_decisions.md. -/
def Obligations.ZeroLengthIsDiscarded : Prop :=
  ∀ (chunk : ByteSeq) (s : State), meets s.params.chunkMax chunk.length →
    ((holdsFrame chunk ∧ sizeIs chunk 5) ∨
      (¬ holdsFrame chunk ∧ holdsFrame (s.partialBuf ++ chunk) ∧ sizeIs (s.partialBuf ++ chunk) 5)) →
        exec (.ingest chunk) s = .next (ingested s [] (.noFrame .zeroLength) [])

/-- Rules R160, R34, R66: INGEST is total on an unbounded instance and changes nothing but `PARTIAL`; afterwards
`PARTIAL` is the fragment (at most 65539 bytes, and either shorter than 2 bytes or begun with a SOP pair and not
complete), or the surplus of a Frame, or empty. The bound and the classes are the spec's own derivations (R34,
R66). -/
def Obligations.IngestIsTotalAndClassifiesPartial : Prop :=
  ∀ (chunk : ByteSeq) (s : State), s.params.chunkMax = none → s.params.partialCap = none →
    ∃ (p : ByteSeq) (r : Result) (notes : List Notification),
      exec (.ingest chunk) s = .next (ingested s p r notes) ∧
      ((r = .noFrame .pending ∧ notes = [] ∧ p = s.partialBuf ++ chunk ∧ p.length ≤ 65539 ∧
          (p.length < 2 ∨ (startsFrame p ∧ ¬ holdsFrame p))) ∨
        (r = .noFrame .garbage ∧ notes = [] ∧ p = []) ∨
        (r = .noFrame .zeroLength ∧ notes = [] ∧ p = []) ∨
        (∃ x y, r = .checksumMismatch x y ∧ notes = [.checksumMismatch x y] ∧ x ≠ y ∧ p = []) ∨
        (∃ f, r = .frame f ∧ notes = [] ∧ shaped f ∧ verifies f ∧
          (chunk = f.bytes ++ p ∨ s.partialBuf ++ chunk = f.bytes ++ p)))

/-- Rule R66: a chunk over `CHUNK_MAX` is refused, and so is an INGEST whose new `PARTIAL`, fragment or surplus, would
exceed `PARTIAL_CAP`; nothing is truncated. The spec's own choice: D6 of 92_eei_decisions.md. -/
def Obligations.CapacityOverflowIsRefused : Prop :=
  ∀ (chunk : ByteSeq) (s : State) (k : Nat),
    (s.params.chunkMax = some k → k < chunk.length → exec (.ingest chunk) s = .refused .chunkTooLong) ∧
    (meets s.params.chunkMax chunk.length → s.params.partialCap = some k →
      (∀ f t, shaped f → verifies f → k < t.length →
        (chunk = f.bytes ++ t ∨ (¬ holdsFrame chunk ∧ s.partialBuf ++ chunk = f.bytes ++ t)) →
          exec (.ingest chunk) s = .refused .partialOverflow) ∧
      (¬ holdsFrame chunk → startsFrame (s.partialBuf ++ chunk) → ¬ holdsFrame (s.partialBuf ++ chunk) →
        k < (s.partialBuf ++ chunk).length → exec (.ingest chunk) s = .refused .partialOverflow))

/-- Rule R177, chunk-boundary invariance: from an empty `PARTIAL`, a valid frame fed in any sub-chunks of which none
that starts inside the frame is complete by itself gives `None(Pending)` for every sub-chunk but the last, the Frame
for the last (which is not empty), and an empty `PARTIAL`. The preconditions are those of the derivation R177; the
last sub-chunk is taken to be non-empty (assumption log entry 16). On a bounded instance it is enough that each sub-chunk
is within `CHUNK_MAX` and that the longest fragment kept, all sub-chunks but the last, is within `PARTIAL_CAP`. -/
def Obligations.ChunkBoundariesDoNotMatter : Prop :=
  ∀ (f : Frame) (cs : List ByteSeq) (c : ByteSeq) (s : State), shaped f → verifies f → s.partialBuf = [] →
    cs.flatten ++ c = f.bytes → c ≠ [] →
    (∀ x ∈ cs ++ [c], meets s.params.chunkMax x.length) → meets s.params.partialCap cs.flatten.length →
    (∀ before x after, cs ++ [c] = before ++ x :: after → before.flatten ≠ [] → ¬ holdsFrame x) →
      feed s (cs ++ [c]) =
        some (List.replicate cs.length waiting ++ [gotFrame f], ingested s [] (.frame f) [])

/-- Rules R172, R315: empty chunks drain the frames that stand one after another in `PARTIAL`, one for each chunk, in
order, and the chunk after them answers `None(Pending)`. The spec's own derivation from rule R162 (R172, R315). -/
def Obligations.EmptyChunksDrainTheBacklog : Prop :=
  ∀ (fs : List Frame) (s : State), (∀ f ∈ fs, shaped f ∧ verifies f) →
    s.partialBuf = (fs.map Frame.bytes).flatten → meets s.params.partialCap s.partialBuf.length →
      feed s (List.replicate (fs.length + 1) []) =
        some (fs.map gotFrame ++ [waiting], ingested s [] (.noFrame .pending) [])

/-- Rules R178, R301: select code 0 is RESET; it empties `PARTIAL`, has no result, and touches nothing else, the table
and the parameters included. The spec's own choice: D25 of 92_eei_decisions.md. -/
def Obligations.ResetEmptiesPartialOnly : Prop :=
  (∀ o : Operands, decode (.xact 0x0 o) = .ok .reset) ∧
  ∀ s : State, exec .reset s = .next (ingested s [] .none [])

/-- Rules R45, R300: the state after reset. The table and the parameters of `State.reset` are the model's choice
(assumption log entries 2 and 3) and are not stated here. The empty port and result channel are the model's choice
(assumption log entry 7). -/
def Obligations.ResetStateIsEmpty : Prop :=
  State.reset.partialBuf = [] ∧ State.reset.walk = none ∧ State.reset.port = [] ∧ State.reset.reply = none

/-- Rule R176: DECODE is INGEST, and then DECODE_RECORD of the Frame if there is one, with the key and the masks
passed through; a refusal of the INGEST is a refusal of the DECODE. The spec's own choice: D32 of 92_eei_decisions.md;
that a refusal of a part refuses the whole is the model's (assumption log entry 8). -/
def Obligations.DecodeComposesIngestAndDecodeRecord : Prop :=
  ∀ (chunk : ByteSeq) (key : Option RespKey) (m1 m2 : Option Nat) (s : State),
    (∀ m, m1 = some m → m < 2 ^ s.params.maskWidth) → (∀ m, m2 = some m → m < 2 ^ s.params.maskWidth) →
      (∀ p c, exec (.ingest chunk) s = .next (ingested s p (.noFrame c) []) →
        exec (.decode chunk key m1 m2) s = .next (ingested s p (.nothing c) [])) ∧
      (∀ p x y, exec (.ingest chunk) s = .next (ingested s p (.checksumMismatch x y) [.checksumMismatch x y]) →
        exec (.decode chunk key m1 m2) s =
          .next (ingested s p (.checksumMismatch x y) [.checksumMismatch x y])) ∧
      (∀ p f, exec (.ingest chunk) s = .next (ingested s p (.frame f) []) →
        exec (.decode chunk key m1 m2) s = exec (.decodeRecord f key m1 m2) (ingested s p (.frame f) [])) ∧
      (∀ r, exec (.ingest chunk) s = .refused r → exec (.decode chunk key m1 m2) s = .refused r)

/-- Rules R176, R287: DECODE completes on every chunk, key and mask pair of an unbounded instance with a well-formed
table; it writes `PARTIAL`, the reply, and whether the table was used, and leaves no walk behind. Totality is R287's;
the mark on the table is the model's own (assumption log entry 5). -/
def Obligations.DecodeCompletes : Prop :=
  ∀ (chunk : ByteSeq) (key : Option RespKey) (m1 m2 : Option Nat) (s : State), s.walk = none →
    s.params.chunkMax = none → s.params.partialCap = none → s.table.wf s.params = true →
    (∀ m, m1 = some m → m < 2 ^ s.params.maskWidth) → (∀ m, m2 = some m → m < 2 ^ s.params.maskWidth) →
      ∃ (p : ByteSeq) (u : Bool) (r : Reply),
        exec (.decode chunk key m1 m2) s = .next { s with partialBuf := p, tableUsed := u, reply := some r }

/-! ## Record decode -/

/-- Rules R222, R223, R224, R237, R272: the four pass-throughs of DECODE_RECORD, in their order. No notification is
raised and only the reply, the walk registers and the table's use mark are written. The pass-through on an empty mask
is the spec's own choice: D13 of 92_eei_decisions.md. -/
def Obligations.RawPassThroughsInOrder : Prop :=
  ∀ (f : Frame) (key : Option RespKey) (m1 m2 : Option Nat) (s : State), recordable s f m1 m2 →
    (f.payload = [] → exec (.decodeRecord f key m1 m2) s = .next (decoded s (.raw f .emptyPayload) [])) ∧
    (f.payload ≠ [] → s.table.lookup f key = none →
      exec (.decodeRecord f key m1 m2) s = .next (decoded s (.raw f .noEntry) [])) ∧
    (∀ e, f.payload ≠ [] → s.table.lookup f key = some e → streaming s e →
      (m1 = none ∨ m2 = none →
        exec (.decodeRecord f key m1 m2) s = .next (decoded s (.raw f .missingStreamingContext) [])) ∧
      (∀ a b, m1 = some a → m2 = some b → (∀ d ∈ e.fields, d.active a b = false) →
        exec (.decodeRecord f key m1 m2) s = .next (decoded s (.raw f .noActiveField) [])))

/-- Rule R223: an async frame is looked up by its event id and the key is ignored; a response frame is looked up by the
host's key, and without one there is no entry. That the host supplies the key and an absent one means no entry, and that
an async frame's identifier is its event id, are the spec's own choices: D20 and D29 of 92_eei_decisions.md. -/
def Obligations.LookupByEventIdOrHostKey : Prop :=
  ∀ (t : Table),
    (∀ ev l p c key e, (distinctKeys t.async = true) → (ev, e) ∈ t.async →
      t.lookup (.async ev l p c) key = some e) ∧
    (∀ ev l p c key, (∀ e, (ev, e) ∉ t.async) → t.lookup (.async ev l p c) key = none) ∧
    (∀ rc sq l p c k e, (distinctKeys t.resp = true) → (k, e) ∈ t.resp →
      t.lookup (.response rc sq l p c) (some k) = some e) ∧
    (∀ rc sq l p c k, (∀ e, (k, e) ∉ t.resp) → t.lookup (.response rc sq l p c) (some k) = none) ∧
    (∀ rc sq l p c, t.lookup (.response rc sq l p c) none = none)

/-- Rules R225, R228 to R231, R240, R273: with an entry that requires no mask, every field is decoded once in list
order from its own byte range, errors leave sentinels and raise one notification each in list order, and masks
supplied are ignored. Mode selection and sentinels are the spec's own choices: D11, D15, D19 of
92_eei_decisions.md. -/
def Obligations.FixedWalkDecodesEveryField : Prop :=
  ∀ (f : Frame) (key : Option RespKey) (m1 m2 : Option Nat) (s : State) (e : Entry), recordable s f m1 m2 →
    f.payload ≠ [] → s.table.lookup f key = some e → ¬ streaming s e →
      exec (.decodeRecord f key m1 m2) s =
        .next
          (decoded s
            (.record
              { desc := e.desc, key := e.key, event := e.event,
                fields := e.fields.map fun d => (d.name, fixedValueOf d f.payload), frame := f, residual := 0 })
            (e.fields.filterMap fun d => fixedNoteOf d f.payload))

/-- Rules R232 to R236: in mask-driven mode with `k >= 1` active fields, the j-th active field holds the samples
number j, j + k, j + 2k, ... of the payload, as far as whole 16-bit samples go; a field that gets none is not in the
record; the odd byte, if any, is the residual; nothing is notified. The mask test, the short tail and the
literal threshold of the sample conversion are the spec's own choices: D9, D14 and D24 of 92_eei_decisions.md. -/
def Obligations.MaskWalkDistributesSamples : Prop :=
  ∀ (f : Frame) (key : Option RespKey) (a b : Nat) (s : State) (e : Entry), recordable s f (some a) (some b) →
    f.payload ≠ [] → s.table.lookup f key = some e → streaming s e →
      let actives := e.fields.filter (Descriptor.active a b)
      let n := f.payload.length / 2
      actives ≠ [] →
        exec (.decodeRecord f key (some a) (some b)) s =
          .next
            (decoded s
              (.record
                { desc := e.desc, key := e.key, event := e.event,
                  fields :=
                    (actives.zipIdx.filter fun dj => decide (dj.2 < n)).map fun dj =>
                      (dj.1.name,
                        samplesOf dj.1
                          (((List.range n).filter fun q => decide (q % actives.length = dj.2)).map
                            (sampleAt dj.1 f.payload))),
                  frame := f, residual := f.payload.length % 2 })
              [])

/-- Rule R239: a payload of N full cycles of k active fields yields exactly N samples for each active field, in
arrival order, no entry for an inactive field, and residual 0. The spec's own derivation (R239) from rule R232; the
mask test and the literal threshold of the sample conversion are its own choices: D9 and D24 of 92_eei_decisions.md. -/
def Obligations.WholeCyclesGiveEqualSampleLists : Prop :=
  ∀ (f : Frame) (key : Option RespKey) (a b cycles : Nat) (s : State) (e : Entry),
    recordable s f (some a) (some b) → s.table.lookup f key = some e → streaming s e →
      let actives := e.fields.filter (Descriptor.active a b)
      let k := actives.length
      1 ≤ k → 1 ≤ cycles → f.payload.length = 2 * k * cycles →
        exec (.decodeRecord f key (some a) (some b)) s =
          .next
            (decoded s
              (.record
                { desc := e.desc, key := e.key, event := e.event,
                  fields :=
                    actives.zipIdx.map fun dj =>
                      (dj.1.name,
                        samplesOf dj.1 ((List.range cycles).map fun i => sampleAt dj.1 f.payload (i * k + dj.2))),
                  frame := f, residual := 0 })
              [])

/-- Rules R75, R228, R232, R321: DECODE_RECORD, one atomic step, is the run of the Field Codec's program: the walk
registers at their start values, and then one step for each descriptor at `FI`, within the bound on field steps. That
a step inside the walk runs one descriptor is the model's choice (assumption log entry 6). -/
def Obligations.DecodeRecordIsTheWalkRunToItsEnd : Prop :=
  ∀ (f : Frame) (key : Option RespKey) (m1 m2 : Option Nat) (s : State) (e : Entry), recordable s f m1 m2 →
    f.payload ≠ [] → s.table.lookup f key = some e → e.fields ≠ [] →
    (streaming s e → ∃ a b, m1 = some a ∧ m2 = some b ∧ ∃ d ∈ e.fields, d.active a b = true) →
      ∃ n, n ≤ (f.payload.length / 2 + 1) * e.fields.length ∧
        Host.Core.run Sys2Proof.core n
            { s with
              tableUsed := true
              walk :=
                some
                  { frame := f, entry := e, mask1 := m1, mask2 := m2, fi := 0, cur := 0, fields := [], notes := [] } } =
          exec (.decodeRecord f key m1 m2) s

/-- Rules R221, R238, R287: DECODE_RECORD completes on every Frame, key and mask pair; the result is a Record or a raw
pass-through of that Frame. Totality is the spec's own statement in R287 (D28). -/
def Obligations.DecodeRecordCompletes : Prop :=
  ∀ (f : Frame) (key : Option RespKey) (m1 m2 : Option Nat) (s : State), recordable s f m1 m2 →
    ∃ (r : Result) (notes : List Notification), exec (.decodeRecord f key m1 m2) s = .next (decoded s r notes) ∧
      ((∃ x, r = .record x ∧ x.frame = f) ∨ (∃ why, r = .raw f why ∧ notes = []))

/-- Rule R287 (e), (h): an ill-formed table and a mask of `2^MASK_W` or more are refused, the mask by DECODE too,
whatever the table: the spec's own choices D9, D12 and D28 of 92_eei_decisions.md. That an operand which is no Frame is
refused is the model's (assumption log entry 17), and so are the order and the place of the checks (log entry 8). -/
def Obligations.DecodeRecordRefusals : Prop :=
  ∀ (f : Frame) (key : Option RespKey) (m1 m2 : Option Nat) (s : State),
    (s.table.wf s.params = false → exec (.decodeRecord f key m1 m2) s = .refused .tableIllFormed) ∧
    (s.table.wf s.params = true → ¬ (shaped f ∧ verifies f) →
      exec (.decodeRecord f key m1 m2) s = .refused .notAFrame) ∧
    (∀ m, m1 = some m ∨ m2 = some m → 2 ^ s.params.maskWidth ≤ m →
      (s.table.wf s.params = true → f.valid = true → exec (.decodeRecord f key m1 m2) s = .refused .maskTooWide) ∧
      ∀ chunk, exec (.decode chunk key m1 m2) s = .refused .maskTooWide)

/-! ## Field Codec: one field step of a walk in progress -/

/-- Rule R193: FLD.NUM stores the unsigned big-endian value of the byte range. -/
def Obligations.NumFieldIsBigEndian : Prop :=
  (∀ d : Descriptor, d.code = 0x00 → d.format = .none → decode (.fdesc d) = .ok (.fldNum d.name d.lo d.hi)) ∧
  ∀ (name : String) (lo hi : Nat) (s : State) (w : Walk), inFixed s w → lo < hi → hi ≤ w.payload.length →
    meets s.params.maxWidth (hi - lo) → ∃ n : Nat,
      exec (.fldNum name lo hi) s = .next (afterFixed s w name (.num n) []) ∧
      n < 2 ^ (8 * (hi - lo)) ∧
      ∀ k, k < hi - lo →
        some (n / 256 ^ (hi - lo - 1 - k) % 256) = ((slice w.payload lo hi)[k]?).map BitVec.toNat

/-- Rule R194: FLD.HEX stores `0x` and the upper-case base-16 digits of the value, most significant first, without a
leading zero. That the digits are not padded is the spec's own choice: D16 of 92_eei_decisions.md. -/
def Obligations.HexFieldIsMinimalUpperCase : Prop :=
  (∀ d : Descriptor, d.code = 0x00 → d.format = .hex → decode (.fdesc d) = .ok (.fldHex d.name d.lo d.hi)) ∧
  ∀ (name : String) (lo hi : Nat) (s : State) (w : Walk), inFixed s w → lo < hi → hi ≤ w.payload.length →
    meets s.params.maxWidth (hi - lo) → ∃ ds : List Char,
      exec (.fldHex name lo hi) s = .next (afterFixed s w name (.hexStr ('0' :: 'x' :: ds)) []) ∧
      denotes ds (be (slice w.payload lo hi)) ∧ (ds = ['0'] ∨ ∃ c r, ds = c :: r ∧ c ≠ '0')

/-- Rules R195, R196: FLD.TEXT stores the decoded text with every U+0000 replaced by the character `0`, its length and
its other characters unchanged, under any encoding; under ascii, bytes below `0x80` are their own characters. The
ascii clause is the spec's own choice: D17 of 92_eei_decisions.md; elsewhere `TextDecode` is free. -/
def Obligations.TextFieldReplacesNul : Prop :=
  (∀ d : Descriptor, d.code = 0x01 → decode (.fdesc d) = .ok (.fldText d.name d.lo d.hi d.encoding)) ∧
  ∀ (name : String) (lo hi : Nat) (enc : String) (s : State) (w : Walk), inFixed s w → lo ≤ hi →
    hi ≤ w.payload.length → ∃ t : List Char,
      exec (.fldText name lo hi enc) s = .next (afterFixed s w name (.text t) []) ∧
      t = (textDecode enc (slice w.payload lo hi)).map (fun c => if c = Char.ofNat 0 then '0' else c) ∧
      Char.ofNat 0 ∉ t ∧
      (enc = "ascii" → (∀ x ∈ slice w.payload lo hi, x.toNat < 128) →
        t = (slice w.payload lo hi).map fun x => if x.toNat = 0 then '0' else Char.ofNat x.toNat)

/-- Rule R197: FLD.RAW stores the bytes of the range. -/
def Obligations.RawFieldIsTheByteRange : Prop :=
  (∀ d : Descriptor, d.code = 0x02 → decode (.fdesc d) = .ok (.fldRaw d.name d.lo d.hi)) ∧
  ∀ (name : String) (lo hi : Nat) (s : State) (w : Walk), inFixed s w → lo ≤ hi → hi ≤ w.payload.length →
    ∃ b : ByteSeq, exec (.fldRaw name lo hi) s = .next (afterFixed s w name (.raw b) []) ∧
      b.length = hi - lo ∧ ∀ k, k < hi - lo → b[k]? = w.payload[lo + k]?

/-- Rule R198: FLD.PREDEF masks the code bitwise when the descriptor has a mask, and stores the label the value table
gives it, or the masked code as unknown; a miss raises nothing. The unknown variant is the spec's own choice: D18 of
92_eei_decisions.md. -/
def Obligations.PredefFieldLooksUpMaskedCode : Prop :=
  (∀ d : Descriptor, d.code = 0x03 → decode (.fdesc d) = .ok (.fldPredef d.name d.lo d.hi d.pmask d.values)) ∧
  ∀ (name : String) (lo hi : Nat) (pm : Option Nat) (vs : List (Nat × String)) (s : State) (w : Walk), inFixed s w →
    lo < hi → hi ≤ w.payload.length → meets s.params.maxWidth (hi - lo) →
    (∀ m, pm = some m → m < 2 ^ (8 * (hi - lo))) → (vs.map Prod.fst).Nodup →
      let raw := be (slice w.payload lo hi)
      ∀ code, (pm = none ∧ code = raw) ∨ (∃ m, pm = some m ∧ code = raw &&& m) →
        (∀ label, (code, label) ∈ vs →
          exec (.fldPredef name lo hi pm vs) s = .next (afterFixed s w name (.enum (.mapped label)) [])) ∧
        ((∀ label, (code, label) ∉ vs) →
          exec (.fldPredef name lo hi pm vs) s = .next (afterFixed s w name (.enum (.unknown code)) []))

/-- Rule R199: FLD.SIGNED stores the two's complement value over `8 * (to - from)` bits. -/
def Obligations.SignedFieldIsTwosComplement : Prop :=
  (∀ d : Descriptor, d.code = 0x05 → decode (.fdesc d) = .ok (.fldSigned d.name d.lo d.hi)) ∧
  ∀ (name : String) (lo hi : Nat) (s : State) (w : Walk), inFixed s w → lo < hi → hi ≤ w.payload.length →
    meets s.params.maxWidth (hi - lo) →
      let raw := be (slice w.payload lo hi)
      ∃ v : Int,
        exec (.fldSigned name lo hi) s = .next (afterFixed s w name (.signed v) []) ∧
        (2 ^ (8 * (hi - lo) - 1) ≤ raw → v = (raw : Int) - 2 ^ (8 * (hi - lo))) ∧
        (raw < 2 ^ (8 * (hi - lo) - 1) → v = raw) ∧
        -(2 : Int) ^ (8 * (hi - lo) - 1) ≤ v ∧ v < 2 ^ (8 * (hi - lo) - 1)

/-- Rules R203, R264: a type code of `0x06` or above leaves the Unparseable sentinel, raises one UnparseableField with
the name and the code, and the walk goes on; the byte range is not checked. Each of the six rows of the table. The
shape of the sentinel is the spec's own choice: D19 of 92_eei_decisions.md. -/
def Obligations.UnknownTypeLeavesSentinel : Prop :=
  ∀ (name : String) (c : BitVec 8) (lo hi : Nat) (s : State) (w : Walk), inFixed s w →
    let after :=
      Host.Outcome.next
        (afterFixed s w name (.fieldError (.unparseable c)) [.unparseableField name (.unknownType c)])
    let code (i : Instr) : Prop := decode (.fdesc { name := name, code := c, lo := lo, hi := hi }) = .ok i
    (0x06 ≤ c.toNat → c.toNat ≤ 0x07 →
      code (.fldUnknown06 name c lo hi) ∧ exec (.fldUnknown06 name c lo hi) s = after) ∧
    (0x08 ≤ c.toNat → c.toNat ≤ 0x0F →
      code (.fldUnknown08 name c lo hi) ∧ exec (.fldUnknown08 name c lo hi) s = after) ∧
    (0x10 ≤ c.toNat → c.toNat ≤ 0x1F →
      code (.fldUnknown10 name c lo hi) ∧ exec (.fldUnknown10 name c lo hi) s = after) ∧
    (0x20 ≤ c.toNat → c.toNat ≤ 0x3F →
      code (.fldUnknown20 name c lo hi) ∧ exec (.fldUnknown20 name c lo hi) s = after) ∧
    (0x40 ≤ c.toNat → c.toNat ≤ 0x7F →
      code (.fldUnknown40 name c lo hi) ∧ exec (.fldUnknown40 name c lo hi) s = after) ∧
    (0x80 ≤ c.toNat → code (.fldUnknown80 name c lo hi) ∧ exec (.fldUnknown80 name c lo hi) s = after)

/-- Rules R231, R266: a recognised fixed-offset type whose range passes the end of the payload leaves the OutOfRange
sentinel, raises UnparseableField with that cause, and the walk goes on. The spec's own choice: D15 of
92_eei_decisions.md. -/
def Obligations.OutOfRangeFieldLeavesSentinel : Prop :=
  ∀ (name : String) (lo hi : Nat) (s : State) (w : Walk), inFixed s w → lo ≤ hi → w.payload.length < hi →
    let after :=
      Host.Outcome.next
        (afterFixed s w name (.fieldError .outOfRange) [.unparseableField name .outOfRange])
    (∀ enc, exec (.fldText name lo hi enc) s = after) ∧ exec (.fldRaw name lo hi) s = after ∧
    (lo < hi → meets s.params.maxWidth (hi - lo) →
      exec (.fldNum name lo hi) s = after ∧ exec (.fldHex name lo hi) s = after ∧
      exec (.fldSigned name lo hi) s = after ∧
      ∀ pm vs, (∀ m, pm = some m → m < 2 ^ (8 * (hi - lo))) → (vs.map Prod.fst).Nodup →
        exec (.fldPredef name lo hi pm vs) s = after)

/-- Rules R200 to R202, R233 to R236: FLD.BITMASK on a mask register that is present. A clear bit skips the field; a
set bit with 2 bytes left takes them, converts the sample against the descriptor's upper range, makes or grows the
list under the name, and moves the cursor by 2; a set bit with fewer bytes left ends the walk at once. The mask test,
the short tail and the literal threshold are the spec's own choices: D9, D14 and D24. -/
def Obligations.BitmaskFieldAccumulates : Prop :=
  (∀ d : Descriptor, d.code = 0x04 →
    (d.reg = 1 → decode (.fdesc d) =
      .ok (.fldBitmask d.name .mask1 d.bit d.rangeBottom d.rangeTop d.units d.sensor)) ∧
    (d.reg = 2 → decode (.fdesc d) =
      .ok (.fldBitmask d.name .mask2 d.bit d.rangeBottom d.rangeTop d.units d.sensor))) ∧
  ∀ (name : String) (reg : MaskReg) (bit : Nat) (rb rt : Int) (u se : String) (s : State) (w : Walk) (m : Nat),
    inRing s w → bit < s.params.maskWidth →
    (reg = .mask1 ∧ w.mask1 = some m ∨ reg = .mask2 ∧ w.mask2 = some m) →
      let i := Instr.fldBitmask name reg bit rb rt u se
      (m.testBit bit = false → exec i s = .next (afterRing s w w.fields w.cur)) ∧
      (m.testBit bit = true → w.payload.length < w.cur + 2 →
        exec i s = .next { s with walk := none, reply := some (ringReply w w.fields w.cur) }) ∧
      (∀ (x y : Byte) (v : Int), m.testBit bit = true → w.payload[w.cur]? = some x →
        w.payload[w.cur + 1]? = some y →
        (((x.toNat * 256 + y.toNat : Nat) : Int) > rt → v = ((x.toNat * 256 + y.toNat : Nat) : Int) - 65536) →
        (((x.toNat * 256 + y.toNat : Nat) : Int) ≤ rt → v = ((x.toNat * 256 + y.toNat : Nat) : Int)) →
          (w.fields.lookup name = none →
            exec i s =
              .next
                (afterRing s w
                  (w.fields ++
                    [(name,
                      .samples { sensor := se, rangeBottom := rb, rangeTop := rt, units := u, values := [v] })])
                  (w.cur + 2))) ∧
          (∀ old, w.fields.lookup name = some (.samples old) →
            exec i s =
              .next
                (afterRing s w (putField name (.samples { old with values := old.values ++ [v] }) w.fields)
                  (w.cur + 2))))

/-- Rules R190, R114: the model's choice (assumption log entry 6): a descriptor outside a walk is refused, since it has
no payload to read, and so is one in a walk of the other mode. -/
def Obligations.DescriptorsNeedTheirWalk : Prop :=
  ∀ (d : Descriptor) (i : Instr) (s : State), decode (.fdesc d) = .ok i →
    (s.walk = none → exec i s = .refused .noWalk) ∧
    (∀ w, inFixed s w → d.code = 0x04 → d.bit < s.params.maskWidth → exec i s = .refused .descriptorOutOfPlace) ∧
    (∀ w, inRing s w → d.code ≠ 0x04 → i.wf = true → meets s.params.maxWidth (d.hi - d.lo) →
      exec i s = .refused .descriptorOutOfPlace)

/-- The model's choice (assumption log entry 10) for descriptors that rule R108 keeps out of every table: inside a
walk a descriptor that fails W2, W3, W6 or W8, whose value table is no map, or whose type code is outside its row, is
refused. -/
def Obligations.IllFormedDescriptorsAreRefused : Prop :=
  ∀ (name : String) (s : State) (w : Walk), s.walk = some w →
    let no := Host.Outcome.refused (σ := State) (φ := Fault) Refusal.descriptorIllFormed
    (∀ lo hi, hi ≤ lo ∨ ¬ meets s.params.maxWidth (hi - lo) →
      exec (.fldNum name lo hi) s = no ∧ exec (.fldHex name lo hi) s = no ∧ exec (.fldSigned name lo hi) s = no ∧
        ∀ pm vs, exec (.fldPredef name lo hi pm vs) s = no) ∧
    (∀ lo hi pm vs, (∃ m, pm = some m ∧ 2 ^ (8 * (hi - lo)) ≤ m) ∨ ¬ (vs.map Prod.fst).Nodup →
      exec (.fldPredef name lo hi pm vs) s = no) ∧
    (∀ lo hi, hi < lo → exec (.fldRaw name lo hi) s = no ∧ ∀ enc, exec (.fldText name lo hi enc) s = no) ∧
    (∀ r bit rb rt u se, s.params.maskWidth ≤ bit → exec (.fldBitmask name r bit rb rt u se) s = no) ∧
    (∀ (c : BitVec 8) lo hi,
      (c.toNat < 0x06 ∨ 0x07 < c.toNat → exec (.fldUnknown06 name c lo hi) s = no) ∧
      (c.toNat < 0x08 ∨ 0x0F < c.toNat → exec (.fldUnknown08 name c lo hi) s = no) ∧
      (c.toNat < 0x10 ∨ 0x1F < c.toNat → exec (.fldUnknown10 name c lo hi) s = no) ∧
      (c.toNat < 0x20 ∨ 0x3F < c.toNat → exec (.fldUnknown20 name c lo hi) s = no) ∧
      (c.toNat < 0x40 ∨ 0x7F < c.toNat → exec (.fldUnknown40 name c lo hi) s = no) ∧
      (c.toNat < 0x80 → exec (.fldUnknown80 name c lo hi) s = no))

/-! ## Frame Construction -/

/-- Rules R250, R251, R96: select code 9 is BUILD_FRAME; it and FRAME.COMMAND produce the six header bytes, the
payload and the checksum over everything from offset 2; an absent device or command id is 0. Rules R250 and R251 speak of
BUILD_FRAME; that the row FRAME.COMMAND is an instruction with this result is the model's choice (assumption log entry
13). -/
def Obligations.BuildFrameLaysOutCommand : Prop :=
  (∀ o : Operands, decode (.xact 0x9 o) = .ok (.buildFrame o.deviceId o.commandId o.sequence o.bytes)) ∧
  ∀ (did cid : Option Byte) (sq : Byte) (p : ByteSeq) (s : State), p.length ≤ 254 →
    ∃ (d k l c : Byte),
      (did = none → d = 0) ∧ (∀ x, did = some x → d = x) ∧ (cid = none → k = 0) ∧ (∀ x, cid = some x → k = x) ∧
      l.toNat = p.length + 1 ∧ c.toNat = ones ([d, k, sq, l] ++ p) ∧
      exec (.buildFrame did cid sq p) s =
        .next (replied s (.bytes ([0xFF, 0xFF, d, k, sq, l] ++ p ++ [c])) []) ∧
      exec (.frameCommand d k sq p) s =
        .next (replied s (.bytes ([0xFF, 0xFF, d, k, sq, l] ++ p ++ [c])) [])

/-- Rule R252: more than 254 payload bytes are refused; the length is never wrapped and the payload never cut. The
spec's own choice, for BUILD_FRAME: D22 of 92_eei_decisions.md; that the row FRAME.COMMAND is an instruction, refused in
the same case, is the model's choice (assumption log entry 13). -/
def Obligations.BuildFrameRefusesLongPayload : Prop :=
  ∀ (did cid : Option Byte) (d k sq : Byte) (p : ByteSeq) (s : State), 254 < p.length →
    exec (.buildFrame did cid sq p) s = .refused .payloadTooLong ∧
    exec (.frameCommand d k sq p) s = .refused .payloadTooLong

/-- Rules R253, R254: every built frame starts `FF FF`, has 7 bytes beside its payload, counts its own length at
offset 5, and its last byte verifies over everything from offset 2. The spec's own derivation (R254) from rule
R250. -/
def Obligations.BuiltFrameVerifies : Prop :=
  ∀ (did cid : Option Byte) (sq : Byte) (p out : ByteSeq) (s t : State),
    exec (.buildFrame did cid sq p) s = .next (replied s (.bytes out) []) →
      out.length = 7 + p.length ∧ out.take 2 = [0xFF, 0xFF] ∧
      (out[5]?).map BitVec.toNat = some (out.length - 6) ∧
      ∃ c, out[out.length - 1]? = some c ∧
        exec (.verify (slice out 2 (out.length - 1)) c) t = .next (replied t (.bool true) [])

/-! ## The whole machine -/

/-- Encodings of the spec, written out byte by byte from rules R92, R93, R112 and R113, decode to the instructions they
stand for. -/
def Obligations.SpecWordsDecode : Prop :=
  decode (.frameIn [0xFF, 0xFF, 0x00, 0x01, 0x01, 0xFD]) = .ok (.frameResponse 0x00 0x01 0x01 [] 0xFD) ∧
  decode (.frameIn [0xFF, 0xFE, 0x03, 0x00, 0x03, 0xAA, 0xBB, 0x94]) =
    .ok (.frameAsync 0x03 0x0003 [0xAA, 0xBB] 0x94) ∧
  decode (.xact 0x6 { bytes := [0x12, 0x34] }) = .ok (.ingest [0x12, 0x34]) ∧
  (∀ o, decode (.xact 0xA o) = .error (.unassignedSelect 0xA)) ∧
  decode (.fdesc { name := "model", code := 0x00, format := .hex, lo := 1, hi := 3 }) = .ok (.fldHex "model" 1 3) ∧
  decode (.fdesc { name := "bogus", code := 0x09, lo := 0, hi := 4 }) = .ok (.fldUnknown08 "bogus" 0x09 0 4)

/-- Decoding the encoding of a well-formed instruction gives it back, for all 26 constructors. -/
def Obligations.DecodeInvertsEncode : Prop := ∀ i : Instr, i.wf = true → decode (encode i) = .ok i

/-- Rules R113, R114, R287 (d): every select code above 9 and every mask register number other than 1 and 2 is
rejected, and every other transaction word and descriptor decodes, to an instruction whose row of the table matches
its word. -/
def Obligations.EverythingAssignedDecodes : Prop :=
  (∀ (c : BitVec 4) (o : Operands), 10 ≤ c.toNat → decode (.xact c o) = .error (.unassignedSelect c)) ∧
  (∀ (c : BitVec 4) (o : Operands), c.toNat < 10 → ∃ i, decode (.xact c o) = .ok i ∧ i.row = (c.toNat, 0xF)) ∧
  (∀ d : Descriptor, (d.code = 0x04 → d.reg = 1 ∨ d.reg = 2) → ∃ i, decode (.fdesc d) = .ok i ∧
    d.word.toNat &&& i.row.2 = i.row.1) ∧
  (∀ d : Descriptor, d.code = 0x04 → d.reg ≠ 1 → d.reg ≠ 2 → decode (.fdesc d) = .error (.badMaskRegister d.reg))

/-- Rules R75, R76, R284: a step takes the host's oldest request, and what it decodes to is what runs; inside a walk
the descriptor at `FI` is what runs; with nothing pending the machine stays as it is. The port and the idle step are
the model's choice (assumption log entry 7). -/
def Obligations.StepRunsTheDecodedInstruction : Prop :=
  ∀ s : State,
    (∀ c rest i, s.walk = none → s.port = .issue c :: rest → decode c = .ok i →
      step s = exec i { s with port := rest }) ∧
    (∀ c rest e, s.walk = none → s.port = .issue c :: rest → decode c = .error e →
      step s = .refused (.undecodable e)) ∧
    (∀ w d i, s.walk = some w → w.entry.fields[w.fi]? = some d → decode (.fdesc d) = .ok i → step s = exec i s) ∧
    (s.walk = none → s.port = [] → step s = .next s)

/-- Rules R75, R45: a step that starts between transactions ends between transactions: the registers of the walk never
outlive the transaction. -/
def Obligations.TransactionsAreAtomic : Prop :=
  ∀ s t : State, s.Idle → step s = .next t → t.Idle

/-- Rules R42, R80: no instruction writes the parameters, the table or the port, or forgets that the table was used;
and once a DECODE_RECORD has been made no step changes the table. -/
def Obligations.ConfigurationIsNeverWritten : Prop :=
  (∀ (i : Instr) (s t : State), exec i s = .next t →
    t.params = s.params ∧ t.table = s.table ∧ t.port = s.port ∧ (s.tableUsed = true → t.tableUsed = true)) ∧
  (∀ s t : State, step s = .next t →
    t.params = s.params ∧ (s.tableUsed = true → t.table = s.table ∧ t.tableUsed = true))

/-- Rule R108: the check of a table is W1 to W8 on every entry, with the keys of each map and of each value table
distinct. W2 is read as a condition on the recognised types (assumption log entry 9). The spec's own choice: D12 of
92_eei_decisions.md. -/
def Obligations.TableCheckIsW1ToW8 : Prop :=
  ∀ (p : Params) (t : Table),
    t.wf p = true ↔
      (t.resp.map Prod.fst).Nodup ∧ (t.async.map Prod.fst).Nodup ∧
        (∀ k e, (k, e) ∈ t.resp → e.key = .resp k.1 k.2 ∧ entryOk p e) ∧
        (∀ k e, (k, e) ∈ t.async → e.key = .async k ∧ entryOk p e)

/-- Rules R302, R303, R80: a table is loaded before its first use when it passes the check, and refused otherwise;
after the first DECODE_RECORD a load is refused. The check is the spec's own choice D12; the request and the mark are
the model's (assumption log entry 5). -/
def Obligations.TableLoadIsCheckedAndEarly : Prop :=
  ∀ (s : State) (t : Table) (rest : List HostRequest), s.walk = none → s.port = .loadTable t :: rest →
    (s.tableUsed = false → t.wf s.params = true → step s = .next { s with port := rest, table := t }) ∧
    (s.tableUsed = false → t.wf s.params = false → step s = .refused .tableIllFormed) ∧
    (s.tableUsed = true → step s = .refused .tableInUse)

/-- Rule R32: INGEST, DECODE and RESET alone write `PARTIAL`. -/
def Obligations.OnlyTheAssemblerWritesPartial : Prop :=
  ∀ (i : Instr) (s t : State), ¬ writesPartial i → exec i s = .next t → t.partialBuf = s.partialBuf

/-- Rules R77, R151: what every other instruction does, its result included, does not depend on `PARTIAL`. -/
def Obligations.PureInstructionsIgnorePartial : Prop :=
  ∀ (i : Instr) (s : State) (b : ByteSeq), ¬ writesPartial i →
    exec i { s with partialBuf := b } = onNext (fun t => { t with partialBuf := b }) (exec i s)

/-- The invariant `State.Inv` of Safety.lean (rules R32, R37, R38, R108, R140, R200, R237) is kept by every step, from
every state that meets it. -/
def Obligations.StepKeepsInvariant : Prop :=
  ∀ s t : State, s.Inv → step s = .next t → t.Inv

/-- The state after reset meets the invariant. The empty table and the parameters are the model's choice (assumption
log entries 2 and 3). -/
def Obligations.ResetMeetsInvariant : Prop := State.reset.Inv

/-- Rule R269: the code each outcome and each notification has at a status port. The spec's own choice: D21 of
92_eei_decisions.md. That an outcome has its code whichever transaction returns it, also one that the row of R269 does
not name (a Frame from FRAME_DECODE, FRAME.RESPONSE or FRAME.ASYNC), is the model's choice (assumption log entry 19). -/
def Obligations.StatusCodes : Prop :=
  (∀ f, (Result.frame f).statusCode = some 0x00) ∧ (∀ r, (Result.record r).statusCode = some 0x00) ∧
  (Result.noFrame .pending).statusCode = some 0x01 ∧ (Result.nothing .pending).statusCode = some 0x01 ∧
  (Result.noFrame .garbage).statusCode = some 0x02 ∧ (Result.nothing .garbage).statusCode = some 0x02 ∧
  (Result.noFrame .zeroLength).statusCode = some 0x03 ∧ (Result.nothing .zeroLength).statusCode = some 0x03 ∧
  (∀ x y, (Result.checksumMismatch x y).statusCode = some 0x04) ∧
  (∀ x y, (Notification.checksumMismatch x y).statusCode = 0x04) ∧
  (∀ n c, (Notification.unparseableField n (.unknownType c)).statusCode = 0x05) ∧
  (∀ n, (Notification.unparseableField n .outOfRange).statusCode = 0x06) ∧
  (∀ f, (Result.raw f .emptyPayload).statusCode = some 0x08) ∧ (∀ f, (Result.raw f .noEntry).statusCode = some 0x09) ∧
  (∀ f, (Result.raw f .missingStreamingContext).statusCode = some 0x0A) ∧
  (∀ f, (Result.raw f .noActiveField).statusCode = some 0x0B)
end

