-- ==== Sys2Proof/Laws/Bytes.lean ====
section
/-! SUPPORT. What the byte functions do: reads of a byte space, big-endian values, the checksum, and the predicates on
buffers in terms of the first bytes. -/

namespace Sys2Proof.Machine

/-! ## Reads -/

theorem memRead_of_le {b : ByteSeq} {a n : Nat} (h : a + n ≤ b.length) :
    memRead b a n = some ((b.drop a).take n) := by simp [memRead, h]

theorem memRead_of_lt {b : ByteSeq} {a n : Nat} (h : b.length < a + n) : memRead b a n = none := by
  simp [memRead, Nat.not_le.mpr h]

/-- The spec of a read: it answers exactly the bytes of the range, and only when the range is inside the space. -/
theorem memRead_eq_some {b : ByteSeq} {a n : Nat} {r : ByteSeq} :
    memRead b a n = some r ↔ a + n ≤ b.length ∧ r = (b.drop a).take n := by
  unfold memRead; split <;> simp_all [eq_comm]

theorem memRead_length {b : ByteSeq} {a n : Nat} {r : ByteSeq} (h : memRead b a n = some r) : r.length = n := by
  obtain ⟨h, rfl⟩ := memRead_eq_some.mp h
  simp; omega

/-! ## Big-endian values -/

@[simp] theorem be_nil : be [] = 0 := rfl

theorem be_concat (s : ByteSeq) (x : Byte) : be (s ++ [x]) = be s * 256 + x.toNat := by simp [be]

theorem be_pair (x y : Byte) : be [x, y] = x.toNat * 256 + y.toNat := by simp [be]

/-- A value of `n` bytes is below `256^n` (rule R205). -/
theorem be_lt (s : ByteSeq) : be s < 256 ^ s.length := by
  induction s using List.reverseRecOn with
  | nil => simp
  | append_singleton s x ih =>
    rw [be_concat, List.length_append, List.length_singleton, Nat.pow_succ]
    have := x.isLt
    omega

/-! ## Checksum -/

theorem checksum_toNat (s : ByteSeq) : (checksum s).toNat = 255 - byteSum s % 256 := by
  simp only [checksum, BitVec.toNat_ofNat]
  omega

theorem verify_iff (s : ByteSeq) (c : Byte) : verify s c = true ↔ c.toNat = 255 - byteSum s % 256 := by
  rw [← checksum_toNat, verify, beq_iff_eq, BitVec.toNat_eq]
  exact eq_comm

theorem byteSum_append (s t : ByteSeq) : byteSum (s ++ t) = byteSum s + byteSum t := by simp [byteSum]

theorem byteSum_cons (x : Byte) (t : ByteSeq) : byteSum (x :: t) = x.toNat + byteSum t := by simp [byteSum]

/-! ## Buffers -/

theorem sopsOk_iff {b : ByteSeq} :
    sopsOk b = true ↔ ∃ r, b = 0xFF :: 0xFF :: r ∨ b = 0xFF :: 0xFE :: r := by
  match b with
  | [] => simp [sopsOk]
  | [_] => simp [sopsOk]
  | x :: y :: r =>
    simp only [sopsOk, Bool.and_eq_true, Bool.or_eq_true, beq_iff_eq, List.cons.injEq]
    constructor
    · rintro ⟨rfl, rfl | rfl⟩ <;> simp
    · rintro ⟨_, ⟨rfl, rfl, _⟩ | ⟨rfl, rfl, _⟩⟩ <;> simp

theorem declaredLength_response (x a b c : Byte) (r : ByteSeq) :
    declaredLength (x :: 0xFF :: a :: b :: c :: r) = some c.toNat := rfl

theorem declaredLength_async (x a b c : Byte) (r : ByteSeq) :
    declaredLength (x :: 0xFE :: a :: b :: c :: r) = some (b.toNat * 256 + c.toNat) := rfl

/-- `complete`, opened once: a SOP pair, a header, and the bytes it declares. -/
theorem complete_iff {b : ByteSeq} :
    complete b = true ↔ 6 ≤ b.length ∧ sopsOk b = true ∧ ∃ n, frameLen b = some n ∧ n ≤ b.length := by
  unfold complete
  cases frameLen b <;> simp [and_assoc]

theorem complete_length {b : ByteSeq} (h : complete b = true) : 6 ≤ b.length := (complete_iff.mp h).1

theorem frameDecodable_iff {b : ByteSeq} :
    frameDecodable b = true ↔ complete b = true ∧ frameLen b ≠ some 5 := by
  simp [frameDecodable]

end Sys2Proof.Machine

namespace Sys2Proof

open Machine

/-! ## Frames -/

theorem Frame.shapeOk_iff {f : Frame} : f.shapeOk = true ↔ f.payload.length + 1 = f.length := by
  simp [Frame.shapeOk]

theorem Frame.valid_iff {f : Frame} :
    f.valid = true ↔ f.payload.length + 1 = f.length ∧
      f.claimed.toNat = 255 - byteSum (f.header3 ++ f.payload) % 256 := by
  simp [Frame.valid, Frame.shapeOk_iff, verify_iff]

theorem Frame.header3_length (f : Frame) : f.header3.length = 3 := by cases f <;> rfl

theorem Frame.bytes_length (f : Frame) : f.bytes.length = f.payload.length + 6 := by
  simp [Frame.bytes, Frame.header3_length]; omega

end Sys2Proof
end

