-- ==== Sys2Proof/Laws/Frames.lean ====
section
/-! SUPPORT. The Frame Decoder and INGEST in terms of whole frames: a decodable buffer is the bytes of one frame and a
surplus, and on such a buffer each operation has one answer. -/

namespace Sys2Proof

open Machine

/-! ## The header of a frame's bytes -/

theorem byteHigh_toNat (l : BitVec 16) : (BitVec.ofNat 8 (l.toNat / 256)).toNat = l.toNat / 256 := by
  have := l.isLt
  rw [BitVec.toNat_ofNat]; omega

theorem byteLow_toNat (l : BitVec 16) : (BitVec.ofNat 8 (l.toNat % 256)).toNat = l.toNat % 256 := by
  rw [BitVec.toNat_ofNat]; omega

theorem append_toNat (x y : Byte) : (x ++ y : BitVec 16).toNat = x.toNat * 256 + y.toNat := by
  have hy := y.isLt
  rw [BitVec.toNat_append, ← Nat.shiftLeft_add_eq_or_of_lt hy, Nat.shiftLeft_eq]

theorem byteHigh_append_byteLow (l : BitVec 16) :
    (BitVec.ofNat 8 (l.toNat / 256) ++ BitVec.ofNat 8 (l.toNat % 256) : BitVec 16) = l := by
  apply BitVec.eq_of_toNat_eq
  rw [append_toNat, byteHigh_toNat, byteLow_toNat]
  omega

theorem Frame.declaredLength_bytes (f : Frame) (t : ByteSeq) : declaredLength (f.bytes ++ t) = some f.length := by
  cases f with
  | response rc sq l p c => rfl
  | async ev l p c =>
    show some (_ * 256 + _) = some l.toNat
    rw [byteHigh_toNat, byteLow_toNat]
    congr 1; omega

theorem Frame.sopsOk_bytes (f : Frame) (t : ByteSeq) : sopsOk (f.bytes ++ t) = true := by cases f <;> rfl

theorem Frame.frameLen_bytes {f : Frame} (h : f.shapeOk = true) (t : ByteSeq) :
    frameLen (f.bytes ++ t) = some f.bytes.length := by
  rw [Frame.shapeOk_iff] at h
  rw [frameLen, f.declaredLength_bytes, f.bytes_length, ← h]
  simp [hdrSize]; omega

theorem Frame.complete_bytes {f : Frame} (h : f.shapeOk = true) (t : ByteSeq) : complete (f.bytes ++ t) = true := by
  refine complete_iff.mpr ⟨?_, f.sopsOk_bytes t, _, f.frameLen_bytes h t, ?_⟩ <;>
    simp [f.bytes_length]
  omega

theorem Frame.frameDecodable_bytes {f : Frame} (h : f.shapeOk = true) (t : ByteSeq) :
    frameDecodable (f.bytes ++ t) = true := by
  refine frameDecodable_iff.mpr ⟨f.complete_bytes h t, ?_⟩
  rw [f.frameLen_bytes h t, f.bytes_length]
  simp

/-! ## A decodable buffer is a frame and a surplus -/

theorem take_drop_snoc {r : ByteSeq} {n : Nat} (h : n < r.length) :
    ∃ c t, r = r.take n ++ [c] ++ t := by
  refine ⟨r[n], r.drop (n + 1), ?_⟩
  rw [List.append_assoc, List.singleton_append, ← List.drop_eq_getElem_cons h, List.take_append_drop]

theorem frameDecodable_iff_bytes {b : ByteSeq} :
    frameDecodable b = true ↔ ∃ f t, Frame.shapeOk f = true ∧ b = f.bytes ++ t := by
  constructor
  · intro h
    obtain ⟨hc, h5⟩ := frameDecodable_iff.mp h
    obtain ⟨h6, hs, n, hn, hle⟩ := complete_iff.mp hc
    obtain ⟨x, rfl | rfl⟩ := sopsOk_iff.mp hs
    · match x, h6 with
      | a :: b :: c :: r, _ =>
        have h0 : c.toNat ≠ 0 := fun h0 => h5 (by rw [frameLen, declaredLength_response, h0]; rfl)
        simp only [frameLen, declaredLength_response, Option.map_some, Option.some.injEq] at hn
        subst hn
        simp only [List.length_cons, hdrSize] at hle
        obtain ⟨k, t, hr⟩ := take_drop_snoc (r := r) (n := c.toNat - 1) (by omega)
        refine ⟨.response a b c (r.take (c.toNat - 1)) k, t, ?_, ?_⟩
        · rw [Frame.shapeOk_iff]; simp [Frame.payload, Frame.length]; omega
        · conv_lhs => rw [hr]
          simp [Frame.bytes, Frame.header3, Frame.payload, Frame.claimed, Frame.sop1, Frame.sop2]
    · match x, h6 with
      | a :: b :: c :: r, _ =>
        have h0 : b.toNat * 256 + c.toNat ≠ 0 := fun h0 => h5 (by rw [frameLen, declaredLength_async, h0]; rfl)
        simp only [frameLen, declaredLength_async, Option.map_some, Option.some.injEq] at hn
        subst hn
        simp only [List.length_cons, hdrSize] at hle
        obtain ⟨k, t, hr⟩ := take_drop_snoc (r := r) (n := (b ++ c : BitVec 16).toNat - 1)
          (by rw [append_toNat]; omega)
        refine ⟨.async a (b ++ c) (r.take ((b ++ c : BitVec 16).toNat - 1)) k, t, ?_, ?_⟩
        · rw [Frame.shapeOk_iff, Frame.length, append_toNat]
          simp only [Frame.payload, List.length_take]; omega
        · conv_lhs => rw [hr]
          have hb : BitVec.ofNat 8 ((b ++ c : BitVec 16).toNat / 256) = b := by
            apply BitVec.eq_of_toNat_eq
            rw [byteHigh_toNat, append_toNat]
            have := c.isLt; omega
          have hc : BitVec.ofNat 8 ((b ++ c : BitVec 16).toNat % 256) = c := by
            apply BitVec.eq_of_toNat_eq
            rw [byteLow_toNat, append_toNat]
            have := c.isLt; omega
          simp only [Frame.bytes, Frame.header3, Frame.payload, Frame.claimed, Frame.sop1, Frame.sop2, hb, hc]
          simp
  · rintro ⟨f, t, hf, rfl⟩
    exact f.frameDecodable_bytes hf t

/-! ## FRAME_DECODE -/

theorem judgeFrame_valid {f : Frame} (h : f.valid = true) : judgeFrame f = .frame f := by
  obtain ⟨-, hc⟩ := Frame.valid_iff.mp h
  have : checksum (f.header3 ++ f.payload) = f.claimed := BitVec.eq_of_toNat_eq (by rw [checksum_toNat, hc])
  simp [judgeFrame, this]

/-- Everything `judgeFrame` can answer on a frame of the right shape. -/
theorem judgeFrame_cases {f : Frame} (hs : f.shapeOk = true) :
    (f.valid = true ∧ judgeFrame f = .frame f) ∨
      (f.valid = false ∧ checksum (f.header3 ++ f.payload) ≠ f.claimed ∧
        judgeFrame f = .mismatch (checksum (f.header3 ++ f.payload)) f.claimed) := by
  by_cases h : checksum (f.header3 ++ f.payload) = f.claimed
  · exact .inl ⟨by simp [Frame.valid, hs, verify, h], by simp [judgeFrame, h]⟩
  · exact .inr ⟨by simp [Frame.valid, hs, verify, h], h, by simp [judgeFrame, h]⟩

/-- FRAME_DECODE on a frame's bytes and any surplus is the judgement of that frame (rules R147 to R149). -/
theorem frameDecode_bytes {f : Frame} (h : f.shapeOk = true) (t : ByteSeq) :
    frameDecode (f.bytes ++ t) = some (judgeFrame f) := by
  have hd := f.frameDecodable_bytes h t
  have hl := f.declaredLength_bytes t
  have hsh := Frame.shapeOk_iff.mp h
  cases f with
  | response rc sq l p c =>
    simp only [Frame.payload, Frame.length] at hsh
    have hb : (Frame.response rc sq l p c).bytes ++ t = 0xFF :: 0xFF :: rc :: sq :: l :: (p ++ c :: t) := by
      simp [Frame.bytes, Frame.header3, Frame.payload, Frame.claimed, Frame.sop1, Frame.sop2]
    rw [hb] at hd hl ⊢
    have h1 : memRead (0xFF :: 0xFF :: rc :: sq :: l :: (p ++ c :: t)) hdrSize (l.toNat - 1) = some p := by
      refine memRead_eq_some.mpr ⟨by simp [hdrSize]; omega, ?_⟩
      simp [hdrSize, ← hsh]
    have h2 : memRead (0xFF :: 0xFF :: rc :: sq :: l :: (p ++ c :: t)) 2 (l.toNat + 2) = some ([rc, sq, l] ++ p) := by
      refine memRead_eq_some.mpr ⟨by simp; omega, ?_⟩
      simp [← hsh]
    have h3 : (0xFF :: 0xFF :: rc :: sq :: l :: (p ++ c :: t))[l.toNat + 4]? = some c := by
      simp [← hsh]
    simp only [frameDecode, hd, if_true, hl, Frame.length, h1, h2, h3]
    by_cases hv : checksum ([rc, sq, l] ++ p) = c
    · have : verify ([rc, sq, l] ++ p) c = true := by rw [verify, hv, beq_self_eq_true]
      simp only [this, if_true, judgeFrame, Frame.header3, Frame.payload, Frame.claimed, hv]
    · have : verify ([rc, sq, l] ++ p) c = false := beq_false_of_ne hv
      simp only [this, judgeFrame, Frame.header3, Frame.payload, Frame.claimed, hv]
      simp
  | async ev l p c =>
    simp only [Frame.payload, Frame.length] at hsh
    set hi : Byte := BitVec.ofNat 8 (l.toNat / 256) with hhi
    set lo : Byte := BitVec.ofNat 8 (l.toNat % 256) with hlo
    have happ : (hi ++ lo : BitVec 16) = l := byteHigh_append_byteLow l
    have hb : (Frame.async ev l p c).bytes ++ t = 0xFF :: 0xFE :: ev :: hi :: lo :: (p ++ c :: t) := by
      simp [Frame.bytes, Frame.header3, Frame.payload, Frame.claimed, Frame.sop1, Frame.sop2, hhi, hlo]
    rw [hb] at hd hl ⊢
    have h1 : memRead (0xFF :: 0xFE :: ev :: hi :: lo :: (p ++ c :: t)) hdrSize (l.toNat - 1) = some p := by
      refine memRead_eq_some.mpr ⟨by simp [hdrSize]; omega, ?_⟩
      simp [hdrSize, ← hsh]
    have h2 : memRead (0xFF :: 0xFE :: ev :: hi :: lo :: (p ++ c :: t)) 2 (l.toNat + 2) = some ([ev, hi, lo] ++ p) := by
      refine memRead_eq_some.mpr ⟨by simp; omega, ?_⟩
      simp [← hsh]
    have h3 : (0xFF :: 0xFE :: ev :: hi :: lo :: (p ++ c :: t))[l.toNat + 4]? = some c := by
      simp [← hsh]
    have hne : (0xFE : Byte) ≠ 0xFF := by decide
    simp only [frameDecode, hd, if_true, hl, Frame.length, h1, h2, h3]
    by_cases hv : checksum ([ev, hi, lo] ++ p) = c
    · have : verify ([ev, hi, lo] ++ p) c = true := by rw [verify, hv, beq_self_eq_true]
      simp only [this, if_true, judgeFrame, Frame.header3, Frame.payload, Frame.claimed, ← hhi, ← hlo, hv, happ]
      simp
    · have : verify ([ev, hi, lo] ++ p) c = false := beq_false_of_ne hv
      simp only [this, judgeFrame, Frame.header3, Frame.payload, Frame.claimed, ← hhi, ← hlo, hv]
      simp

theorem frameDecode_none {b : ByteSeq} (h : frameDecodable b = false) : frameDecode b = none := by
  simp [frameDecode, h]

/-- FRAME_DECODE never makes a Frame that is not valid (rule R140). -/
theorem frameDecode_frame_valid {b : ByteSeq} {f : Frame} (h : frameDecode b = some (.frame f)) : f.valid = true := by
  by_cases hd : frameDecodable b = true
  · obtain ⟨g, t, hg, rfl⟩ := frameDecodable_iff_bytes.mp hd
    rw [frameDecode_bytes hg] at h
    obtain ⟨hv, hj⟩ | ⟨-, -, hj⟩ := judgeFrame_cases hg
    · simp_all
    · simp [hj] at h
  · simp [frameDecode_none (Bool.eq_false_iff.mpr hd)] at h

/-! ## DECODE_AND_CARRY -/

/-- The outcome of INGEST and the new `PARTIAL` after the judgement of a frame with a surplus (rules R168, R169). -/
def carry (f : Frame) (t : ByteSeq) : IngestOutcome × ByteSeq :=
  if f.valid = true then (.frame f, t) else (.mismatch (checksum (f.header3 ++ f.payload)) f.claimed, [])

theorem decodeAndCarry_bytes {f : Frame} (h : f.shapeOk = true) (t : ByteSeq) :
    decodeAndCarry (f.bytes ++ t) = some (carry f t) := by
  have hl : f.bytes.length ≠ hdrSize := by simp [f.bytes_length, hdrSize]
  have ht : (f.bytes ++ t).take f.bytes.length = f.bytes ++ [] := by simp
  simp only [decodeAndCarry, f.frameLen_bytes h t, hl, if_false, ht, frameDecode_bytes h]
  obtain ⟨hv, hj⟩ | ⟨hv, -, hj⟩ := judgeFrame_cases h
  · simp [carry, hv, hj]
  · simp [carry, hv, hj]

theorem decodeAndCarry_zero {b : ByteSeq} (h : frameLen b = some 5) :
    decodeAndCarry b = some (.none .zeroLength, []) := by simp [decodeAndCarry, h]

/-- A complete buffer has a declared length of 0 or is a frame and a surplus. -/
theorem complete_cases {b : ByteSeq} (h : complete b = true) :
    frameLen b = some 5 ∨ ∃ f t, Frame.shapeOk f = true ∧ b = f.bytes ++ t := by
  by_cases h5 : frameLen b = some 5
  · exact .inl h5
  · exact .inr (frameDecodable_iff_bytes.mp (frameDecodable_iff.mpr ⟨h, h5⟩))

/-! ## The five steps -/

/-- Step 1 (rule R164). -/
theorem ingestSteps_fresh {old chunk : ByteSeq} (h : complete chunk = true) :
    ingestSteps old chunk = decodeAndCarry chunk := by simp [ingestSteps, h]

/-- Step 3 (rule R166). -/
theorem ingestSteps_garbage {old chunk : ByteSeq} (hc : complete chunk = false)
    (h2 : 2 ≤ (old ++ chunk).length) (hs : sopsOk (old ++ chunk) = false) :
    ingestSteps old chunk = some (.none .garbage, []) := by
  simp only [ingestSteps, hc, h2, hs]; simp

/-- Step 4 (rule R167). -/
theorem ingestSteps_accumulated {old chunk : ByteSeq} (hc : complete chunk = false)
    (h : complete (old ++ chunk) = true) : ingestSteps old chunk = decodeAndCarry (old ++ chunk) := by
  have hs := (complete_iff.mp h).2.1
  simp only [ingestSteps, hc, hs, h]; simp

/-- Step 5 (rule R170). -/
theorem ingestSteps_pending {old chunk : ByteSeq} (hc : complete chunk = false)
    (h : complete (old ++ chunk) = false) (hs : (old ++ chunk).length < 2 ∨ sopsOk (old ++ chunk) = true) :
    ingestSteps old chunk = some (.none .pending, old ++ chunk) := by
  have : ¬ (2 ≤ (old ++ chunk).length ∧ sopsOk (old ++ chunk) = false) := by
    rintro ⟨h2, hf⟩
    rcases hs with hs | hs
    · omega
    · simp [hs] at hf
  simp only [ingestSteps, hc, h, this]; simp

/-- Everything the five steps can answer (rule R160). -/
theorem ingestSteps_cases (old chunk : ByteSeq) :
    (∃ f t, Frame.shapeOk f = true ∧ (chunk = f.bytes ++ t ∨ old ++ chunk = f.bytes ++ t) ∧
        ingestSteps old chunk = some (carry f t)) ∨
      ingestSteps old chunk = some (.none .zeroLength, []) ∨
      ingestSteps old chunk = some (.none .garbage, []) ∨
      (complete chunk = false ∧ complete (old ++ chunk) = false ∧
        ((old ++ chunk).length < 2 ∨ sopsOk (old ++ chunk) = true) ∧
        ingestSteps old chunk = some (.none .pending, old ++ chunk)) := by
  by_cases hc : complete chunk = true
  · rw [ingestSteps_fresh hc]
    obtain h5 | ⟨f, t, hf, rfl⟩ := complete_cases hc
    · exact .inr (.inl (decodeAndCarry_zero h5))
    · exact .inl ⟨f, t, hf, .inl rfl, decodeAndCarry_bytes hf t⟩
  · have hc : complete chunk = false := Bool.eq_false_iff.mpr hc
    by_cases hb : complete (old ++ chunk) = true
    · rw [ingestSteps_accumulated hc hb]
      obtain h5 | ⟨f, t, hf, he⟩ := complete_cases hb
      · exact .inr (.inl (decodeAndCarry_zero h5))
      · exact .inl ⟨f, t, hf, .inr he, by rw [he]; exact decodeAndCarry_bytes hf t⟩
    · have hb : complete (old ++ chunk) = false := Bool.eq_false_iff.mpr hb
      by_cases hs : (old ++ chunk).length < 2 ∨ sopsOk (old ++ chunk) = true
      · exact .inr (.inr (.inr ⟨hc, hb, hs, ingestSteps_pending hc hb hs⟩))
      · push Not at hs
        exact .inr (.inr (.inl (ingestSteps_garbage hc hs.1 (Bool.eq_false_iff.mpr hs.2))))

end Sys2Proof
end

