-- ==== Sys2Proof/Laws/State.lean ====
section
/-! SUPPORT. One lemma for each field and each named update of State and Walk, so that no proof unfolds a record
update. -/

namespace Sys2Proof.Machine

/-! ## State.respond -/
@[simp] theorem State.respond_params (s : State) (r : Result) : (s.respond r).params = s.params := rfl
@[simp] theorem State.respond_table (s : State) (r : Result) : (s.respond r).table = s.table := rfl
@[simp] theorem State.respond_tableUsed (s : State) (r : Result) : (s.respond r).tableUsed = s.tableUsed := rfl
@[simp] theorem State.respond_partialBuf (s : State) (r : Result) : (s.respond r).partialBuf = s.partialBuf := rfl
@[simp] theorem State.respond_walk (s : State) (r : Result) : (s.respond r).walk = s.walk := rfl
@[simp] theorem State.respond_port (s : State) (r : Result) : (s.respond r).port = s.port := rfl
@[simp] theorem State.respond_reply (s : State) (r : Result) : (s.respond r).reply = some ⟨r, []⟩ := rfl

/-! ## State.raiseMismatch -/

@[simp] theorem State.raiseMismatch_params (s : State) (x y : Byte) : (s.raiseMismatch x y).params = s.params := rfl
@[simp] theorem State.raiseMismatch_table (s : State) (x y : Byte) : (s.raiseMismatch x y).table = s.table := rfl
@[simp] theorem State.raiseMismatch_tableUsed (s : State) (x y : Byte) : (s.raiseMismatch x y).tableUsed = s.tableUsed := rfl
@[simp] theorem State.raiseMismatch_partialBuf (s : State) (x y : Byte) : (s.raiseMismatch x y).partialBuf = s.partialBuf := rfl
@[simp] theorem State.raiseMismatch_walk (s : State) (x y : Byte) : (s.raiseMismatch x y).walk = s.walk := rfl
@[simp] theorem State.raiseMismatch_port (s : State) (x y : Byte) : (s.raiseMismatch x y).port = s.port := rfl
@[simp] theorem State.raiseMismatch_reply (s : State) (x y : Byte) : (s.raiseMismatch x y).reply = some ⟨.checksumMismatch x y, [.checksumMismatch x y]⟩ := rfl

/-! ## State.progress -/

@[simp] theorem State.progress_running_params (s : State) (w : Walk) : (s.progress (.running w)).params = s.params := rfl
@[simp] theorem State.progress_running_table (s : State) (w : Walk) : (s.progress (.running w)).table = s.table := rfl
@[simp] theorem State.progress_running_tableUsed (s : State) (w : Walk) : (s.progress (.running w)).tableUsed = s.tableUsed := rfl
@[simp] theorem State.progress_running_partialBuf (s : State) (w : Walk) : (s.progress (.running w)).partialBuf = s.partialBuf := rfl
@[simp] theorem State.progress_running_walk (s : State) (w : Walk) : (s.progress (.running w)).walk = some w := rfl
@[simp] theorem State.progress_running_port (s : State) (w : Walk) : (s.progress (.running w)).port = s.port := rfl
@[simp] theorem State.progress_running_reply (s : State) (w : Walk) : (s.progress (.running w)).reply = s.reply := rfl
@[simp] theorem State.progress_finished_params (s : State) (r : Record) (notes : List Notification) : (s.progress (.finished r notes)).params = s.params := rfl
@[simp] theorem State.progress_finished_table (s : State) (r : Record) (notes : List Notification) : (s.progress (.finished r notes)).table = s.table := rfl
@[simp] theorem State.progress_finished_tableUsed (s : State) (r : Record) (notes : List Notification) : (s.progress (.finished r notes)).tableUsed = s.tableUsed := rfl
@[simp] theorem State.progress_finished_partialBuf (s : State) (r : Record) (notes : List Notification) : (s.progress (.finished r notes)).partialBuf = s.partialBuf := rfl
@[simp] theorem State.progress_finished_walk (s : State) (r : Record) (notes : List Notification) : (s.progress (.finished r notes)).walk = none := rfl
@[simp] theorem State.progress_finished_port (s : State) (r : Record) (notes : List Notification) : (s.progress (.finished r notes)).port = s.port := rfl
@[simp] theorem State.progress_finished_reply (s : State) (r : Record) (notes : List Notification) : (s.progress (.finished r notes)).reply = some ⟨.record r, notes⟩ := rfl

/-! ## Walk.put, Walk.raise, Walk.start -/

@[simp] theorem Walk.put_frame (w : Walk) (n : String) (v : Value) : (w.put n v).frame = w.frame := rfl
@[simp] theorem Walk.put_entry (w : Walk) (n : String) (v : Value) : (w.put n v).entry = w.entry := rfl
@[simp] theorem Walk.put_mask1 (w : Walk) (n : String) (v : Value) : (w.put n v).mask1 = w.mask1 := rfl
@[simp] theorem Walk.put_mask2 (w : Walk) (n : String) (v : Value) : (w.put n v).mask2 = w.mask2 := rfl
@[simp] theorem Walk.put_fi (w : Walk) (n : String) (v : Value) : (w.put n v).fi = w.fi := rfl
@[simp] theorem Walk.put_cur (w : Walk) (n : String) (v : Value) : (w.put n v).cur = w.cur := rfl
@[simp] theorem Walk.put_fields (w : Walk) (n : String) (v : Value) : (w.put n v).fields = putField n v w.fields := rfl
@[simp] theorem Walk.put_notes (w : Walk) (n : String) (v : Value) : (w.put n v).notes = w.notes := rfl
@[simp] theorem Walk.raise_frame (w : Walk) (n : String) (c : UnparseableCause) : (w.raise n c).frame = w.frame := rfl
@[simp] theorem Walk.raise_entry (w : Walk) (n : String) (c : UnparseableCause) : (w.raise n c).entry = w.entry := rfl
@[simp] theorem Walk.raise_mask1 (w : Walk) (n : String) (c : UnparseableCause) : (w.raise n c).mask1 = w.mask1 := rfl
@[simp] theorem Walk.raise_mask2 (w : Walk) (n : String) (c : UnparseableCause) : (w.raise n c).mask2 = w.mask2 := rfl
@[simp] theorem Walk.raise_fi (w : Walk) (n : String) (c : UnparseableCause) : (w.raise n c).fi = w.fi := rfl
@[simp] theorem Walk.raise_cur (w : Walk) (n : String) (c : UnparseableCause) : (w.raise n c).cur = w.cur := rfl
@[simp] theorem Walk.raise_fields (w : Walk) (n : String) (c : UnparseableCause) : (w.raise n c).fields = w.fields := rfl
@[simp] theorem Walk.raise_notes (w : Walk) (n : String) (c : UnparseableCause) : (w.raise n c).notes = w.notes ++ [.unparseableField n c] := rfl
@[simp] theorem Walk.start_frame (f : Frame) (e : Entry) (m1 m2 : Option Nat) : (Walk.start f e m1 m2).frame = f := rfl
@[simp] theorem Walk.start_entry (f : Frame) (e : Entry) (m1 m2 : Option Nat) : (Walk.start f e m1 m2).entry = e := rfl
@[simp] theorem Walk.start_mask1 (f : Frame) (e : Entry) (m1 m2 : Option Nat) : (Walk.start f e m1 m2).mask1 = m1 := rfl
@[simp] theorem Walk.start_mask2 (f : Frame) (e : Entry) (m1 m2 : Option Nat) : (Walk.start f e m1 m2).mask2 = m2 := rfl
@[simp] theorem Walk.start_fi (f : Frame) (e : Entry) (m1 m2 : Option Nat) : (Walk.start f e m1 m2).fi = 0 := rfl
@[simp] theorem Walk.start_cur (f : Frame) (e : Entry) (m1 m2 : Option Nat) : (Walk.start f e m1 m2).cur = 0 := rfl
@[simp] theorem Walk.start_fields (f : Frame) (e : Entry) (m1 m2 : Option Nat) : (Walk.start f e m1 m2).fields = [] := rfl
@[simp] theorem Walk.start_notes (f : Frame) (e : Entry) (m1 m2 : Option Nat) : (Walk.start f e m1 m2).notes = [] := rfl

end Sys2Proof.Machine
end

