-- ==== Sys2Proof/Laws/Assembler.lean ====
section
/-! SUPPORT. INGEST on the state: one lemma for each way it ends, and what every operation on `PARTIAL` keeps. -/

namespace Sys2Proof.Machine

theorem withinBound_iff {b : Option Nat} {n : Nat} : withinBound b n = true ↔ ∀ k, b = some k → n ≤ k := by
  cases b <;> simp [withinBound]

theorem withinBound_false {b : Option Nat} {n k : Nat} (h : b = some k) (hn : k < n) : withinBound b n = false := by
  simp [withinBound, h]; omega

@[simp] theorem withinBound_none (n : Nat) : withinBound none n = true := rfl

/-! ## PARTIAL keeps its form -/

theorem State.writePartial_ok {s : State} {b : ByteSeq} (h : Memory.wf s.params b = true) :
    s.writePartial b = .ok { s with partialBuf := b } := by simp [State.writePartial, h]

theorem State.writePartial_overflow {s : State} {b : ByteSeq} (h : Memory.wf s.params b = false) :
    s.writePartial b = .error .partialOverflow := by simp [State.writePartial, h]

/-- A write that succeeds gives exactly the bytes written, changes nothing else, and the result is legal (rule R66). -/
theorem State.writePartial_spec {s t : State} {b : ByteSeq} (h : s.writePartial b = .ok t) :
    t = { s with partialBuf := b } ∧ Memory.wf t.params t.partialBuf = true := by
  unfold State.writePartial at h
  split at h
  · cases h; exact ⟨rfl, ‹_›⟩
  · cases h

/-- Emptying `PARTIAL` is always legal. -/
theorem Memory.wf_nil (p : Params) : Memory.wf p [] = true := by
  simp only [Memory.wf, List.length_nil]
  cases p.partialCap <;> simp [withinBound]

theorem Memory.wf_reset : Memory.wf State.reset.params State.reset.partialBuf = true := Memory.wf_nil _

/-! ## INGEST on the state -/

/-- The five steps always answer (rule R160). -/
theorem ingestSteps_isSome (old chunk : ByteSeq) : ∃ o b, ingestSteps old chunk = some (o, b) := by
  obtain ⟨f, t, -, -, h⟩ | h | h | ⟨-, -, -, h⟩ := ingestSteps_cases old chunk <;> exact ⟨_, _, h⟩

theorem State.ingest_tooLong {s : State} {chunk : ByteSeq} (h : withinBound s.params.chunkMax chunk.length = false) :
    s.ingest chunk = .error .chunkTooLong := by simp [State.ingest, h]

theorem State.ingest_ok {s : State} {chunk b : ByteSeq} {o : IngestOutcome}
    (hm : withinBound s.params.chunkMax chunk.length = true) (hi : ingestSteps s.partialBuf chunk = some (o, b))
    (hw : Memory.wf s.params b = true) : s.ingest chunk = .ok (o, { s with partialBuf := b }) := by
  simp [State.ingest, hm, hi, State.writePartial_ok hw, Except.map]

theorem State.ingest_overflow {s : State} {chunk b : ByteSeq} {o : IngestOutcome}
    (hm : withinBound s.params.chunkMax chunk.length = true) (hi : ingestSteps s.partialBuf chunk = some (o, b))
    (hw : Memory.wf s.params b = false) : s.ingest chunk = .error .partialOverflow := by
  simp [State.ingest, hm, hi, State.writePartial_overflow hw, Except.map]

/-- Everything INGEST can do to the state. -/
theorem State.ingest_cases (s : State) (chunk : ByteSeq) :
    (s.ingest chunk = .error .chunkTooLong) ∨ (s.ingest chunk = .error .partialOverflow) ∨
      ∃ o b, withinBound s.params.chunkMax chunk.length = true ∧ ingestSteps s.partialBuf chunk = some (o, b) ∧
        Memory.wf s.params b = true ∧ s.ingest chunk = .ok (o, { s with partialBuf := b }) := by
  by_cases hm : withinBound s.params.chunkMax chunk.length = true
  · obtain ⟨o, b, hi⟩ := ingestSteps_isSome s.partialBuf chunk
    by_cases hw : Memory.wf s.params b = true
    · exact .inr (.inr ⟨o, b, hm, hi, hw, State.ingest_ok hm hi hw⟩)
    · exact .inr (.inl (State.ingest_overflow hm hi (Bool.eq_false_iff.mpr hw)))
  · exact .inl (State.ingest_tooLong (Bool.eq_false_iff.mpr hm))

/-- An INGEST that succeeds writes `PARTIAL` alone, legally, and a Frame it returns is valid (rules R32, R66, R140). -/
theorem State.ingest_spec {s t : State} {chunk : ByteSeq} {o : IngestOutcome} (h : s.ingest chunk = .ok (o, t)) :
    t = { s with partialBuf := t.partialBuf } ∧ Memory.wf t.params t.partialBuf = true ∧
      ∀ f, o = .frame f → f.valid = true := by
  obtain h' | h' | ⟨o', b, -, hi, hw, h'⟩ := s.ingest_cases chunk <;> rw [h'] at h
  · cases h
  · cases h
  · cases h
    refine ⟨rfl, hw, ?_⟩
    rintro f rfl
    obtain ⟨g, t, -, -, h⟩ | h | h | ⟨-, -, -, h⟩ := ingestSteps_cases s.partialBuf chunk <;> rw [h] at hi
    · simp only [carry] at hi
      split at hi <;> simp_all
    all_goals simp at hi

theorem execIngest_ok {s : State} {chunk b : ByteSeq} {o : IngestOutcome}
    (hm : withinBound s.params.chunkMax chunk.length = true) (hi : ingestSteps s.partialBuf chunk = some (o, b))
    (hw : Memory.wf s.params b = true) :
    execIngest chunk s = .next (({ s with partialBuf := b } : State).answerIngest o) := by
  simp [execIngest, State.ingest_ok hm hi hw]

theorem execIngest_refused {s : State} {chunk : ByteSeq} {r : Refusal} (h : s.ingest chunk = .error r) :
    execIngest chunk s = .refused r := by simp [execIngest, h]

/-! ## State.answerIngest, State.answerFrame: the reply alone is written -/

theorem State.answerIngest_spec (s : State) (o : IngestOutcome) :
    ∃ r, s.answerIngest o = { s with reply := some r } := by
  cases o <;> exact ⟨_, rfl⟩

theorem State.answerFrame_spec (s : State) (o : FrameOutcome) :
    ∃ r, s.answerFrame o = { s with reply := some r } := by
  cases o <;> exact ⟨_, rfl⟩

end Sys2Proof.Machine
end

