-- ==== Sys2Proof/Laws/Decode.lean ====
section
/-! SUPPORT. What the rows of the format FDESC match, in terms of the type code, and what the descriptor decoder
answers for each type. -/

namespace Sys2Proof

/-! ## The rows of FDESC on a word `hexflag * 256 + code` -/

theorem word_num : ∀ (h : BitVec 1) (c : BitVec 8), h ++ c &&& 0x1FF = 0x000 ↔ h = 0 ∧ c = 0 := by decide
theorem word_hex : ∀ (h : BitVec 1) (c : BitVec 8), h ++ c &&& 0x1FF = 0x100 ↔ h = 1 ∧ c = 0 := by decide
theorem word_text : ∀ (h : BitVec 1) (c : BitVec 8), h ++ c &&& 0x0FF = 0x001 ↔ c = 1 := by decide
theorem word_raw : ∀ (h : BitVec 1) (c : BitVec 8), h ++ c &&& 0x0FF = 0x002 ↔ c = 2 := by decide
theorem word_predef : ∀ (h : BitVec 1) (c : BitVec 8), h ++ c &&& 0x0FF = 0x003 ↔ c = 3 := by decide
theorem word_bitmask : ∀ (h : BitVec 1) (c : BitVec 8), h ++ c &&& 0x0FF = 0x004 ↔ c = 4 := by decide
theorem word_signed : ∀ (h : BitVec 1) (c : BitVec 8), h ++ c &&& 0x0FF = 0x005 ↔ c = 5 := by decide
theorem word_06 : ∀ (h : BitVec 1) (c : BitVec 8), h ++ c &&& 0x0FE = 0x006 ↔ c &&& 0xFE = 0x06 := by decide
theorem word_08 : ∀ (h : BitVec 1) (c : BitVec 8), h ++ c &&& 0x0F8 = 0x008 ↔ c &&& 0xF8 = 0x08 := by decide
theorem word_10 : ∀ (h : BitVec 1) (c : BitVec 8), h ++ c &&& 0x0F0 = 0x010 ↔ c &&& 0xF0 = 0x10 := by decide
theorem word_20 : ∀ (h : BitVec 1) (c : BitVec 8), h ++ c &&& 0x0E0 = 0x020 ↔ c &&& 0xE0 = 0x20 := by decide
theorem word_40 : ∀ (h : BitVec 1) (c : BitVec 8), h ++ c &&& 0x0C0 = 0x040 ↔ c &&& 0xC0 = 0x40 := by decide

theorem word_80 : ∀ (h : BitVec 1) (c : BitVec 8), h ++ c &&& 0x080 = 0x080 ↔ c &&& 0x80 = 0x80 := by decide

/-- The descriptor decoder by type code. -/
theorem decodeDescriptor_eq (d : Descriptor) : decodeDescriptor d =
    if hexflag d.format = 0 ∧ d.code = 0 then .ok (.fldNum d.name d.lo d.hi)
    else if hexflag d.format = 1 ∧ d.code = 0 then .ok (.fldHex d.name d.lo d.hi)
    else if d.code = 1 then .ok (.fldText d.name d.lo d.hi d.encoding)
    else if d.code = 2 then .ok (.fldRaw d.name d.lo d.hi)
    else if d.code = 3 then .ok (.fldPredef d.name d.lo d.hi d.pmask d.values)
    else if d.code = 4 then
      (maskRegOf d.reg).map fun r => .fldBitmask d.name r d.bit d.rangeBottom d.rangeTop d.units d.sensor
    else if d.code = 5 then .ok (.fldSigned d.name d.lo d.hi)
    else if d.code &&& 0xFE = 0x06 then .ok (.fldUnknown06 d.name d.code d.lo d.hi)
    else if d.code &&& 0xF8 = 0x08 then .ok (.fldUnknown08 d.name d.code d.lo d.hi)
    else if d.code &&& 0xF0 = 0x10 then .ok (.fldUnknown10 d.name d.code d.lo d.hi)
    else if d.code &&& 0xE0 = 0x20 then .ok (.fldUnknown20 d.name d.code d.lo d.hi)
    else if d.code &&& 0xC0 = 0x40 then .ok (.fldUnknown40 d.name d.code d.lo d.hi)
    else .ok (.fldUnknown80 d.name d.code d.lo d.hi) := by
  simp only [decodeDescriptor, Descriptor.word, word_num, word_hex, word_text, word_raw, word_predef, word_bitmask,
    word_signed, word_06, word_08, word_10, word_20, word_40]

/-- The blocks of FLD.UNKNOWN and the seven types cover every type code (rule R114). -/
theorem code_block : ∀ c : BitVec 8, 6 ≤ c.toNat → c &&& 0xFE ≠ 0x06 →
    c &&& 0xF8 ≠ 0x08 → c &&& 0xF0 ≠ 0x10 → c &&& 0xE0 ≠ 0x20 → c &&& 0xC0 ≠ 0x40 → c &&& 0x80 = 0x80 := by decide

/-- Each block of FLD.UNKNOWN is a range of type codes. -/
theorem block_06 : ∀ c : BitVec 8, c &&& 0xFE = 0x06 ↔ 0x06 ≤ c.toNat ∧ c.toNat ≤ 0x07 := by decide
theorem block_08 : ∀ c : BitVec 8, c &&& 0xF8 = 0x08 ↔ 0x08 ≤ c.toNat ∧ c.toNat ≤ 0x0F := by decide
theorem block_10 : ∀ c : BitVec 8, c &&& 0xF0 = 0x10 ↔ 0x10 ≤ c.toNat ∧ c.toNat ≤ 0x1F := by decide
theorem block_20 : ∀ c : BitVec 8, c &&& 0xE0 = 0x20 ↔ 0x20 ≤ c.toNat ∧ c.toNat ≤ 0x3F := by decide
theorem block_40 : ∀ c : BitVec 8, c &&& 0xC0 = 0x40 ↔ 0x40 ≤ c.toNat ∧ c.toNat ≤ 0x7F := by decide
theorem block_80 : ∀ c : BitVec 8, c &&& 0x80 = 0x80 ↔ 0x80 ≤ c.toNat := by decide

/-! ## The descriptor decoder, one lemma for each type -/

theorem decodeDescriptor_num {d : Descriptor} (h : d.code = 0) (hf : d.format = .none) :
    decodeDescriptor d = .ok (.fldNum d.name d.lo d.hi) := by simp [decodeDescriptor_eq, h, hf, hexflag]

theorem decodeDescriptor_hex {d : Descriptor} (h : d.code = 0) (hf : d.format = .hex) :
    decodeDescriptor d = .ok (.fldHex d.name d.lo d.hi) := by simp [decodeDescriptor_eq, h, hf, hexflag]

theorem decodeDescriptor_text {d : Descriptor} (h : d.code = 1) :
    decodeDescriptor d = .ok (.fldText d.name d.lo d.hi d.encoding) := by simp [decodeDescriptor_eq, h]

theorem decodeDescriptor_raw {d : Descriptor} (h : d.code = 2) :
    decodeDescriptor d = .ok (.fldRaw d.name d.lo d.hi) := by simp [decodeDescriptor_eq, h]

theorem decodeDescriptor_predef {d : Descriptor} (h : d.code = 3) :
    decodeDescriptor d = .ok (.fldPredef d.name d.lo d.hi d.pmask d.values) := by simp [decodeDescriptor_eq, h]

theorem decodeDescriptor_bitmask {d : Descriptor} (h : d.code = 4) :
    decodeDescriptor d =
      (maskRegOf d.reg).map fun r => .fldBitmask d.name r d.bit d.rangeBottom d.rangeTop d.units d.sensor := by
  simp [decodeDescriptor_eq, h]

theorem decodeDescriptor_signed {d : Descriptor} (h : d.code = 5) :
    decodeDescriptor d = .ok (.fldSigned d.name d.lo d.hi) := by simp [decodeDescriptor_eq, h]

/-- What an instruction of FLD.UNKNOWN decoded from `d` looks like: one of the six rows. -/
def isUnknownOf (d : Descriptor) (i : Instr) : Prop :=
  i = .fldUnknown06 d.name d.code d.lo d.hi ∨ i = .fldUnknown08 d.name d.code d.lo d.hi ∨
    i = .fldUnknown10 d.name d.code d.lo d.hi ∨ i = .fldUnknown20 d.name d.code d.lo d.hi ∨
    i = .fldUnknown40 d.name d.code d.lo d.hi ∨ i = .fldUnknown80 d.name d.code d.lo d.hi

/-- Every type code from `0x06` up decodes to the FLD.UNKNOWN of its block, with the code (rules R104, R114). -/
theorem decodeDescriptor_unknown {d : Descriptor} (h : 6 ≤ d.code.toNat) :
    ∃ i, decodeDescriptor d = .ok i ∧ i.wf = true ∧ isUnknownOf d i := by
  have hne : ∀ k : BitVec 8, k.toNat < 6 → d.code ≠ k := fun k hk e => by rw [e] at h; omega
  have h0 := hne 0 (by decide); have h1 := hne 1 (by decide); have h2 := hne 2 (by decide)
  have h3 := hne 3 (by decide); have h4 := hne 4 (by decide); have h5 := hne 5 (by decide)
  simp only [decodeDescriptor_eq, h0, h1, h2, h3, h4, h5, and_false, if_false]
  by_cases b1 : d.code &&& 0xFE = 0x06
  · exact ⟨_, if_pos b1, beq_iff_eq.mpr b1, .inl rfl⟩
  by_cases b2 : d.code &&& 0xF8 = 0x08
  · exact ⟨_, by rw [if_neg b1, if_pos b2], by exact beq_iff_eq.mpr b2, .inr (.inl rfl)⟩
  by_cases b3 : d.code &&& 0xF0 = 0x10
  · exact ⟨_, by rw [if_neg b1, if_neg b2, if_pos b3], by exact beq_iff_eq.mpr b3, .inr (.inr (.inl rfl))⟩
  by_cases b4 : d.code &&& 0xE0 = 0x20
  · exact ⟨_, by rw [if_neg b1, if_neg b2, if_neg b3, if_pos b4], by exact beq_iff_eq.mpr b4,
      .inr (.inr (.inr (.inl rfl)))⟩
  by_cases b5 : d.code &&& 0xC0 = 0x40
  · exact ⟨_, by rw [if_neg b1, if_neg b2, if_neg b3, if_neg b4, if_pos b5], by exact beq_iff_eq.mpr b5,
      .inr (.inr (.inr (.inr (.inl rfl))))⟩
  · have := code_block _ h b1 b2 b3 b4 b5
    exact ⟨_, by rw [if_neg b1, if_neg b2, if_neg b3, if_neg b4, if_neg b5], by exact beq_iff_eq.mpr this,
      .inr (.inr (.inr (.inr (.inr rfl))))⟩

/-- Everything the descriptor decoder can answer, by type code. -/
theorem decodeDescriptor_cases {d : Descriptor} {i : Instr} (h : decodeDescriptor d = .ok i) :
    (d.code = 0 ∧ d.format = .none ∧ i = .fldNum d.name d.lo d.hi) ∨
      (d.code = 0 ∧ d.format = .hex ∧ i = .fldHex d.name d.lo d.hi) ∨
      (d.code = 1 ∧ i = .fldText d.name d.lo d.hi d.encoding) ∨ (d.code = 2 ∧ i = .fldRaw d.name d.lo d.hi) ∨
      (d.code = 3 ∧ i = .fldPredef d.name d.lo d.hi d.pmask d.values) ∨
      (∃ r, d.code = 4 ∧ maskRegOf d.reg = .ok r ∧
        i = .fldBitmask d.name r d.bit d.rangeBottom d.rangeTop d.units d.sensor) ∨
      (d.code = 5 ∧ i = .fldSigned d.name d.lo d.hi) ∨
      (6 ≤ d.code.toNat ∧ i.wf = true ∧ isUnknownOf d i) := by
  by_cases h6 : 6 ≤ d.code.toNat
  · obtain ⟨j, hj, hw, hu⟩ := decodeDescriptor_unknown h6
    rw [hj] at h; cases h
    simp [h6, hw, hu]
  · have key : ∀ c : BitVec 8, ¬ 6 ≤ c.toNat → c = 0 ∨ c = 1 ∨ c = 2 ∨ c = 3 ∨ c = 4 ∨ c = 5 := by decide
    rcases key _ h6 with hc | hc | hc | hc | hc | hc
    · cases hf : d.format
      · rw [decodeDescriptor_num hc hf] at h; cases h; exact .inl ⟨hc, rfl, rfl⟩
      · rw [decodeDescriptor_hex hc hf] at h; cases h; exact .inr (.inl ⟨hc, rfl, rfl⟩)
    · rw [decodeDescriptor_text hc] at h; cases h; exact .inr (.inr (.inl ⟨hc, rfl⟩))
    · rw [decodeDescriptor_raw hc] at h; cases h; exact .inr (.inr (.inr (.inl ⟨hc, rfl⟩)))
    · rw [decodeDescriptor_predef hc] at h; cases h; exact .inr (.inr (.inr (.inr (.inl ⟨hc, rfl⟩))))
    · rw [decodeDescriptor_bitmask hc] at h
      cases hr : maskRegOf d.reg with
      | error e => rw [hr] at h; cases h
      | ok r => rw [hr] at h; cases h; exact .inr (.inr (.inr (.inr (.inr (.inl ⟨r, hc, rfl, rfl⟩)))))
    · rw [decodeDescriptor_signed hc] at h; cases h
      exact .inr (.inr (.inr (.inr (.inr (.inr (.inl ⟨hc, rfl⟩))))))

end Sys2Proof
end

