-- ==== Sys2Proof/Laws/PerInstr.lean ====
section
/-! SUPPORT. The family TableWord, one lemma for each constructor of Instr: the word of a well-formed instruction's
encoding matches the instruction's own row of spec/opcode_table.json under its mask (30_encoding.md rule R113). -/

namespace Sys2Proof.Laws.TableWord

open Sys2Proof

/-- The encoded word of a well-formed instruction matches its row. -/
def Statement (i : Instr) : Prop := i.wf = true → (encode i).word &&& i.row.2 = i.row.1

/-- The row of an instruction and the word of its encoding, as numbers, settle its statement. -/
theorem of_word {i : Instr} {v m : Nat} (hr : i.row = (v, m)) (hw : (encode i).word = v) (hv : (v &&& m == v) = true) :
    Statement i := fun _ => by
  rw [hw, hr]; exact eq_of_beq hv

/-- The row of a descriptor type, and the format and type code it is encoded with, settle its statement. -/
theorem of_descriptor {i : Instr} {v m : Nat} {d : Descriptor} (f : NumFormat) (c : BitVec 8)
    (hv : (hexflag f ++ c).toNat = v ∧ v &&& m = v) (hr : i.row = (v, m)) (he : encode i = .fdesc d)
    (hd : d.format = f ∧ d.code = c) : Statement i := fun _ => by
  obtain ⟨rfl, rfl⟩ := hd
  rw [he, hr]
  exact hv.1 ▸ hv.2

theorem reset : Statement .reset := of_word rfl rfl rfl
theorem checksum (s : ByteSeq) : Statement (.checksum s) := of_word rfl rfl rfl
theorem verify (s : ByteSeq) (c : Byte) : Statement (.verify s c) := of_word rfl rfl rfl
theorem headerKind (b : ByteSeq) : Statement (.headerKind b) := of_word rfl rfl rfl
theorem declaredLength (b : ByteSeq) : Statement (.declaredLength b) := of_word rfl rfl rfl
theorem frameDecode (b : ByteSeq) : Statement (.frameDecode b) := of_word rfl rfl rfl
theorem ingest (c : ByteSeq) : Statement (.ingest c) := of_word rfl rfl rfl
theorem decodeRecord (f : Frame) (k : Option RespKey) (m1 m2 : Option Nat) :
    Statement (.decodeRecord f k m1 m2) := of_word rfl rfl rfl
theorem decode (c : ByteSeq) (k : Option RespKey) (m1 m2 : Option Nat) : Statement (.decode c k m1 m2) :=
  of_word rfl rfl rfl
theorem buildFrame (d c : Option Byte) (sq : Byte) (p : ByteSeq) : Statement (.buildFrame d c sq p) :=
  of_word rfl rfl rfl
theorem frameResponse (rc sq : Byte) (l : BitVec 8) (p : ByteSeq) (c : Byte) :
    Statement (.frameResponse rc sq l p c) := of_word rfl rfl rfl
theorem frameAsync (ev : Byte) (l : BitVec 16) (p : ByteSeq) (c : Byte) :
    Statement (.frameAsync ev l p c) := of_word rfl rfl rfl
theorem frameCommand (d c sq : Byte) (p : ByteSeq) : Statement (.frameCommand d c sq p) :=
  of_word rfl rfl rfl
theorem fldNum (n : String) (lo hi : Nat) : Statement (.fldNum n lo hi) :=
  of_descriptor .none 0x00 (by decide) rfl rfl ⟨rfl, rfl⟩
theorem fldHex (n : String) (lo hi : Nat) : Statement (.fldHex n lo hi) :=
  of_descriptor .hex 0x00 (by decide) rfl rfl ⟨rfl, rfl⟩
theorem fldText (n : String) (lo hi : Nat) (e : String) : Statement (.fldText n lo hi e) :=
  of_descriptor .none 0x01 (by decide) rfl rfl ⟨rfl, rfl⟩
theorem fldRaw (n : String) (lo hi : Nat) : Statement (.fldRaw n lo hi) :=
  of_descriptor .none 0x02 (by decide) rfl rfl ⟨rfl, rfl⟩
theorem fldPredef (n : String) (lo hi : Nat) (pm : Option Nat) (vs : List (Nat × String)) :
    Statement (.fldPredef n lo hi pm vs) :=
  of_descriptor .none 0x03 (by decide) rfl rfl ⟨rfl, rfl⟩
theorem fldBitmask (n : String) (r : MaskReg) (b : Nat) (rb rt : Int) (u se : String) :
    Statement (.fldBitmask n r b rb rt u se) :=
  of_descriptor .none 0x04 (by decide) rfl rfl ⟨rfl, rfl⟩
theorem fldSigned (n : String) (lo hi : Nat) : Statement (.fldSigned n lo hi) :=
  of_descriptor .none 0x05 (by decide) rfl rfl ⟨rfl, rfl⟩

/-- A match on a 9-bit word is a match on its number. -/
theorem word_toNat {w m v : BitVec 9} (h : w &&& m = v) : w.toNat &&& m.toNat = v.toNat := by
  rw [← BitVec.toNat_and, h]

theorem fldUnknown06 (n : String) (c : BitVec 8) (lo hi : Nat) : Statement (.fldUnknown06 n c lo hi) := fun h =>
  word_toNat ((word_06 (hexflag .none) c).mpr (eq_of_beq h))
theorem fldUnknown08 (n : String) (c : BitVec 8) (lo hi : Nat) : Statement (.fldUnknown08 n c lo hi) := fun h =>
  word_toNat ((word_08 (hexflag .none) c).mpr (eq_of_beq h))
theorem fldUnknown10 (n : String) (c : BitVec 8) (lo hi : Nat) : Statement (.fldUnknown10 n c lo hi) := fun h =>
  word_toNat ((word_10 (hexflag .none) c).mpr (eq_of_beq h))
theorem fldUnknown20 (n : String) (c : BitVec 8) (lo hi : Nat) : Statement (.fldUnknown20 n c lo hi) := fun h =>
  word_toNat ((word_20 (hexflag .none) c).mpr (eq_of_beq h))
theorem fldUnknown40 (n : String) (c : BitVec 8) (lo hi : Nat) : Statement (.fldUnknown40 n c lo hi) := fun h =>
  word_toNat ((word_40 (hexflag .none) c).mpr (eq_of_beq h))
theorem fldUnknown80 (n : String) (c : BitVec 8) (lo hi : Nat) : Statement (.fldUnknown80 n c lo hi) := fun h =>
  word_toNat ((word_80 (hexflag .none) c).mpr (eq_of_beq h))

end Sys2Proof.Laws.TableWord
end

