-- ==== Sys2Proof/Laws/Walk.lean ====
section
/-! SUPPORT. The descriptor walk: what each shared operation can do, what a descriptor does to a walk of its mode, and
the run of a walk. -/

namespace Sys2Proof.Machine

/-! ## The running record -/

/-- A new name goes last (rules R40, R221). -/
theorem putField_new {n : String} {v : Value} {m : FieldMap} (h : n ∉ m.map Prod.fst) :
    putField n v m = m ++ [(n, v)] := by
  induction m with
  | nil => rfl
  | cons x r ih =>
    obtain ⟨a, b⟩ := x
    simp only [List.map_cons, List.mem_cons, not_or] at h
    simp [putField, Ne.symm h.1, ih h.2]

theorem lookup_putField (n k : String) (v : Value) (m : FieldMap) :
    (putField n v m).lookup k = if k = n then some v else m.lookup k := by
  have ne : ∀ {x : String}, ¬ k = x → (k == x) = false := beq_false_of_ne
  induction m with
  | nil => by_cases h : k = n <;> simp [putField, List.lookup, h, ne]
  | cons x r ih =>
    obtain ⟨a, b⟩ := x
    by_cases ha : a = n
    · subst ha
      by_cases h : k = a <;> simp [putField, List.lookup, h, ne]
    · by_cases h : k = a
      · subst h; simp [putField, List.lookup, ha]
      · simp [putField, List.lookup, ha, ih, ne h]

/-- What is in the record after a store: the new value, or an old entry. -/
theorem mem_putField {x : String × Value} {n : String} {v : Value} {m : FieldMap} (h : x ∈ putField n v m) :
    x = (n, v) ∨ x ∈ m := by
  induction m with
  | nil => simpa [putField] using h
  | cons y r ih =>
    obtain ⟨a, b⟩ := y
    by_cases ha : a = n
    · simp only [putField, ha, if_true, List.mem_cons] at h ⊢; tauto
    · simp only [putField, ha, if_false, List.mem_cons] at h ⊢
      rcases h with h | h
      · exact .inr (.inl h)
      · rcases ih h with h | h
        · exact .inl h
        · exact .inr (.inr h)

/-! ## The end of the list and the restart -/

theorem requiresMask_iff {p : Params} {e : Entry} : requiresMask p e = true ↔ e.key = .async p.streamEventId := by
  simp [requiresMask]

theorem requiresMask_false {p : Params} {e : Entry} : requiresMask p e = false ↔ e.key ≠ .async p.streamEventId := by
  simp [requiresMask]

theorem Walk.settle_running {p : Params} {w : Walk} (h : w.fi < w.entry.fields.length) :
    w.settle p = .running w := by simp [Walk.settle, h]

theorem Walk.settle_restart {p : Params} {w : Walk} (h : w.entry.fields.length ≤ w.fi)
    (hm : requiresMask p w.entry = true) (hc : w.cur < w.payload.length) :
    w.settle p = .running { w with fi := 0 } := by simp [Walk.settle, Nat.not_lt.mpr h, hm, hc]

theorem Walk.settle_finish {p : Params} {w : Walk} (h : w.entry.fields.length ≤ w.fi)
    (hm : requiresMask p w.entry = false ∨ w.payload.length ≤ w.cur) : w.settle p = w.finish p := by
  have : ¬ (requiresMask p w.entry = true ∧ w.cur < w.payload.length) := by
    rintro ⟨h1, h2⟩
    rcases hm with hm | hm
    · simp [hm] at h1
    · omega
  simp [Walk.settle, Nat.not_lt.mpr h, this]

/-- Everything `settle` can do: go on at `FI`, restart at 0 in mask-driven mode, or end. -/
theorem Walk.settle_cases (p : Params) (w : Walk) :
    (w.fi < w.entry.fields.length ∧ w.settle p = .running w) ∨
      (w.entry.fields.length ≤ w.fi ∧ requiresMask p w.entry = true ∧ w.cur < w.payload.length ∧
        w.settle p = .running { w with fi := 0 }) ∨
      (w.entry.fields.length ≤ w.fi ∧ (requiresMask p w.entry = false ∨ w.payload.length ≤ w.cur) ∧
        w.settle p = w.finish p) := by
  by_cases h : w.fi < w.entry.fields.length
  · exact .inl ⟨h, Walk.settle_running h⟩
  · have h := Nat.not_lt.mp h
    by_cases hm : requiresMask p w.entry = true
    · by_cases hc : w.cur < w.payload.length
      · exact .inr (.inl ⟨h, hm, hc, Walk.settle_restart h hm hc⟩)
      · exact .inr (.inr ⟨h, .inr (Nat.not_lt.mp hc), Walk.settle_finish h (.inr (Nat.not_lt.mp hc))⟩)
    · exact .inr (.inr ⟨h, .inl (Bool.eq_false_iff.mpr hm), Walk.settle_finish h (.inl (Bool.eq_false_iff.mpr hm))⟩)

/-! ## A field step on the state -/

theorem State.inWalk_none {s : State} {f : Walk → Except Refusal Progress} (h : s.walk = none) :
    s.inWalk f = .refused .noWalk := by simp [State.inWalk, h]

theorem State.inWalk_ok {s : State} {w : Walk} {g : Progress} {f : Walk → Except Refusal Progress}
    (h : s.walk = some w) (hf : f w = .ok g) : s.inWalk f = .next (s.progress g) := by simp [State.inWalk, h, hf]

theorem State.inWalk_error {s : State} {w : Walk} {r : Refusal} {f : Walk → Except Refusal Progress}
    (h : s.walk = some w) (hf : f w = .error r) : s.inWalk f = .refused r := by simp [State.inWalk, h, hf]

/-- A field step that succeeds had a walk and is the progress of it. -/
theorem State.inWalk_next {s t : State} {f : Walk → Except Refusal Progress} (h : s.inWalk f = .next t) :
    ∃ w g, s.walk = some w ∧ f w = .ok g ∧ t = s.progress g := by
  unfold State.inWalk at h
  split at h
  · cases h
  · rename_i w hw
    split at h
    · rename_i g hg; cases h; exact ⟨w, g, hw, hg, rfl⟩
    · cases h

/-- Progress writes the walk and the reply alone. -/
theorem State.progress_spec (s : State) (g : Progress) :
    ∃ w r, s.progress g = { s with walk := w, reply := r } := by
  cases g <;> exact ⟨_, _, rfl⟩

/-! ## The field steps of the two modes -/

/-- `FIXED_FIELD` inside the payload. -/
theorem fixedField_in {p : Params} {name : String} {lo hi : Nat} {ok : Bool} {value : ByteSeq → Value} {w : Walk}
    (ha : ok = true) (hm : requiresMask p w.entry = false) (hl : lo ≤ hi) (h : hi ≤ w.payload.length) :
    fixedField p name lo hi ok value w =
      .ok ((w.put name (value ((w.payload.drop lo).take (hi - lo)))).advance p) := by
  simp [fixedField, ha, hm, memRead_of_le (b := w.payload) (a := lo) (n := hi - lo) (by omega)]

/-- `FIXED_FIELD` past the payload. -/
theorem fixedField_out {p : Params} {name : String} {lo hi : Nat} {ok : Bool} {value : ByteSeq → Value} {w : Walk}
    (ha : ok = true) (hm : requiresMask p w.entry = false) (hl : lo ≤ hi) (h : w.payload.length < hi) :
    fixedField p name lo hi ok value w =
      .ok (((w.raise name .outOfRange).put name (.fieldError .outOfRange)).advance p) := by
  simp [fixedField, ha, hm, memRead_of_lt (b := w.payload) (a := lo) (n := hi - lo) (by omega)]

/-- A fixed field step that succeeds stores one value under the name and raises at most one notification. -/
theorem fixedField_ok {p : Params} {name : String} {lo hi : Nat} {ok : Bool} {value : ByteSeq → Value} {w : Walk}
    {g : Progress} (h : fixedField p name lo hi ok value w = .ok g) :
    requiresMask p w.entry = false ∧
      ∃ v notes, g = ({ w with fields := putField name v w.fields, notes := w.notes ++ notes } : Walk).advance p := by
  unfold fixedField at h
  split at h
  · cases h
  · split at h
    · cases h
    · rename_i hm
      refine ⟨Bool.eq_false_iff.mpr hm, ?_⟩
      split at h <;> cases h
      · exact ⟨_, [], by rw [List.append_nil]; rfl⟩
      · exact ⟨_, _, rfl⟩

theorem unknownField_eq {p : Params} {name : String} {code : BitVec 8} {ok : Bool} {w : Walk} (ha : ok = true)
    (hm : requiresMask p w.entry = false) :
    unknownField p name code ok w =
      .ok (((w.raise name (.unknownType code)).put name (.fieldError (.unparseable code))).advance p) := by
  simp [unknownField, ha, hm]

theorem unknownField_ok {p : Params} {name : String} {code : BitVec 8} {ok : Bool} {w : Walk} {g : Progress}
    (h : unknownField p name code ok w = .ok g) :
    requiresMask p w.entry = false ∧
      ∃ v notes, g = ({ w with fields := putField name v w.fields, notes := w.notes ++ notes } : Walk).advance p := by
  unfold unknownField at h
  split at h
  · cases h
  · split at h
    · cases h
    · rename_i hm
      cases h
      exact ⟨Bool.eq_false_iff.mpr hm, _, _, rfl⟩

theorem maskBit_eq_testBit (m bit : Nat) : maskBit m bit = m.testBit bit := by
  simp only [maskBit, Nat.testBit, Nat.and_comm 1, Nat.and_one_is_mod]
  rcases Nat.mod_two_eq_zero_or_one (m >>> bit) with h | h <;> simp [h]

/-- `MASK_WALK` at an inactive field. -/
theorem ringField_inactive {p : Params} {name : String} {reg : MaskReg} {bit m : Nat} {fresh : Samples} {w : Walk}
    (hb : bit < p.maskWidth) (hm : requiresMask p w.entry = true) (hr : w.mask reg = some m)
    (ha : maskBit m bit = false) : ringField p name reg bit fresh w = .ok (w.advance p) := by
  simp [ringField, hb, hm, hr, ha]

/-- `MASK_WALK` at an active field with fewer than 2 bytes left. -/
theorem ringField_short {p : Params} {name : String} {reg : MaskReg} {bit m : Nat} {fresh : Samples} {w : Walk}
    (hb : bit < p.maskWidth) (hm : requiresMask p w.entry = true) (hr : w.mask reg = some m)
    (ha : maskBit m bit = true) (hc : w.payload.length < w.cur + 2) :
    ringField p name reg bit fresh w = .ok (w.finish p) := by
  simp [ringField, hb, hm, hr, ha, sampleBytes, memRead_of_lt hc]

/-- `MASK_WALK` at an active field with a sample left. -/
theorem ringField_sample {p : Params} {name : String} {reg : MaskReg} {bit m : Nat} {fresh : Samples} {w : Walk}
    {v : Value} (hb : bit < p.maskWidth) (hm : requiresMask p w.entry = true) (hr : w.mask reg = some m)
    (ha : maskBit m bit = true) (hc : w.cur + 2 ≤ w.payload.length)
    (hv : sampleValue fresh (be ((w.payload.drop w.cur).take 2)) (w.fields.lookup name) = some v) :
    ringField p name reg bit fresh w = .ok (({ w.put name v with cur := w.cur + 2 } : Walk).advance p) := by
  simp [ringField, hb, hm, hr, ha, sampleBytes, memRead_of_le hc, hv]

/-- A ring step that succeeds: it skips, it ends the walk, or it stores one sample list and takes 2 bytes. -/
theorem ringField_ok {p : Params} {name : String} {reg : MaskReg} {bit : Nat} {fresh : Samples} {w : Walk}
    {g : Progress} (h : ringField p name reg bit fresh w = .ok g) :
    requiresMask p w.entry = true ∧
      (g = w.advance p ∨ g = w.finish p ∨
        ∃ l, w.cur + 2 ≤ w.payload.length ∧
          g = ({ w with fields := putField name (.samples l) w.fields, cur := w.cur + 2 } : Walk).advance p) := by
  unfold ringField at h
  split at h
  · cases h
  · split at h
    · cases h
    · rename_i hm
      refine ⟨by simpa using hm, ?_⟩
      split at h
      · cases h
      · split at h
        · split at h
          · cases h; exact .inr (.inl rfl)
          · rename_i hr
            split at h
            · cases h
            · rename_i v hv
              cases h
              obtain ⟨l, rfl⟩ : ∃ l, v = .samples l := by
                revert hv
                cases w.fields.lookup name with
                | none => intro hv; cases hv; exact ⟨_, rfl⟩
                | some o => cases o <;> intro hv <;> cases hv; exact ⟨_, rfl⟩
              exact .inr (.inr ⟨l, (memRead_eq_some.mp hr).1, rfl⟩)
        · cases h; exact .inl rfl

end Sys2Proof.Machine
end

