-- ==== Sys2Proof/Laws/Step.lean ====
section
/-! SUPPORT. What a meaning, a walk and a step can do to the state as a whole: which fields they can write, and how a
step comes to its answer. -/

namespace Sys2Proof.Machine

/-! ## Field steps -/

/-- A field instruction that goes on is progress of the walk in progress, and writes the walk and the reply alone. -/
theorem execField_next {i : Instr} {s t : State} (h : execField i s = .next t) :
    ∃ w r, t = { s with walk := w, reply := r } := by
  have key : ∀ f : Walk → Except Refusal Progress, s.inWalk f = .next t →
      ∃ w r, t = { s with walk := w, reply := r } := by
    intro f hf
    obtain ⟨w, g, -, -, rfl⟩ := State.inWalk_next hf
    exact s.progress_spec g
  cases i <;> first | exact key _ h | cases h

/-- The Field Codec's dispatch is the machine's on every descriptor. -/
theorem execField_eq_exec {d : Descriptor} {i : Instr} (h : decodeDescriptor d = .ok i) (s : State) :
    execField i s = exec i s := by
  rcases decodeDescriptor_cases h with ⟨_, _, rfl⟩ | ⟨_, _, rfl⟩ | ⟨_, rfl⟩ | ⟨_, rfl⟩ | ⟨_, rfl⟩ | ⟨_, _, _, rfl⟩ |
    ⟨_, rfl⟩ | ⟨_, _, rfl | rfl | rfl | rfl | rfl | rfl⟩ <;> rfl

theorem Walk.fetch_eq (w : Walk) : w.fetch = (w.entry.fields[w.fi]?).map decodeDescriptor := rfl

/-- A field step of DECODE_RECORD is the step of the machine in the same walk (rules R37, R284). -/
theorem fieldStep_eq_stepWalk (w : Walk) (s : State) : fieldStep w s = stepWalk w s := by
  unfold fieldStep stepWalk
  rw [Walk.fetch_eq]
  cases hd : w.entry.fields[w.fi]? with
  | none => rfl
  | some d =>
    simp only [Option.map_some]
    cases hi : decodeDescriptor d with
    | error e => rfl
    | ok i => exact execField_eq_exec hi s

theorem fieldStep_next {w : Walk} {s t : State} (h : fieldStep w s = .next t) :
    ∃ w r, t = { s with walk := w, reply := r } := by
  unfold fieldStep at h
  split at h
  · cases h; exact s.progress_spec _
  · cases h
  · exact execField_next h

/-- Everything a descriptor that goes on can do to the walk in progress: in fixed-offset mode it stores a value under
its name; in mask-driven mode it skips, ends the walk, or stores a sample list and takes 2 bytes. -/
theorem exec_descriptor_next {d : Descriptor} {i : Instr} {s t : State} (hd : decodeDescriptor d = .ok i)
    (h : exec i s = .next t) :
    ∃ w, s.walk = some w ∧
      ((requiresMask s.params w.entry = false ∧
          ∃ v notes, t = s.progress
            (({ w with fields := putField d.name v w.fields, notes := w.notes ++ notes } : Walk).advance s.params)) ∨
        (requiresMask s.params w.entry = true ∧
          (t = s.progress (w.advance s.params) ∨ t = s.progress (w.finish s.params) ∨
            ∃ l, w.cur + 2 ≤ w.payload.length ∧ t = s.progress
              (({ w with fields := putField d.name (.samples l) w.fields, cur := w.cur + 2 } : Walk).advance
                s.params)))) := by
  have fixed : ∀ {lo hi ok value}, s.inWalk (fixedField s.params d.name lo hi ok value) = .next t →
      ∃ w, s.walk = some w ∧ requiresMask s.params w.entry = false ∧
        ∃ v notes, t = s.progress
          (({ w with fields := putField d.name v w.fields, notes := w.notes ++ notes } : Walk).advance s.params) := by
    intro lo hi ok value hf
    obtain ⟨w, g, hw, hg, rfl⟩ := State.inWalk_next hf
    obtain ⟨hm, v, notes, rfl⟩ := fixedField_ok hg
    exact ⟨w, hw, hm, v, notes, rfl⟩
  have unknown : ∀ {code ok}, s.inWalk (unknownField s.params d.name code ok) = .next t →
      ∃ w, s.walk = some w ∧ requiresMask s.params w.entry = false ∧
        ∃ v notes, t = s.progress
          (({ w with fields := putField d.name v w.fields, notes := w.notes ++ notes } : Walk).advance s.params) := by
    intro code ok hf
    obtain ⟨w, g, hw, hg, rfl⟩ := State.inWalk_next hf
    obtain ⟨hm, v, notes, rfl⟩ := unknownField_ok hg
    exact ⟨w, hw, hm, v, notes, rfl⟩
  rcases decodeDescriptor_cases hd with ⟨_, _, rfl⟩ | ⟨_, _, rfl⟩ | ⟨_, rfl⟩ | ⟨_, rfl⟩ | ⟨_, rfl⟩ | ⟨_, _, _, rfl⟩ |
    ⟨_, rfl⟩ | ⟨_, _, rfl | rfl | rfl | rfl | rfl | rfl⟩
  case inr.inr.inr.inr.inr.inl =>
    obtain ⟨w, g, hw, hg, rfl⟩ := State.inWalk_next h
    obtain ⟨hm, rfl | rfl | ⟨l, hc, rfl⟩⟩ := ringField_ok hg
    · exact ⟨w, hw, .inr ⟨hm, .inl rfl⟩⟩
    · exact ⟨w, hw, .inr ⟨hm, .inr (.inl rfl)⟩⟩
    · exact ⟨w, hw, .inr ⟨hm, .inr (.inr ⟨l, hc, rfl⟩)⟩⟩
  all_goals
    obtain ⟨w, hw, hm⟩ : ∃ w, s.walk = some w ∧ requiresMask s.params w.entry = false ∧
        ∃ v notes, t = s.progress
          (({ w with fields := putField d.name v w.fields, notes := w.notes ++ notes } : Walk).advance s.params) := by
      first | exact fixed h | exact unknown h
    exact ⟨w, hw, .inl hm⟩

/-! ## The run of a walk -/

theorem runWalk_done {n : Nat} {s : State} (h : s.walk = none) : runWalk n s = .next s := by
  cases n <;> simp [runWalk, h]

theorem runWalk_step {n : Nat} {s t : State} {w : Walk} (h : s.walk = some w) (hs : fieldStep w s = .next t) :
    runWalk (n + 1) s = runWalk n t := by simp [runWalk, h, hs]

/-- The induction of a run, packaged once: what holds at the start and is kept by a field step holds at the end, where
no walk is left. -/
theorem runWalk_induct {P : State → Prop}
    (step : ∀ s t w, P s → s.walk = some w → fieldStep w s = .next t → P t) {n : Nat} {s t : State} (hs : P s)
    (h : runWalk n s = .next t) : P t ∧ t.walk = none := by
  induction n generalizing s with
  | zero =>
    cases hw : s.walk with
    | none => rw [runWalk_done hw] at h; cases h; exact ⟨hs, hw⟩
    | some w => rw [runWalk, hw] at h; cases h
  | succ n ih =>
    cases hw : s.walk with
    | none => rw [runWalk_done hw] at h; cases h; exact ⟨hs, hw⟩
    | some w =>
      cases hf : fieldStep w s with
      | next u => rw [runWalk_step hw hf] at h; exact ih (step s u w hs hw hf) h
      | fault e => simp [runWalk, hw, hf] at h
      | refused e => simp [runWalk, hw, hf] at h

/-- A run that ends has no walk left, and wrote the walk and the reply alone. -/
theorem runWalk_next {n : Nat} {s t : State} (h : runWalk n s = .next t) :
    ∃ r, t = { s with walk := none, reply := r } := by
  obtain ⟨⟨w, r, ht⟩, hn⟩ := runWalk_induct (P := fun u => ∃ w r, u = { s with walk := w, reply := r })
    (by
      rintro a b w ⟨w1, r1, rfl⟩ - hb
      obtain ⟨w2, r2, rfl⟩ := fieldStep_next hb
      exact ⟨w2, r2, rfl⟩)
    ⟨s.walk, s.reply, rfl⟩ h
  subst ht
  exact ⟨r, by simp only at hn; rw [hn]⟩

/-- Whatever ends within a bound ends the same within any larger bound. -/
theorem runWalk_mono {n k : Nat} {s t : State} (h : runWalk n s = .next t) : runWalk (n + k) s = .next t := by
  induction n generalizing s with
  | zero =>
    cases hw : s.walk with
    | none => rw [runWalk_done hw] at h ⊢; exact h
    | some w => rw [runWalk, hw] at h; cases h
  | succ n ih =>
    rw [Nat.succ_add]
    cases hw : s.walk with
    | none => rw [runWalk_done hw] at h ⊢; exact h
    | some w =>
      cases hf : fieldStep w s with
      | next u => rw [runWalk_step hw hf] at h ⊢; exact ih h
      | fault e => simp [runWalk, hw, hf] at h
      | refused e => simp [runWalk, hw, hf] at h

/-! ## DECODE_RECORD and DECODE -/

theorem State.walkEntry_next {s t : State} {f : Frame} {e : Entry} {m1 m2 : Option Nat}
    (h : s.walkEntry f e m1 m2 = .next t) : ∃ r, t = { s with walk := none, reply := r } := by
  obtain ⟨r, rfl⟩ := runWalk_next h
  obtain ⟨w', r', h'⟩ := s.progress_spec ((Walk.start f e m1 m2).settle s.params)
  exact ⟨r, by rw [h']⟩

/-- A DECODE_RECORD that completes writes the table's use mark, the walk and the reply alone. -/
theorem execDecodeRecord_next {f : Frame} {key : Option RespKey} {m1 m2 : Option Nat} {s t : State}
    (h : execDecodeRecord f key m1 m2 s = .next t) :
    ∃ r, t = { s with tableUsed := true, walk := none, reply := r } := by
  unfold execDecodeRecord at h
  have fin : ∀ {g e}, State.walkEntry { s with tableUsed := true, walk := none } g e m1 m2 = .next t →
      ∃ r, t = { s with tableUsed := true, walk := none, reply := r } := by
    intro g e hw
    obtain ⟨r, rfl⟩ := State.walkEntry_next hw
    exact ⟨r, rfl⟩
  repeat' split at h
  all_goals first | cases h; done | (cases h; exact ⟨_, rfl⟩) | exact fin h

/-- A DECODE that completes writes `PARTIAL`, the table's use mark, the walk and the reply alone. -/
theorem execDecode_next {c : ByteSeq} {key : Option RespKey} {m1 m2 : Option Nat} {s t : State}
    (h : execDecode c key m1 m2 s = .next t) :
    ∃ u w r, t = { s with partialBuf := t.partialBuf, tableUsed := u, walk := w, reply := r } ∧
      (u = s.tableUsed ∨ u = true) ∧ (w = s.walk ∨ w = none) := by
  unfold execDecode at h
  split at h
  · cases h
  · split at h
    · cases h
    · rename_i hi
      cases h
      have hs := (State.ingest_spec hi).1
      exact ⟨_, _, _, by rw [hs]; rfl, .inl rfl, .inl rfl⟩
    · rename_i hi
      cases h
      have hs := (State.ingest_spec hi).1
      exact ⟨_, _, _, by rw [hs]; rfl, .inl rfl, .inl rfl⟩
    · rename_i hi
      obtain ⟨r, rfl⟩ := execDecodeRecord_next h
      have hs := (State.ingest_spec hi).1
      exact ⟨true, none, r, by rw [hs], .inr rfl, .inr rfl⟩

/-! ## Every instruction -/

/-- What any instruction can do to the state: it keeps the parameters, the table and the port, and marks the table used
or leaves the mark. -/
theorem exec_next {i : Instr} {s t : State} (h : exec i s = .next t) :
    ∃ b u w r, t = { s with partialBuf := b, tableUsed := u, walk := w, reply := r } ∧
      (u = s.tableUsed ∨ u = true) := by
  have field : ∀ {j : Instr}, execField j s = .next t →
      ∃ b u w r, t = { s with partialBuf := b, tableUsed := u, walk := w, reply := r } ∧
        (u = s.tableUsed ∨ u = true) := by
    intro j hj
    obtain ⟨w, r, rfl⟩ := execField_next hj
    exact ⟨_, _, _, _, rfl, .inl rfl⟩
  cases i with
  | reset => cases h; exact ⟨_, _, _, _, rfl, .inl rfl⟩
  | checksum b => cases h; exact ⟨_, _, _, _, rfl, .inl rfl⟩
  | verify b c => cases h; exact ⟨_, _, _, _, rfl, .inl rfl⟩
  | headerKind b =>
    simp only [exec, execHeaderKind] at h
    split at h <;> cases h
    exact ⟨_, _, _, _, rfl, .inl rfl⟩
  | declaredLength b =>
    simp only [exec, execDeclaredLength] at h
    split at h <;> cases h
    exact ⟨_, _, _, _, rfl, .inl rfl⟩
  | frameDecode b =>
    simp only [exec, execFrameDecode] at h
    split at h <;> cases h
    obtain ⟨r, hr⟩ := s.answerFrame_spec (by assumption)
    exact ⟨_, _, _, _, hr, .inl rfl⟩
  | ingest c =>
    simp only [exec, execIngest] at h
    split at h <;> cases h
    rename_i o u hi
    obtain ⟨r, hr⟩ := u.answerIngest_spec o
    have hs := (State.ingest_spec hi).1
    exact ⟨u.partialBuf, s.tableUsed, s.walk, _, by rw [hr]; rw [hs], .inl rfl⟩
  | decodeRecord f k m1 m2 =>
    obtain ⟨r, rfl⟩ := execDecodeRecord_next h
    exact ⟨_, _, _, _, rfl, .inr rfl⟩
  | decode c k m1 m2 =>
    obtain ⟨u, w, r, ht, hu, -⟩ := execDecode_next h
    exact ⟨_, u, w, r, ht, hu⟩
  | buildFrame d c sq p =>
    simp only [exec, execBuildFrame] at h
    split at h <;> cases h
    exact ⟨_, _, _, _, rfl, .inl rfl⟩
  | frameResponse rc sq l p c =>
    simp only [exec, execFrameResponse] at h
    split at h <;> cases h
    obtain ⟨r, hr⟩ := s.answerFrame_spec (judgeFrame (.response rc sq l p c))
    exact ⟨_, _, _, _, hr, .inl rfl⟩
  | frameAsync ev l p c =>
    simp only [exec, execFrameAsync] at h
    split at h <;> cases h
    obtain ⟨r, hr⟩ := s.answerFrame_spec (judgeFrame (.async ev l p c))
    exact ⟨_, _, _, _, hr, .inl rfl⟩
  | frameCommand d c sq p =>
    simp only [exec, execFrameCommand] at h
    split at h <;> cases h
    exact ⟨_, _, _, _, rfl, .inl rfl⟩
  | fldNum n lo hi => exact field (j := .fldNum n lo hi) h
  | fldHex n lo hi => exact field (j := .fldHex n lo hi) h
  | fldText n lo hi e => exact field (j := .fldText n lo hi e) h
  | fldRaw n lo hi => exact field (j := .fldRaw n lo hi) h
  | fldPredef n lo hi pm vs => exact field (j := .fldPredef n lo hi pm vs) h
  | fldBitmask n r b rb rt u se => exact field (j := .fldBitmask n r b rb rt u se) h
  | fldSigned n lo hi => exact field (j := .fldSigned n lo hi) h
  | fldUnknown06 n c lo hi => exact field (j := .fldUnknown06 n c lo hi) h
  | fldUnknown08 n c lo hi => exact field (j := .fldUnknown08 n c lo hi) h
  | fldUnknown10 n c lo hi => exact field (j := .fldUnknown10 n c lo hi) h
  | fldUnknown20 n c lo hi => exact field (j := .fldUnknown20 n c lo hi) h
  | fldUnknown40 n c lo hi => exact field (j := .fldUnknown40 n c lo hi) h
  | fldUnknown80 n c lo hi => exact field (j := .fldUnknown80 n c lo hi) h

/-! ## Steps -/

theorem step_walk {s : State} {w : Walk} (h : s.walk = some w) : step s = stepWalk w s := by simp [step, h]

theorem step_idle {s : State} (h : s.walk = none) (hp : s.port = []) : step s = .next s := by simp [step, h, hp]

theorem step_request {s : State} {r : HostRequest} {rest : List HostRequest} (h : s.walk = none)
    (hp : s.port = r :: rest) : step s = stepRequest r { s with port := rest } := by simp [step, h, hp]

/-- Everything a load can do. -/
theorem State.loadTable_cases (s : State) (t : Table) :
    (s.tableUsed = true ∧ s.loadTable t = .refused .tableInUse) ∨
      (s.tableUsed = false ∧ t.wf s.params = true ∧ s.loadTable t = .next { s with table := t }) ∨
      (s.tableUsed = false ∧ t.wf s.params = false ∧ s.loadTable t = .refused .tableIllFormed) := by
  unfold State.loadTable
  cases s.tableUsed <;> cases t.wf s.params <;> simp

/-- Everything a step that goes on can be. -/
theorem step_cases {s t : State} (h : step s = .next t) :
    (∃ w, s.walk = some w ∧ w.entry.fields[w.fi]? = none ∧ t = s.progress (w.settle s.params)) ∨
      (∃ w d i, s.walk = some w ∧ w.entry.fields[w.fi]? = some d ∧ decodeDescriptor d = .ok i ∧
        exec i s = .next t) ∨
      (s.walk = none ∧ s.port = [] ∧ t = s) ∨
      (∃ rest tb, s.walk = none ∧ s.port = .loadTable tb :: rest ∧ s.tableUsed = false ∧ tb.wf s.params = true ∧
        t = { s with port := rest, table := tb }) ∨
      (∃ rest c i, s.walk = none ∧ s.port = .issue c :: rest ∧ decode c = .ok i ∧
        exec i { s with port := rest } = .next t) := by
  cases hw : s.walk with
  | some w =>
    rw [step_walk hw] at h
    unfold stepWalk at h
    rw [Walk.fetch_eq] at h
    cases hd : w.entry.fields[w.fi]? with
    | none => rw [hd] at h; cases h; exact .inl ⟨w, rfl, hd, rfl⟩
    | some d =>
      rw [hd] at h
      cases hi : decodeDescriptor d with
      | error e => simp [hi] at h
      | ok i => simp only [Option.map_some, hi] at h; exact .inr (.inl ⟨w, d, i, rfl, hd, hi, h⟩)
  | none =>
    cases hp : s.port with
    | nil => rw [step_idle hw hp] at h; cases h; exact .inr (.inr (.inl ⟨rfl, rfl, rfl⟩))
    | cons r rest =>
      rw [step_request hw hp] at h
      cases r with
      | loadTable tb =>
        obtain ⟨-, hl⟩ | ⟨hu, hwf, hl⟩ | ⟨-, -, hl⟩ := State.loadTable_cases { s with port := rest } tb
        all_goals simp only [stepRequest, hl] at h; cases h
        exact .inr (.inr (.inr (.inl ⟨rest, tb, rfl, rfl, hu, hwf, by rw [← hw]⟩)))
      | issue c =>
        simp only [stepRequest] at h
        cases hi : decode c with
        | error e => simp [hi] at h
        | ok i => simp only [hi] at h; exact .inr (.inr (.inr (.inr ⟨rest, c, i, rfl, rfl, hi, by rw [← hw]; exact h⟩)))

end Sys2Proof.Machine
end

