-- ==== Sys2Proof/Tests/Slice0.lean ====
section
/-! SUPPORT. The model's own tests. Expected values come from spec/95_test_vectors.md (E1 to E9, V1 to V97, P1 to P4, by
number) and from the encodings of 30_encoding.md written out by hand; then one witness for each obligation that has
hypotheses. -/

namespace Sys2Proof.Tests

open Sys2Proof Sys2Proof.Machine Sys2Proof.Claims

/-! ## Helpers: one part of an answer -/

def res : Answer → Option Result
  | .next s => s.reply.map Reply.result
  | .fault _ => none
  | .refused _ => none

def notesOf : Answer → Option (List Notification)
  | .next s => s.reply.map Reply.notes
  | .fault _ => none
  | .refused _ => none

def bufOf : Answer → Option ByteSeq
  | .next s => some s.partialBuf
  | .fault _ => none
  | .refused _ => none

def refusalOf : Answer → Option Refusal
  | .next _ => none
  | .fault _ => none
  | .refused r => some r

/-- The fields of a Record, in order. -/
def fieldsOf (a : Answer) : Option FieldMap :=
  match res a with
  | some (.record r) => some r.fields
  | _ => none

/-- The sample values of a Record by field name, and its residual. -/
def samplesIn (a : Answer) : Option (List (String × List Int) × Nat) :=
  match res a with
  | some (.record r) =>
    some (r.fields.map fun x => (x.1, match x.2 with | .samples l => l.values | _ => []), r.residual)
  | _ => none

/-! ## The programs of 95_test_vectors.md -/

/-- The frame f1 of SRC0 section 8. -/
def f1 : Frame := .response 0 1 1 [] 0xFD
/-- The frame f3. -/
def f3 : Frame := .response 0 9 2 [0x55] 0x9F
/-- The frame a1 of SRC0 section 8. -/
def a1 : Frame := .async 3 3 [0xAA, 0xBB] 0x94
/-- The frame of V19: the payload of f3 changed, the checksum not. -/
def bad3 : Frame := .response 0 9 2 [0x54] 0x9F

/-- The entry of program P1. -/
def powerEntry : Entry :=
  { desc := "power and identity", key := .resp 0x02 0x20
    fields :=
      [{ name := "recv", code := 0x00, lo := 0, hi := 1 },
        { name := "model", code := 0x00, format := .hex, lo := 1, hi := 3 },
        { name := "hw", code := 0x00, format := .hex, lo := 3, hi := 4 },
        { name := "trim", code := 0x05, lo := 4, hi := 5 }] ++
      [{ name := "offset", code := 0x05, lo := 5, hi := 7 },
        { name := "name", code := 0x01, lo := 7, hi := 11, encoding := "ascii" },
        { name := "blob", code := 0x02, lo := 11, hi := 13 },
        { name := "state", code := 0x03, lo := 13, hi := 14, pmask := some 0x0F,
          values := [(1, "charging"), (2, "ok"), (3, "low")] }] }

/-- The entry of the error vectors of section 2.5. -/
def errorEntry : Entry :=
  { desc := "errors", key := .resp 0x02 0x22
    fields :=
      [{ name := "state", code := 0x03, lo := 13, hi := 14, values := [(1, "charging"), (2, "ok"), (3, "low")] },
        { name := "bogus", code := 0x09, lo := 0, hi := 4 }, { name := "oob", code := 0x00, lo := 12, hi := 16 },
        { name := "bogus2", code := 0x44, lo := 90, hi := 99 }, { name := "last", code := 0x00, lo := 13, hi := 14 }] }

def bitmask (name : String) (reg bit : Nat) (rangeBottom rangeTop : Int) (units sensor : String) : Descriptor :=
  { name := name, code := 0x04, reg := reg, bit := bit, rangeBottom := rangeBottom, rangeTop := rangeTop,
    units := units, sensor := sensor }

/-- The entry of program P2. -/
def streamEntry : Entry :=
  { desc := "sensor stream", key := .async 0x03, event := some "dataStreaming"
    fields :=
      [bitmask "accelX" 1 31 (-32768) 32767 "mG" "accelerometer",
        bitmask "accelY" 1 30 (-32768) 32767 "mG" "accelerometer",
        bitmask "gyroX" 1 28 (-32768) 32767 "dps10" "gyro", bitmask "velX" 2 24 (-32768) 32767 "mm/s" "velocity",
        bitmask "dist" 2 0 0 65535 "cm" "odometer"] }

/-- The state after reset with the tables of P1, P2 and the error vectors loaded. -/
def loaded : State :=
  { State.reset with
    table :=
      { resp := [((0x02, 0x20), powerEntry), ((0x02, 0x22), errorEntry)], async := [(0x03, streamEntry)] } }

/-- The payload of section 2.4. -/
def powerPay : ByteSeq := [0x01, 0x02, 0x0A, 0xBC, 0xFF, 0x80, 0x00, 0x48, 0x69, 0x00, 0x21, 0xDE, 0xAD, 0x83]
/-- The frame of program P1. -/
def powerFrame : Frame := .response 0 7 15 powerPay 0xC1
/-- The payload of program P2. -/
def streamPay : ByteSeq :=
  [0x00, 0x10, 0xFF, 0xF0, 0x7F, 0xFF, 0x80, 0x00, 0x00, 0x11, 0xFF, 0xF1, 0x80, 0x01, 0x7F, 0xFE]
/-- The frame of program P2. -/
def streamFrame : Frame := .async 3 17 streamPay 0xEF

/-- An event 3 frame with a given payload below 255 bytes and its checksum. -/
def eventFrame (p : ByteSeq) : Frame :=
  .async 3 (BitVec.ofNat 16 (p.length + 1)) p (checksum ([3, 0, BitVec.ofNat 8 (p.length + 1)] ++ p))

/-- `PARTIAL` with given contents. -/
def withBuf (b : ByteSeq) : State := { loaded with partialBuf := b }

/-- A walk in fixed-offset mode over the payload of section 2.4 that stands at its only field. -/
def fixedWalk : Walk :=
  Walk.start powerFrame
    { desc := "one", key := .resp 0x02 0x20, fields := [{ name := "x", code := 0x02, lo := 0, hi := 0 }] } none none
/-- A walk in mask-driven mode over one sample, `MASK1 = 1`, that stands at its only field. -/
def ringWalk (pay : ByteSeq) : Walk :=
  Walk.start (eventFrame pay) { desc := "ring", key := .async 0x03, fields := [bitmask "b" 1 0 0 65535 "" ""] } (some 1)
    (some 0)
def atFixed : State := { loaded with walk := some fixedWalk }
def atRing (pay : ByteSeq) : State := { loaded with walk := some (ringWalk pay) }

/-- The value a field step at the fixed walk stores. -/
def fixedStep (i : Instr) : Option FieldMap := fieldsOf (exec i atFixed)
/-- The samples a FLD.BITMASK with an upper range takes from a two-byte payload. -/
def ringStep (top : Int) (pay : ByteSeq) : Option (List (String × List Int) × Nat) :=
  samplesIn (exec (.fldBitmask "b" .mask1 0 0 top "" "") (atRing pay))

/-- A payload of zeros. -/
def zeros (n : Nat) : ByteSeq := List.replicate n 0
@[simp] theorem zeros_length (n : Nat) : (zeros n).length = n := List.length_replicate

/-! ## WellFormed refuses an ill-formed term for each check -/

theorem test_wf_headerKind : (Instr.headerKind [0xFF]).wf = false := by decide
theorem test_wf_declaredLength_short : (Instr.declaredLength [0xFF, 0xFF, 0, 1]).wf = false := by decide
theorem test_wf_declaredLength_kind : (Instr.declaredLength [0xFF, 0xFD, 0, 1, 1]).wf = false := by decide
theorem test_wf_frameDecode_short : (Instr.frameDecode [0xFF, 0xFF, 0, 9, 2, 0x55]).wf = false := by decide
theorem test_wf_frameDecode_zero : (Instr.frameDecode [0xFF, 0xFF, 0, 1, 0, 0x77]).wf = false := by decide
theorem test_wf_decodeRecord : (Instr.decodeRecord bad3 none none none).wf = false := by decide
theorem test_wf_buildFrame : (Instr.buildFrame none none 0 (zeros 255)).wf = false := by simp [Instr.wf]
theorem test_wf_frameResponse : (Instr.frameResponse 0 1 2 [] 0xFD).wf = false := by decide
theorem test_wf_frameAsync : (Instr.frameAsync 3 2 [0xAA, 0xBB] 0x94).wf = false := by decide
theorem test_wf_frameCommand : (Instr.frameCommand 0 0 0 (zeros 255)).wf = false := by simp [Instr.wf]
theorem test_wf_fldNum : (Instr.fldNum "x" 2 2).wf = false := by decide
theorem test_wf_fldHex : (Instr.fldHex "x" 2 2).wf = false := by decide
theorem test_wf_fldText : (Instr.fldText "x" 3 2 "ascii").wf = false := by decide
theorem test_wf_fldRaw : (Instr.fldRaw "x" 3 2).wf = false := by decide
theorem test_wf_fldPredef_range : (Instr.fldPredef "x" 1 1 none []).wf = false := by decide
theorem test_wf_fldPredef_mask : (Instr.fldPredef "x" 0 1 (some 0x100) []).wf = false := by decide
theorem test_wf_fldPredef_map : (Instr.fldPredef "x" 0 1 none [(1, "a"), (1, "b")]).wf = false := by decide
theorem test_wf_fldSigned : (Instr.fldSigned "x" 2 1).wf = false := by decide
theorem test_wf_fldUnknown06 : (Instr.fldUnknown06 "x" 0x08 0 1).wf = false := by decide
theorem test_wf_fldUnknown08 : (Instr.fldUnknown08 "x" 0x10 0 1).wf = false := by decide
theorem test_wf_fldUnknown10 : (Instr.fldUnknown10 "x" 0x20 0 1).wf = false := by decide
theorem test_wf_fldUnknown20 : (Instr.fldUnknown20 "x" 0x40 0 1).wf = false := by decide
theorem test_wf_fldUnknown40 : (Instr.fldUnknown40 "x" 0x80 0 1).wf = false := by decide
theorem test_wf_fldUnknown80 : (Instr.fldUnknown80 "x" 0x7F 0 1).wf = false := by decide

/-! ## Decoding the spec's encodings, written out (rules R92, R93, R96, R112, R113) -/

theorem test_decode_reset : decode (.xact 0x0 {}) = .ok .reset := by decide
theorem test_decode_checksum : decode (.xact 0x1 { bytes := [1, 2] }) = .ok (.checksum [1, 2]) := by decide
theorem test_decode_verify : decode (.xact 0x2 { bytes := [1], byte := 0xFE }) = .ok (.verify [1] 0xFE) := by decide
theorem test_decode_headerKind : decode (.xact 0x3 { bytes := [0xFF, 0xFE] }) = .ok (.headerKind [0xFF, 0xFE]) := by
  decide
theorem test_decode_declaredLength :
    decode (.xact 0x4 { bytes := [0xFF, 0xFF, 0, 7, 15] }) = .ok (.declaredLength [0xFF, 0xFF, 0, 7, 15]) := by decide
theorem test_decode_frameDecode : decode (.xact 0x5 { bytes := [0xFF] }) = .ok (.frameDecode [0xFF]) := by decide
theorem test_decode_ingest : decode (.xact 0x6 { bytes := [0x12] }) = .ok (.ingest [0x12]) := by decide
theorem test_decode_decodeRecord :
    decode (.xact 0x7 { frame := a1, key := some (2, 0x20), mask1 := some 1, mask2 := some 2 }) =
      .ok (.decodeRecord a1 (some (2, 0x20)) (some 1) (some 2)) := by decide
theorem test_decode_decode :
    decode (.xact 0x8 { bytes := [9], key := some (2, 0x20), mask1 := some 1, mask2 := some 2 }) =
      .ok (.decode [9] (some (2, 0x20)) (some 1) (some 2)) := by decide
theorem test_decode_buildFrame :
    decode (.xact 0x9 { deviceId := some 2, commandId := some 0x20, sequence := 5, bytes := [1] }) =
      .ok (.buildFrame (some 2) (some 0x20) 5 [1]) := by decide
theorem test_decode_select_unassigned : decode (.xact 0xF {}) = .error (.unassignedSelect 0xF) := by decide
theorem test_decode_frameResponse :
    decode (.frameIn [0xFF, 0xFF, 0x00, 0x09, 0x02, 0x55, 0x9F]) = .ok (.frameResponse 0x00 0x09 0x02 [0x55] 0x9F) := by
  decide
theorem test_decode_frameAsync :
    decode (.frameIn [0xFF, 0xFE, 0x03, 0x00, 0x03, 0xAA, 0xBB, 0x94]) =
      .ok (.frameAsync 0x03 0x0003 [0xAA, 0xBB] 0x94) := by decide
theorem test_decode_frame_kind : decode (.frameIn [0xFF, 0xFD, 0, 1, 1, 0xFD]) = .error (.badSop2 0xFD) := by decide
theorem test_decode_frame_sop1 : decode (.frameIn [0x00, 0xFF, 0, 1, 1, 0xFD]) = .error (.badSop1 0x00) := by decide
theorem test_decode_frame_zero : decode (.frameIn [0xFF, 0xFF, 0, 1, 0, 0x77]) = .error .zeroLength := by decide
theorem test_decode_frame_short : decode (.frameIn [0xFF, 0xFF, 0, 9, 2, 0x55]) = .error .frameIncomplete := by decide
theorem test_decode_frameCommand : decode (.frameOut 0xFFFF 2 0x20 5 [1]) = .ok (.frameCommand 2 0x20 5 [1]) := by
  decide
theorem test_decode_fldNum :
    decode (.fdesc { name := "recv", code := 0x00, lo := 0, hi := 1 }) = .ok (.fldNum "recv" 0 1) := by decide
theorem test_decode_fldHex :
    decode (.fdesc { name := "model", code := 0x00, format := .hex, lo := 1, hi := 3 }) = .ok (.fldHex "model" 1 3) := by
  decide
theorem test_decode_fldText :
    decode (.fdesc { name := "name", code := 0x01, lo := 7, hi := 11, encoding := "ascii" }) =
      .ok (.fldText "name" 7 11 "ascii") := by decide
theorem test_decode_fldRaw :
    decode (.fdesc { name := "blob", code := 0x02, format := .hex, lo := 11, hi := 13 }) = .ok (.fldRaw "blob" 11 13) := by
  decide
theorem test_decode_fldPredef :
    decode (.fdesc { name := "state", code := 0x03, lo := 13, hi := 14, pmask := some 0x0F, values := [(1, "charging")] }) =
      .ok (.fldPredef "state" 13 14 (some 0x0F) [(1, "charging")]) := by decide
theorem test_decode_fldBitmask :
    decode (.fdesc (bitmask "velX" 2 24 (-32768) 32767 "mm/s" "velocity")) =
      .ok (.fldBitmask "velX" .mask2 24 (-32768) 32767 "mm/s" "velocity") := by decide
theorem test_decode_fldBitmask_reg : decode (.fdesc (bitmask "x" 3 0 0 0 "" "")) = .error (.badMaskRegister 3) := by
  decide
theorem test_decode_fldSigned :
    decode (.fdesc { name := "trim", code := 0x05, lo := 4, hi := 5 }) = .ok (.fldSigned "trim" 4 5) := by decide
theorem test_decode_fldUnknown :
    decode (.fdesc { name := "a", code := 0x06, lo := 0, hi := 4 }) = .ok (.fldUnknown06 "a" 0x06 0 4) ∧
    decode (.fdesc { name := "a", code := 0x07, lo := 0, hi := 4 }) = .ok (.fldUnknown06 "a" 0x07 0 4) ∧
    decode (.fdesc { name := "a", code := 0x09, lo := 0, hi := 4 }) = .ok (.fldUnknown08 "a" 0x09 0 4) ∧
    decode (.fdesc { name := "a", code := 0x1F, lo := 0, hi := 4 }) = .ok (.fldUnknown10 "a" 0x1F 0 4) ∧
    decode (.fdesc { name := "a", code := 0x2A, lo := 0, hi := 4 }) = .ok (.fldUnknown20 "a" 0x2A 0 4) ∧
    decode (.fdesc { name := "a", code := 0x44, lo := 0, hi := 4 }) = .ok (.fldUnknown40 "a" 0x44 0 4) ∧
    decode (.fdesc { name := "a", code := 0xFF, lo := 0, hi := 4 }) = .ok (.fldUnknown80 "a" 0xFF 0 4) := by decide

/-- The match and mask pairs of the thirteen FDESC rows of spec/opcode_table.json. -/
def fdescRows : List (Nat × Nat) :=
  [(0x000, 0x1FF), (0x100, 0x1FF), (0x001, 0x0FF), (0x002, 0x0FF), (0x003, 0x0FF), (0x004, 0x0FF), (0x005, 0x0FF)] ++
    [(0x006, 0x0FE), (0x008, 0x0F8), (0x010, 0x0F0), (0x020, 0x0E0), (0x040, 0x0C0), (0x080, 0x080)]

/-- No two FDESC rows share a word. -/
theorem test_fdesc_rows_disjoint : fdescRows.Pairwise fun a b => a.1 &&& (a.2 &&& b.2) ≠ b.1 &&& (a.2 &&& b.2) := by
  decide

/-- The words of the table that are no transaction and no frame select the row that matches them. -/
theorem test_table_words :
    decodeTableWord 8 0x6 = some (.ingest []) ∧ decodeTableWord 16 0xFFFE = some (.frameAsync 0 1 [] 0xFE) ∧
      decodeTableWord 16 0x100 = some (.fldHex "" 0 1) ∧ decodeTableWord 16 0x5 = some (.fldSigned "" 0 1) ∧
      decodeTableWord 8 0x80 = some (.fldUnknown80 "" 0x80 0 1) ∧ decodeTableWord 16 0x1234 = none := by decide

/-- The step after `withFetchWord` runs the word's instruction: a transaction, a frame, a descriptor. -/
theorem test_fetch_words :
    (step (State.reset.withFetchWord 8 0x1)) = exec (.checksum []) State.reset ∧
      res (step (State.reset.withFetchWord 16 0xFFFF)) = some (.frame (.response 0 0 1 [] 0xFE)) ∧
      fieldsOf (step (State.reset.withFetchWord 16 0x2)) = some [("", .raw [0])] ∧
      samplesIn (step (State.reset.withFetchWord 16 0x4)) = some ([("", [0])], 0) := by
  refine ⟨rfl, by decide, by decide, by decide⟩

/-! ## The Checksum Unit and the Frame Decoder -/

/-- E1. -/
theorem test_checksum_source : res (exec (.checksum [0x00, 0x01, 0x01]) loaded) = some (.byte 0xFD) := by decide
/-- V3: the sum wraps. -/
theorem test_checksum_wraps : res (exec (.checksum [0xFF, 0x01]) loaded) = some (.byte 0xFF) := by decide
/-- V9: two changes cancel. -/
theorem test_verify_cancel : res (exec (.verify [0x03, 0x00, 0x03, 0xAB, 0xBA] 0x94) loaded) = some (.bool true) := by
  decide
/-- V8. -/
theorem test_verify_empty : res (exec (.verify [] 0xFE) loaded) = some (.bool false) := by decide
/-- V11: offset 0 is not looked at. -/
theorem test_headerKind_async : res (exec (.headerKind [0x00, 0xFE]) loaded) = some (.kind .async) := by decide
/-- V12 and the refusal of V20. -/
theorem test_headerKind_invalid : res (exec (.headerKind [0xFF, 0xFD]) loaded) = some (.kind .invalid) ∧
    refusalOf (exec (.headerKind [0xFF]) loaded) = some .headerTooShort := by decide
/-- V13: the sequence byte is not part of the length. -/
theorem test_declaredLength_response :
    res (exec (.declaredLength [0xFF, 0xFF, 0x00, 0x07, 0x0F]) loaded) = some (.length 15) := by decide
/-- V14: the async length is big-endian. -/
theorem test_declaredLength_async :
    res (exec (.declaredLength [0xFF, 0xFE, 0x05, 0x01, 0x02]) loaded) = some (.length 258) := by decide
/-- V18: bytes after the frame are ignored. -/
theorem test_frameDecode_surplus :
    res (exec (.frameDecode ([0xFF, 0xFF, 0x00, 0x08, 0x01, 0xF6] ++ f3.bytes)) loaded) =
      some (.frame (.response 0 8 1 [] 0xF6)) := by decide
/-- E4. -/
theorem test_frameDecode_mismatch :
    notesOf (exec (.frameDecode [0xFF, 0xFE, 0x03, 0x00, 0x03, 0xAB, 0xBB, 0x94]) loaded) =
      some [.checksumMismatch 0x93 0x94] := by decide
/-- V17 as a frame of its format. -/
theorem test_frameResponse : res (exec (.frameResponse 0x00 0x09 0x02 [0x55] 0x9F) loaded) = some (.frame f3) := by
  decide
/-- V19. -/
theorem test_frameResponse_mismatch :
    res (exec (.frameResponse 0x00 0x09 0x02 [0x54] 0x9F) loaded) = some (.checksumMismatch 0xA0 0x9F) := by decide
/-- E3. -/
theorem test_frameAsync : res (exec (.frameAsync 0x03 0x0003 [0xAA, 0xBB] 0x94) loaded) = some (.frame a1) := by decide
/-- E4. -/
theorem test_frameAsync_mismatch :
    res (exec (.frameAsync 0x03 0x0003 [0xAB, 0xBB] 0x94) loaded) = some (.checksumMismatch 0x93 0x94) := by decide

/-! ## The Frame Assembler -/

/-- V33: a chunk that does not start with a SOP pair is decoded when `PARTIAL` supplies the first byte. -/
theorem test_ingest_accumulates :
    res (exec (.ingest [0xFF, 0x00, 0x01, 0x01, 0xFD]) (withBuf [0xFF])) = some (.frame f1) := by decide
/-- V28: a mismatch drops the good frame behind it. -/
theorem test_ingest_mismatch_clears :
    bufOf (exec (.ingest (bad3.bytes ++ f1.bytes)) (withBuf [])) = some [] ∧
      res (exec (.ingest (bad3.bytes ++ f1.bytes)) (withBuf [])) = some (.checksumMismatch 0xA0 0x9F) := by decide
/-- V37. -/
theorem test_reset : bufOf (exec .reset (withBuf [0xFF, 0xFF, 0x00])) = some [] := by decide

/-! ## The Field Codec -/

/-- V51. -/
theorem test_fldNum : fixedStep (.fldNum "x" 1 3) = some [("x", .num 522)] := by decide
/-- V52: no width limit. -/
theorem test_fldNum_wide : fixedStep (.fldNum "wide" 0 14) = some [("wide", .num 20444189263397156854948396182915)] := by
  decide
/-- V53: no leading zero. -/
theorem test_fldHex : fixedStep (.fldHex "model" 1 3) = some [("model", .hexStr ['0', 'x', '2', '0', 'A'])] := by decide
/-- V55: zero is one digit. -/
theorem test_fldHex_zero : fixedStep (.fldHex "h0" 9 10) = some [("h0", .hexStr ['0', 'x', '0'])] := by decide
/-- V61: NUL becomes the character 0. -/
theorem test_fldText : fixedStep (.fldText "name" 7 11 "ascii") = some [("name", .text ['H', 'i', '0', '!'])] := by decide
/-- V62. -/
theorem test_fldText_empty : fixedStep (.fldText "e" 3 3 "ascii") = some [("e", .text [])] := by decide
/-- V63. -/
theorem test_fldRaw : fixedStep (.fldRaw "blob" 11 13) = some [("blob", .raw [0xDE, 0xAD])] := by decide
/-- V63: `to = len(PAY)` is in range. -/
theorem test_fldRaw_end : fixedStep (.fldRaw "z" 14 14) = some [("z", .raw [])] := by decide
/-- V64: the mask is applied before the lookup. -/
theorem test_fldPredef : fixedStep (.fldPredef "state" 13 14 (some 0x0F) [(1, "charging"), (2, "ok"), (3, "low")]) =
    some [("state", .enum (.mapped "low"))] := by decide
/-- V65. -/
theorem test_fldPredef_unknown : fixedStep (.fldPredef "state" 13 14 none [(1, "charging"), (2, "ok"), (3, "low")]) =
    some [("state", .enum (.unknown 131))] := by decide
/-- E5. -/
theorem test_fldSigned_byte : fixedStep (.fldSigned "trim" 4 5) = some [("trim", .signed (-1))] := by decide
/-- V58: 24 bits. -/
theorem test_fldSigned_wide : fixedStep (.fldSigned "s3" 4 7) = some [("s3", .signed (-32768))] := by decide
/-- V70, V74: the conversion is strict against the declared upper range. -/
theorem test_fldBitmask : ringStep 65535 [0x80, 0x00] = some ([("b", [32768])], 0) ∧
    ringStep 2000 [0x07, 0xD0] = some ([("b", [2000])], 0) ∧ ringStep 2000 [0x07, 0xD1] = some ([("b", [-63535])], 0) := by
  decide
/-- V89: one byte is a residual and no sample. -/
theorem test_fldBitmask_short : ringStep 65535 [0x12] = some ([], 1) := by decide
/-- V66, and the other blocks of the type codes. -/
theorem test_fldUnknown :
    fixedStep (.fldUnknown06 "u" 0x07 0 4) = some [("u", .fieldError (.unparseable 0x07))] ∧
    notesOf (exec (.fldUnknown08 "bogus" 0x09 0 4) atFixed) = some [.unparseableField "bogus" (.unknownType 0x09)] ∧
    fixedStep (.fldUnknown10 "u" 0x10 0 4) = some [("u", .fieldError (.unparseable 0x10))] ∧
    fixedStep (.fldUnknown20 "u" 0x3F 0 4) = some [("u", .fieldError (.unparseable 0x3F))] ∧
    fixedStep (.fldUnknown40 "u" 0x44 90 99) = some [("u", .fieldError (.unparseable 0x44))] ∧
    fixedStep (.fldUnknown80 "u" 0xFF 0 4) = some [("u", .fieldError (.unparseable 0xFF))] := by decide

/-! ## Record decode and DECODE -/

/-- The error vectors of section 2.5: the sentinels stand in place and the notifications come in list order. -/
theorem test_decodeRecord_errors :
    fieldsOf (exec (.decodeRecord powerFrame (some (0x02, 0x22)) none none) loaded) =
        some
          [("state", .enum (.unknown 131)), ("bogus", .fieldError (.unparseable 0x09)),
            ("oob", .fieldError .outOfRange), ("bogus2", .fieldError (.unparseable 0x44)), ("last", .num 131)] ∧
      notesOf (exec (.decodeRecord powerFrame (some (0x02, 0x22)) none none) loaded) =
        some
          [.unparseableField "bogus" (.unknownType 0x09), .unparseableField "oob" .outOfRange,
            .unparseableField "bogus2" (.unknownType 0x44)] := by decide
/-- V86: a ring walk that ends inside a cycle with a short tail. -/
theorem test_decodeRecord_ring :
    samplesIn (exec (.decodeRecord (eventFrame (streamPay.take 15)) none (some 0xC0000000) (some 0x01000001)) loaded) =
      some ([("accelX", [16, 17]), ("accelY", [-16, -15]), ("velX", [32767, -32767]), ("dist", [32768])], 1) := by decide
/-- The last transaction of program P1. -/
theorem test_decode_record :
    fieldsOf (exec (.decode [0xFF, 0x80, 0x00, 0x48, 0x69, 0x00, 0x21, 0xDE, 0xAD, 0x83, 0xC1] (some (0x02, 0x20)) none
        none) (withBuf [0xFF, 0xFF, 0x00, 0x07, 0x0F, 0x01, 0x02, 0x0A, 0xBC])) =
      some
        [("recv", .num 1), ("model", .hexStr ['0', 'x', '2', '0', 'A']), ("hw", .hexStr ['0', 'x', 'B', 'C']),
          ("trim", .signed (-1)), ("offset", .signed (-32768)), ("name", .text ['H', 'i', '0', '!']),
          ("blob", .raw [0xDE, 0xAD]), ("state", .enum (.mapped "low"))] := by decide
/-- V37 through DECODE. -/
theorem test_decode_nothing :
    res (exec (.decode [0x08, 0x01, 0xF6] none none none) (withBuf [])) = some (.nothing .garbage) := by decide

/-! ## Frame Construction -/

/-- V93. -/
theorem test_buildFrame : res (exec (.buildFrame (some 0x02) (some 0x20) 0x05 [0xFF, 0x00, 0x80, 0x01]) loaded) =
    some (.bytes [0xFF, 0xFF, 0x02, 0x20, 0x05, 0x05, 0xFF, 0x00, 0x80, 0x01, 0x53]) := by decide
/-- V90 and V96. -/
theorem test_buildFrame_edges :
    res (exec (.buildFrame none none 0x01 []) loaded) = some (.bytes [0xFF, 0xFF, 0x00, 0x00, 0x01, 0x01, 0xFD]) ∧
      refusalOf (exec (.buildFrame (some 0x02) (some 0x11) 0x10 (zeros 255)) loaded) =
        some .payloadTooLong :=
  ⟨by decide, by simp [exec, execBuildFrame, payloadFits, refusalOf]⟩
/-- V94. -/
theorem test_frameCommand : res (exec (.frameCommand 0xFF 0xFF 0xFF [0xFF]) loaded) =
    some (.bytes [0xFF, 0xFF, 0xFF, 0xFF, 0xFF, 0x02, 0xFF, 0x01]) := by decide

/-! ## Witnesses: for each obligation with hypotheses, operands and a state that meet them together, one for each clause.
Where a clause names the answer of an instruction as a hypothesis, the witness is that answer. -/

theorem not_holdsFrame {b : ByteSeq} (h : b.length < 6) : ¬ holdsFrame b := fun x => by
  have := x.1
  omega

theorem meets_none (n : Nat) : meets none n := fun k h => by cases h

theorem room_loaded (b c d : ByteSeq) : room (withBuf b) c d := ⟨meets_none _, meets_none _⟩

theorem mask_lt {m n : Nat} (h : n < 2 ^ 32) : some n = some m → m < 2 ^ loaded.params.maskWidth := by
  rintro ⟨⟩
  exact h

theorem no_mask {m : Nat} {P : Prop} : none = some m → P := fun h => by cases h

theorem witness_ChecksumArithmeticLaws :
    exec (.checksum [0, 1, 1]) loaded = .next (replied loaded (.byte 0xFD) []) ∧
      List.Perm ([1, 2] : ByteSeq) [2, 1] ∧ (0x00 : Byte) ≠ 0xFF ∧
      ((0xFF : Byte).toNat + (0x01 : Byte).toNat) % 256 = ((0x00 : Byte).toNat + (0x00 : Byte).toNat) % 256 :=
  ⟨rfl, by decide, by decide, by decide⟩

theorem witness_HeaderKindReadsOffsetOne : ((0xFD : Byte) ≠ 0xFF ∧ (0xFD : Byte) ≠ 0xFE) ∧ ([0xFF] : ByteSeq).length < 2 := by
  decide

theorem witness_DeclaredLengthByKind :
    ((0x00 : Byte) ≠ 0xFF ∧ (0x00 : Byte) ≠ 0xFE) ∧ ([0xFF, 0xFF, 0, 1] : ByteSeq).length < 5 := by decide

theorem witness_FrameDecodeReadsOneFrame : (shaped f3 ∧ verifies f3) ∧ shaped bad3 ∧ ¬ verifies bad3 :=
  ⟨⟨by unfold shaped; decide, by unfold verifies; decide⟩, by unfold shaped; decide, by unfold verifies; decide⟩

theorem witness_FrameDecodeRefusedOutsideDomain :
    ¬ holdsFrame [0xFF, 0xFF, 0, 1, 1] ∧ sizeIs [0xFF, 0xFF, 0, 1, 0, 0x77] 5 :=
  ⟨not_holdsFrame (by decide), 0, 1, 0, [0x77], .inl ⟨rfl, rfl⟩⟩

theorem witness_ResponseFormatYieldsItsFrame :
    (([0x55] : ByteSeq).length + 1 = (2 : BitVec 8).toNat ∧ (0x9F : Byte).toNat = ones ([0, 9, 2] ++ [0x55])) ∧
      (([0x54] : ByteSeq).length + 1 = (2 : BitVec 8).toNat ∧ (0x9F : Byte).toNat ≠ ones ([0, 9, 2] ++ [0x54])) ∧
      ([] : ByteSeq).length + 1 ≠ (0 : BitVec 8).toNat := by decide

theorem witness_AsyncFormatYieldsItsFrame :
    (([0xAA, 0xBB] : ByteSeq).length + 1 = (3 : BitVec 16).toNat ∧
        (0x94 : Byte).toNat + (total (3 :: [0xAA, 0xBB]) + (3 : BitVec 16).toNat / 256 + (3 : BitVec 16).toNat % 256) % 256 =
          255) ∧
      (([0xAB, 0xBB] : ByteSeq).length + 1 = (3 : BitVec 16).toNat ∧
        (0x94 : Byte).toNat + (total (3 :: [0xAB, 0xBB]) + (3 : BitVec 16).toNat / 256 + (3 : BitVec 16).toNat % 256) % 256 ≠
          255) ∧
      ([] : ByteSeq).length + 1 ≠ (0 : BitVec 16).toNat := by decide

theorem witness_FrameFormatsAgreeWithFrameDecode :
    (Instr.frameResponse 0 9 2 [0x55] 0x9F).wf = true ∧ encode (.frameResponse 0 9 2 [0x55] 0x9F) = .frameIn f3.bytes ∧
      (Instr.frameAsync 3 3 [0xAA, 0xBB] 0x94).wf = true ∧
      encode (.frameAsync 3 3 [0xAA, 0xBB] 0x94) = .frameIn a1.bytes := by decide

theorem f3_ok : shaped f3 ∧ verifies f3 := witness_FrameDecodeReadsOneFrame.1
theorem f1_ok : shaped f1 ∧ verifies f1 := ⟨by unfold shaped; decide, by unfold verifies; decide⟩

theorem witness_FreshFrameWinsOverPartial :
    (shaped f3 ∧ verifies f3) ∧ room (withBuf [0xFF, 0xFE, 0x03]) (f3.bytes ++ [0xFF]) [0xFF] :=
  ⟨f3_ok, room_loaded _ _ _⟩

theorem witness_AccumulationCompletesFrame :
    (shaped f1 ∧ verifies f1) ∧ ¬ holdsFrame [0xFF, 0x00, 0x01, 0x01, 0xFD] ∧
      (withBuf [0xFF]).partialBuf ++ [0xFF, 0x00, 0x01, 0x01, 0xFD] = f1.bytes ++ [] ∧
      room (withBuf [0xFF]) [0xFF, 0x00, 0x01, 0x01, 0xFD] [] :=
  ⟨f1_ok, not_holdsFrame (by decide), by decide, room_loaded _ _ _⟩

theorem not_startsFrame {x y : Byte} {r : ByteSeq} (h : ¬ (x = 0xFF ∧ (y = 0xFF ∨ y = 0xFE))) :
    ¬ startsFrame (x :: y :: r) := by
  rintro ⟨q, e | e⟩ <;> simp only [List.cons.injEq] at e <;> exact h ⟨e.1, by simp [e.2.1]⟩

theorem witness_GarbageIsDroppedSilently :
    ¬ holdsFrame [0xFD] ∧ 2 ≤ ((withBuf [0xFF]).partialBuf ++ [0xFD]).length ∧
      ¬ startsFrame ((withBuf [0xFF]).partialBuf ++ [0xFD]) ∧ meets (withBuf [0xFF]).params.chunkMax 1 :=
  ⟨not_holdsFrame (by decide), by decide, not_startsFrame (x := 0xFF) (y := 0xFD) (by decide), meets_none _⟩

theorem witness_FragmentIsKept :
    (¬ holdsFrame [0x00] ∧ ((withBuf []).partialBuf ++ [0x00]).length < 2 ∧ room (withBuf []) [0x00] [0x00]) ∧
      (¬ holdsFrame [0xFF] ∧ startsFrame ((withBuf [0xFF]).partialBuf ++ [0xFF]) ∧
        ¬ holdsFrame ((withBuf [0xFF]).partialBuf ++ [0xFF]) ∧ room (withBuf [0xFF]) [0xFF] [0xFF, 0xFF]) :=
  ⟨⟨not_holdsFrame (by decide), by decide, room_loaded _ _ _⟩, not_holdsFrame (by decide), ⟨[], .inl rfl⟩,
    not_holdsFrame (by decide), room_loaded _ _ _⟩

theorem witness_IngestMismatchClearsPartial :
    (shaped bad3 ∧ ¬ verifies bad3) ∧ meets (withBuf [0xFF]).params.chunkMax 12 ∧
      bad3.bytes ++ f1.bytes = bad3.bytes ++ f1.bytes ∧
      (¬ holdsFrame [0x9F] ∧ (withBuf [0xFF, 0xFF, 0, 9, 2, 0x54]).partialBuf ++ [0x9F] = bad3.bytes ++ []) :=
  ⟨witness_FrameDecodeReadsOneFrame.2, meets_none _, rfl, not_holdsFrame (by decide), by decide⟩

theorem holdsFrame_zero : holdsFrame [0xFF, 0xFF, 0, 1, 0, 0x77] :=
  ⟨by decide, 5, ⟨0, 1, 0, [0x77], .inl ⟨rfl, rfl⟩⟩, by decide⟩

theorem witness_ZeroLengthIsDiscarded :
    (holdsFrame [0xFF, 0xFF, 0, 1, 0, 0x77] ∧ sizeIs [0xFF, 0xFF, 0, 1, 0, 0x77] 5) ∧
      (¬ holdsFrame [0x77] ∧ holdsFrame ((withBuf [0xFF, 0xFF, 0, 1, 0]).partialBuf ++ [0x77]) ∧
        sizeIs ((withBuf [0xFF, 0xFF, 0, 1, 0]).partialBuf ++ [0x77]) 5) ∧
      meets (withBuf []).params.chunkMax 6 :=
  ⟨⟨holdsFrame_zero, witness_FrameDecodeRefusedOutsideDomain.2⟩,
    ⟨not_holdsFrame (by decide), holdsFrame_zero, witness_FrameDecodeRefusedOutsideDomain.2⟩, meets_none _⟩

theorem witness_IngestIsTotalAndClassifiesPartial :
    loaded.params.chunkMax = none ∧ loaded.params.partialCap = none := by decide

/-- An instance with room for two bytes in `PARTIAL` and four in a chunk. -/
def small (b : ByteSeq) (chunkMax : Option Nat) : State :=
  { withBuf b with params := { partialCap := some 2, chunkMax := chunkMax } }

theorem witness_CapacityOverflowIsRefused :
    ((small [] (some 4)).params.chunkMax = some 4 ∧ 4 < ([0, 0, 0, 0, 0] : ByteSeq).length) ∧
      (meets (small [] none).params.chunkMax 9 ∧ (small [] none).params.partialCap = some 2 ∧
        (shaped f1 ∧ verifies f1 ∧ 2 < ([0xFF, 0xFF, 0] : ByteSeq).length ∧
          f1.bytes ++ [0xFF, 0xFF, 0] = f1.bytes ++ [0xFF, 0xFF, 0]) ∧
        (¬ holdsFrame [0x01, 0x01, 0xFD, 0, 0] ∧ (small [0xFF, 0xFF, 0] none).partialBuf ++ [0x01, 0x01, 0xFD, 0, 0] ++ [0] =
          f1.bytes ++ [0, 0, 0]) ∧
        (¬ holdsFrame [0x00] ∧ startsFrame ((small [0xFF, 0xFF] none).partialBuf ++ [0x00]) ∧
          ¬ holdsFrame ((small [0xFF, 0xFF] none).partialBuf ++ [0x00]) ∧
          2 < ((small [0xFF, 0xFF] none).partialBuf ++ [0x00]).length)) :=
  ⟨by decide, meets_none _, rfl, ⟨f1_ok.1, f1_ok.2, by decide, rfl⟩, ⟨not_holdsFrame (by decide), by decide⟩,
    not_holdsFrame (by decide), ⟨[0x00], .inl rfl⟩, not_holdsFrame (by decide), by decide⟩

/-- An instance with just the room that the sub-chunks of the next witness need; the frame has 6 bytes. -/
def tight : State := { withBuf [] with params := { partialCap := some 4, chunkMax := some 3 } }

theorem witness_ChunkBoundariesDoNotMatter :
    (shaped f1 ∧ verifies f1) ∧ tight.partialBuf = [] ∧
      [[0xFF], [], [0xFF, 0x00, 0x01]].flatten ++ [0x01, 0xFD] = f1.bytes ∧ ([0x01, 0xFD] : ByteSeq) ≠ [] ∧
      (∀ x ∈ ([[0xFF], [], [0xFF, 0x00, 0x01]] ++ [[0x01, 0xFD]] : List ByteSeq), meets tight.params.chunkMax x.length) ∧
      meets tight.params.partialCap ([[0xFF], [], [0xFF, 0x00, 0x01]] : List ByteSeq).flatten.length ∧
      ∀ before x after, [[0xFF], [], [0xFF, 0x00, 0x01]] ++ [[0x01, 0xFD]] = before ++ x :: after →
        before.flatten ≠ [] → ¬ holdsFrame x := by
  refine ⟨f1_ok, rfl, by decide, by decide, ?_, ?_, fun before x after h _ => not_holdsFrame ?_⟩
  · rintro x hx k ⟨⟩
    revert x
    decide
  · rintro k ⟨⟩
    decide
  · have hx : x ∈ ([[0xFF], [], [0xFF, 0x00, 0x01]] ++ [[0x01, 0xFD]] : List ByteSeq) := h ▸ by simp
    clear h
    revert x
    decide

theorem witness_EmptyChunksDrainTheBacklog :
    (∀ f ∈ [f1, f3], shaped f ∧ verifies f) ∧
      (withBuf (f1.bytes ++ f3.bytes)).partialBuf = ([f1, f3].map Frame.bytes).flatten ∧
      meets (withBuf (f1.bytes ++ f3.bytes)).params.partialCap 13 := by
  refine ⟨fun f hf => ?_, by decide, meets_none _⟩
  simp only [List.mem_cons, List.not_mem_nil, or_false] at hf
  rcases hf with rfl | rfl
  · exact f1_ok
  · exact f3_ok

theorem witness_DecodeComposesIngestAndDecodeRecord :
    exec (.ingest [0xFF]) (withBuf []) = .next (ingested (withBuf []) [0xFF] (.noFrame .pending) []) ∧
      exec (.ingest bad3.bytes) (withBuf []) =
        .next (ingested (withBuf []) [] (.checksumMismatch 0xA0 0x9F) [.checksumMismatch 0xA0 0x9F]) ∧
      exec (.ingest f1.bytes) (withBuf []) = .next (ingested (withBuf []) [] (.frame f1) []) ∧
      exec (.ingest [0, 0, 0, 0, 0]) (small [] (some 4)) = .refused .chunkTooLong ∧
      ∀ m, some 0xFFFFFFFF = some m → m < 2 ^ (withBuf []).params.maskWidth :=
  ⟨rfl, rfl, rfl, rfl, fun _ => mask_lt (by decide)⟩

theorem table_ok : loaded.table.wf loaded.params = true := by decide

theorem witness_DecodeCompletes :
    loaded.walk = none ∧ loaded.params.chunkMax = none ∧ loaded.params.partialCap = none ∧
      loaded.table.wf loaded.params = true ∧ (∀ m, some 0xFFFFFFFF = some m → m < 2 ^ loaded.params.maskWidth) ∧
      ∀ m, none = some m → m < 2 ^ loaded.params.maskWidth :=
  ⟨rfl, rfl, rfl, table_ok, fun _ => mask_lt (by decide), fun _ => no_mask⟩

theorem recordable_power : recordable loaded powerFrame none none :=
  ⟨table_ok, by decide, fun _ => no_mask, fun _ => no_mask⟩

theorem recordable_stream (a b : Nat) (ha : a < 2 ^ 32) (hb : b < 2 ^ 32) :
    recordable loaded streamFrame (some a) (some b) :=
  ⟨table_ok, by decide, fun _ => mask_lt ha, fun _ => mask_lt hb⟩

theorem streaming_stream : streaming loaded streamEntry := by unfold streaming; decide

theorem witness_RawPassThroughsInOrder :
    (recordable loaded f1 none none ∧ f1.payload = []) ∧
      (recordable loaded powerFrame none none ∧ powerFrame.payload ≠ [] ∧
        loaded.table.lookup powerFrame (some (0x02, 0x21)) = none) ∧
      (recordable loaded streamFrame (some 0) (some 0) ∧ streamFrame.payload ≠ [] ∧
        loaded.table.lookup streamFrame none = some streamEntry ∧ streaming loaded streamEntry ∧
        ∀ d ∈ streamEntry.fields, d.active 0 0 = false) ∧
      recordable loaded streamFrame none none :=
  ⟨⟨⟨table_ok, by decide, fun _ => no_mask, fun _ => no_mask⟩, rfl⟩, ⟨recordable_power, by decide, by decide⟩,
    ⟨recordable_stream 0 0 (by decide) (by decide), by decide, by decide, streaming_stream, by decide⟩,
    table_ok, by decide, fun _ => no_mask, fun _ => no_mask⟩

theorem witness_LookupByEventIdOrHostKey :
    (distinctKeys loaded.table.async = true ∧ (0x03, streamEntry) ∈ loaded.table.async) ∧
      (∀ e, (0x04, e) ∉ loaded.table.async) ∧
      (distinctKeys loaded.table.resp = true ∧ ((0x02, 0x22), errorEntry) ∈ loaded.table.resp) ∧
      ∀ e, ((0x02, 0x21), e) ∉ loaded.table.resp := by
  refine ⟨by decide, fun e h => ?_, by decide, fun e h => ?_⟩ <;> simp [loaded] at h

theorem witness_FixedWalkDecodesEveryField :
    recordable loaded powerFrame none none ∧ powerFrame.payload ≠ [] ∧
      loaded.table.lookup powerFrame (some (0x02, 0x22)) = some errorEntry ∧ ¬ streaming loaded errorEntry :=
  ⟨recordable_power, by decide, by decide, by unfold streaming; decide⟩

theorem witness_MaskWalkDistributesSamples :
    recordable loaded streamFrame (some 0xC0000000) (some 0x01000001) ∧ streamFrame.payload ≠ [] ∧
      loaded.table.lookup streamFrame none = some streamEntry ∧ streaming loaded streamEntry ∧
      streamEntry.fields.filter (Descriptor.active 0xC0000000 0x01000001) ≠ [] :=
  ⟨recordable_stream _ _ (by decide) (by decide), by decide, by decide, streaming_stream, by decide⟩

theorem witness_WholeCyclesGiveEqualSampleLists :
    recordable loaded streamFrame (some 0xC0000000) (some 0x01000001) ∧
      loaded.table.lookup streamFrame none = some streamEntry ∧ streaming loaded streamEntry ∧
      1 ≤ (streamEntry.fields.filter (Descriptor.active 0xC0000000 0x01000001)).length ∧
      streamFrame.payload.length =
        2 * (streamEntry.fields.filter (Descriptor.active 0xC0000000 0x01000001)).length * 2 :=
  ⟨recordable_stream _ _ (by decide) (by decide), by decide, streaming_stream, by decide, by decide⟩

theorem witness_DecodeRecordIsTheWalkRunToItsEnd :
    (recordable loaded powerFrame none none ∧ powerFrame.payload ≠ [] ∧
        loaded.table.lookup powerFrame (some (0x02, 0x22)) = some errorEntry ∧ errorEntry.fields ≠ [] ∧
        ¬ streaming loaded errorEntry) ∧
      (recordable loaded streamFrame (some 0xC0000000) (some 0x01000001) ∧ streamFrame.payload ≠ [] ∧
        loaded.table.lookup streamFrame none = some streamEntry ∧ streamEntry.fields ≠ [] ∧
        ∃ d ∈ streamEntry.fields, d.active 0xC0000000 0x01000001 = true) :=
  ⟨⟨recordable_power, by decide, by decide, by decide, by unfold streaming; decide⟩,
    recordable_stream _ _ (by decide) (by decide), by decide, by decide, by decide, by decide⟩

theorem witness_DecodeRecordCompletes : recordable loaded powerFrame none none := recordable_power

theorem witness_DecodeRecordRefusals :
    ({ loaded with params := { maskWidth := 8 } } : State).table.wf { maskWidth := 8 } = false ∧
      (loaded.table.wf loaded.params = true ∧ ¬ (shaped bad3 ∧ verifies bad3)) ∧
      (2 ^ loaded.params.maskWidth ≤ 0x100000000 ∧ loaded.table.wf loaded.params = true ∧ f1.valid = true) :=
  ⟨by decide, ⟨table_ok, fun h => witness_FrameDecodeReadsOneFrame.2.2 h.2⟩, by decide, table_ok, by decide⟩

theorem inFixed_atFixed : inFixed atFixed fixedWalk := ⟨rfl, by unfold streaming; decide⟩
theorem inRing_atRing (pay : ByteSeq) : inRing (atRing pay) (ringWalk pay) := ⟨rfl, by unfold streaming; rfl⟩

theorem witness_NumFieldIsBigEndian :
    inFixed atFixed fixedWalk ∧ 13 < 14 ∧ 14 ≤ fixedWalk.payload.length ∧ meets atFixed.params.maxWidth (14 - 13) :=
  ⟨inFixed_atFixed, by decide, by decide, meets_none _⟩

theorem witness_HexFieldIsMinimalUpperCase :
    inFixed atFixed fixedWalk ∧ 0 < 14 ∧ 14 ≤ fixedWalk.payload.length ∧ meets atFixed.params.maxWidth (14 - 0) :=
  ⟨inFixed_atFixed, by decide, by decide, meets_none _⟩

theorem witness_TextFieldReplacesNul :
    inFixed atFixed fixedWalk ∧ 14 ≤ 14 ∧ 14 ≤ fixedWalk.payload.length ∧
      ∀ x ∈ slice fixedWalk.payload 7 11, x.toNat < 128 := by
  refine ⟨inFixed_atFixed, by decide, by decide, by decide⟩

theorem witness_RawFieldIsTheByteRange :
    inFixed atFixed fixedWalk ∧ 14 ≤ 14 ∧ 14 ≤ fixedWalk.payload.length := ⟨inFixed_atFixed, by decide, by decide⟩

theorem witness_PredefFieldLooksUpMaskedCode :
    inFixed atFixed fixedWalk ∧ 13 < 14 ∧ 14 ≤ fixedWalk.payload.length ∧ meets atFixed.params.maxWidth (14 - 13) ∧
      (∀ m, some 0xFF = some m → m < 2 ^ (8 * (14 - 13))) ∧
      (([(0x83, "a"), (2, "b")] : List (Nat × String)).map Prod.fst).Nodup ∧
      (0x83, "a") ∈ ([(0x83, "a"), (2, "b")] : List (Nat × String)) ∧
      be (slice fixedWalk.payload 13 14) &&& 0xFF = 0x83 ∧
      ∀ label, (be (slice fixedWalk.payload 13 14) &&& 0x0F, label) ∉ ([(0x83, "a"), (2, "b")] : List (Nat × String)) := by
  refine ⟨inFixed_atFixed, by decide, by decide, meets_none _, ?_, by decide, by decide, by decide, ?_⟩
  · rintro m ⟨⟩; decide
  · have : be (slice fixedWalk.payload 13 14) &&& 0x0F = 3 := by decide
    rw [this]; simp

theorem witness_SignedFieldIsTwosComplement :
    (inFixed atFixed fixedWalk ∧ 5 < 6 ∧ 6 ≤ fixedWalk.payload.length ∧ meets atFixed.params.maxWidth (6 - 5)) ∧
      2 ^ (8 * (6 - 5) - 1) ≤ be (slice fixedWalk.payload 5 6) ∧ be (slice fixedWalk.payload 0 1) < 2 ^ (8 * (1 - 0) - 1) :=
  ⟨⟨inFixed_atFixed, by decide, by decide, meets_none _⟩, by decide, by decide⟩

theorem witness_UnknownTypeLeavesSentinel :
    inFixed atFixed fixedWalk ∧ 0x06 ≤ (0x07 : BitVec 8).toNat ∧ 0x80 ≤ (0xFF : BitVec 8).toNat :=
  ⟨inFixed_atFixed, by decide, by decide⟩

theorem witness_OutOfRangeFieldLeavesSentinel :
    inFixed atFixed fixedWalk ∧ 15 ≤ 15 ∧ 12 < 15 ∧ fixedWalk.payload.length < 15 ∧ meets atFixed.params.maxWidth (15 - 12) ∧
      (∀ m, some 0xFF = some m → m < 2 ^ (8 * (15 - 12))) ∧ (([(1, "a")] : List (Nat × String)).map Prod.fst).Nodup := by
  refine ⟨inFixed_atFixed, by decide, by decide, by decide, meets_none _, ?_, by decide⟩
  rintro m ⟨⟩; decide

theorem witness_BitmaskFieldAccumulates :
    (inRing (atRing [0x80, 0x00]) (ringWalk [0x80, 0x00]) ∧ 31 < (atRing [0x80, 0x00]).params.maskWidth ∧
        (ringWalk [0x80, 0x00]).mask1 = some 1 ∧ (1 : Nat).testBit 31 = false ∧ (1 : Nat).testBit 0 = true ∧
        (ringWalk [0x80, 0x00]).payload[0]? = some 0x80 ∧ (ringWalk [0x80, 0x00]).payload[0 + 1]? = some 0x00 ∧
        (((0x80 * 256 + 0x00 : Nat) : Int) > 0x7FFF → (-32768 : Int) = ((0x80 * 256 + 0x00 : Nat) : Int) - 65536) ∧
        (ringWalk [0x80, 0x00]).fields.lookup "b" = none) ∧
      (inRing (atRing [0x12]) (ringWalk [0x12]) ∧ (ringWalk [0x12]).payload.length < (ringWalk [0x12]).cur + 2) := by
  refine ⟨⟨inRing_atRing _, by decide, rfl, by decide, by decide, rfl, rfl, by decide, rfl⟩, inRing_atRing _, by decide⟩

theorem witness_BitmaskFieldAccumulates_grows :
    let w : Walk :=
      { ringWalk [0, 1, 0, 2] with
        cur := 2
        fields := [("b", .samples { sensor := "", rangeBottom := 0, rangeTop := 65535, units := "", values := [1] })] }
    inRing { atRing [0, 1, 0, 2] with walk := some w } w ∧ w.mask1 = some 1 ∧ w.payload[w.cur]? = some 0 ∧
      w.payload[w.cur + 1]? = some 2 ∧
      w.fields.lookup "b" =
        some (.samples { sensor := "", rangeBottom := 0, rangeTop := 65535, units := "", values := [1] }) := by
  refine ⟨⟨rfl, by unfold streaming; rfl⟩, rfl, rfl, rfl, rfl⟩

theorem witness_DescriptorsNeedTheirWalk :
    (decode (.fdesc (bitmask "b" 1 0 0 0 "" "")) = .ok (.fldBitmask "b" .mask1 0 0 0 "" "") ∧ loaded.walk = none) ∧
      (inFixed atFixed fixedWalk ∧ (bitmask "b" 1 0 0 0 "" "").code = 0x04 ∧ 0 < atFixed.params.maskWidth) ∧
      (inRing (atRing [0, 0]) (ringWalk [0, 0]) ∧
        decode (.fdesc { name := "x", code := 0x00, lo := 0, hi := 1 }) = .ok (.fldNum "x" 0 1) ∧
        (Instr.fldNum "x" 0 1).wf = true ∧ meets (atRing [0, 0]).params.maxWidth (1 - 0)) :=
  ⟨⟨by decide, rfl⟩, ⟨inFixed_atFixed, rfl, by decide⟩, inRing_atRing _, by decide, by decide, meets_none _⟩

theorem witness_IllFormedDescriptorsAreRefused :
    atFixed.walk = some fixedWalk ∧ 2 ≤ 2 ∧ ¬ meets ({ atFixed with params := { maxWidth := some 1 } } : State).params.maxWidth (2 - 0) ∧ 2 ^ (8 * (1 - 0)) ≤ 0x100 ∧
      ¬ (([(1, "a"), (1, "b")] : List (Nat × String)).map Prod.fst).Nodup ∧ 1 < 2 ∧ atFixed.params.maskWidth ≤ 32 ∧
      (0x07 : Nat) < (0x08 : BitVec 8).toNat ∧ (0x7F : BitVec 8).toNat < 0x80 :=
  ⟨rfl, by decide, fun h => absurd (h 1 rfl) (by decide), by decide, by decide, by decide, by decide, by decide,
    by decide⟩

theorem witness_BuildFrameLaysOutCommand : (zeros 254).length ≤ 254 := by simp

theorem witness_BuildFrameRefusesLongPayload : 254 < (zeros 255).length := by simp

theorem witness_BuiltFrameVerifies :
    exec (.buildFrame none none 1 []) loaded = .next (replied loaded (.bytes [0xFF, 0xFF, 0, 0, 1, 1, 0xFD]) []) := rfl

theorem witness_DecodeInvertsEncode :
    (Instr.frameAsync 3 3 [0xAA, 0xBB] 0x94).wf = true ∧ (Instr.fldUnknown08 "u" 0x0F 0 4).wf = true ∧
      (Instr.fldPredef "x" 0 1 (some 0xFF) [(1, "a")]).wf = true ∧ (Instr.frameDecode f3.bytes).wf = true := by decide

theorem witness_EverythingAssignedDecodes :
    10 ≤ (0xA : BitVec 4).toNat ∧ (0x9 : BitVec 4).toNat < 10 ∧
      ((bitmask "b" 2 0 0 0 "" "").code = 0x04 ∧ (bitmask "b" 2 0 0 0 "" "").reg = 2) ∧
      ((bitmask "b" 3 0 0 0 "" "").code = 0x04 ∧ (bitmask "b" 3 0 0 0 "" "").reg ≠ 1 ∧
        (bitmask "b" 3 0 0 0 "" "").reg ≠ 2) := by decide

/-- A request on the port after reset. -/
def asked (r : HostRequest) : State := { loaded with port := [r] }

theorem witness_StepRunsTheDecodedInstruction :
    ((asked (.issue (.xact 0x0 {}))).walk = none ∧ (asked (.issue (.xact 0x0 {}))).port = [.issue (.xact 0x0 {})] ∧
        decode (.xact 0x0 {}) = .ok .reset) ∧
      decode (.xact 0xA {}) = .error (.unassignedSelect 0xA) ∧
      (atFixed.walk = some fixedWalk ∧
        fixedWalk.entry.fields[fixedWalk.fi]? = some { name := "x", code := 0x02, lo := 0, hi := 0 } ∧
        decode (.fdesc { name := "x", code := 0x02, lo := 0, hi := 0 }) = .ok (.fldRaw "x" 0 0)) ∧
      (State.reset.walk = none ∧ State.reset.port = []) :=
  ⟨⟨rfl, rfl, rfl⟩, by decide, ⟨rfl, rfl, by decide⟩, rfl, rfl⟩

theorem witness_TransactionsAreAtomic :
    (asked (.issue (.xact 0x0 {}))).Idle ∧
      ∃ t, step (asked (.issue (.xact 0x0 {}))) = .next t := ⟨rfl, _, rfl⟩

theorem witness_ConfigurationIsNeverWritten :
    (∃ t, exec .reset { loaded with tableUsed := true } = .next t) ∧
      ∃ t, step { asked (.issue (.xact 0x0 {})) with tableUsed := true } = .next t := ⟨⟨_, rfl⟩, _, rfl⟩

theorem witness_TableLoadIsCheckedAndEarly :
    ((asked (.loadTable loaded.table)).walk = none ∧
        (asked (.loadTable loaded.table)).port = [.loadTable loaded.table] ∧
        (asked (.loadTable loaded.table)).tableUsed = false ∧ loaded.table.wf loaded.params = true) ∧
      ({ async := [(0x04, streamEntry)] } : Table).wf loaded.params = false ∧
      ({ asked (.loadTable {}) with tableUsed := true } : State).tableUsed = true :=
  ⟨⟨rfl, rfl, rfl, table_ok⟩, by decide, rfl⟩

theorem witness_OnlyTheAssemblerWritesPartial :
    ¬ writesPartial (.checksum [1]) ∧ ∃ t, exec (.checksum [1]) loaded = .next t := ⟨fun h => h, _, rfl⟩

theorem witness_PureInstructionsIgnorePartial : ¬ writesPartial (.decodeRecord f1 none none none) := fun h => h

theorem inv_loaded : State.Inv { asked (.issue (.xact 0x0 {})) with partialBuf := [0xFF] } :=
  ⟨table_ok, by decide, fun w (h : none = some w) => (Option.some_ne_none w h.symm).elim,
    fun r (h : none = some r) => (Option.some_ne_none r h.symm).elim⟩

theorem witness_StepKeepsInvariant :
    State.Inv { asked (.issue (.xact 0x0 {})) with partialBuf := [0xFF] } ∧
      ∃ t, step { asked (.issue (.xact 0x0 {})) with partialBuf := [0xFF] } = .next t := ⟨inv_loaded, _, rfl⟩

end Sys2Proof.Tests
end

/-! SUPPORT. The proofs of the family '10_state': the invariant of the machine in each step, and what a transaction
leaves unchanged. -/

namespace Sys2Proof

open Machine

/-- An entry of a well-formed table is well formed (rule R108). -/
theorem Table.lookup_wf {p : Params} {tb : Table} {f : Frame} {key : Option RespKey} {e : Entry}
    (ht : tb.wf p = true) (h : tb.lookup f key = some e) : e.wf p = true := by
  simp only [Table.wf, Bool.and_eq_true, List.all_eq_true] at ht
  obtain ⟨⟨-, hresp⟩, hasync⟩ := ht
  cases f with
  | async ev l pl c =>
    obtain ⟨l1, l2, hl, -⟩ := List.lookup_eq_some_iff.mp (show tb.async.lookup ev = some e from h)
    exact (hasync (ev, e) (by simp [hl])).2
  | response rc sq l pl c =>
    cases key with
    | none => cases h
    | some k =>
      obtain ⟨l1, l2, hl, -⟩ := List.lookup_eq_some_iff.mp (show tb.resp.lookup k = some e from h)
      exact (hresp (k, e) (by simp [hl])).2

end Sys2Proof

/-! ## The registers of a walk: the invariant apart from `FI` -/

namespace Sys2Proof.Machine

open Claims

/-- `Walk.Inv` without its clause on `FI`: what holds of the registers also where `FI` stands at the end of the list,
before `Walk.settle` has looked at it (rules R230, R236). -/
structure Walk.Sound (p : Params) (w : Walk) : Prop where
  entry_wf : w.entry.wf p = true
  frame_valid : w.frame.valid = true
  cur_le : w.cur ≤ w.payload.length
  cur_even : w.cur % 2 = 0
  names : ∀ x ∈ w.fields, x.1 ∈ w.entry.fields.map Descriptor.name
  mask1_fits : maskFits p w.mask1 = true
  mask2_fits : maskFits p w.mask2 = true
  cur_fixed : requiresMask p w.entry = false → w.cur = 0
  masks_active : requiresMask p w.entry = true →
    ∃ m1 m2, w.mask1 = some m1 ∧ w.mask2 = some m2 ∧ w.entry.fields.any (Descriptor.active m1 m2) = true
  samples_only : requiresMask p w.entry = true → ∀ x ∈ w.fields, ∃ l, x.2 = .samples l
  notes_nil : requiresMask p w.entry = true → w.notes = []

theorem Walk.inv_iff {p : Params} {w : Walk} : w.Inv p ↔ w.Sound p ∧ w.fi < w.entry.fields.length := by
  constructor
  · rintro ⟨he, hf, hfi, hc, h2, hn, hm1, hm2, hfix, hring⟩
    exact ⟨⟨he, hf, hc, h2, hn, hm1, hm2, hfix, fun h => (hring h).1, fun h => (hring h).2.1,
      fun h => (hring h).2.2⟩, hfi⟩
  · rintro ⟨h, hfi⟩
    exact ⟨h.entry_wf, h.frame_valid, hfi, h.cur_le, h.cur_even, h.names, h.mask1_fits, h.mask2_fits, h.cur_fixed,
      fun hm => ⟨h.masks_active hm, h.samples_only hm, h.notes_nil hm⟩⟩

/-- No other register depends on `FI`. -/
theorem Walk.Sound.setFi {p : Params} {w : Walk} (h : w.Sound p) (n : Nat) : ({ w with fi := n } : Walk).Sound p :=
  { h with }

/-- In mask-driven mode some field is active, so the list is not empty (rule R224). -/
theorem Walk.Sound.fields_pos {p : Params} {w : Walk} (h : w.Sound p) (hm : requiresMask p w.entry = true) :
    0 < w.entry.fields.length := by
  obtain ⟨m1, m2, -, -, ha⟩ := h.masks_active hm
  obtain ⟨d, hd, -⟩ := List.any_eq_true.mp ha
  exact List.length_pos_of_mem hd

/-- A store in fixed-offset mode, with whatever it notifies (rules R190, R231, R203). -/
theorem Walk.Sound.storeFixed {p : Params} {w : Walk} {n : String} (h : w.Sound p)
    (hm : requiresMask p w.entry = false) (hn : n ∈ w.entry.fields.map Descriptor.name) (v : Value)
    (notes : List Notification) :
    ({ w with fields := putField n v w.fields, notes := w.notes ++ notes } : Walk).Sound p where
  __ := h
  names := by
    intro x hx
    obtain rfl | hx := mem_putField hx
    · exact hn
    · exact h.names x hx
  samples_only := fun hm' => absurd (hm'.symm.trans hm) (by decide)
  notes_nil := fun hm' => absurd (hm'.symm.trans hm) (by decide)

/-- A store in mask-driven mode, of a sample list and with 2 bytes taken (rules R200, R234). -/
theorem Walk.Sound.storeSamples {p : Params} {w : Walk} {n : String} (h : w.Sound p)
    (hm : requiresMask p w.entry = true) (hn : n ∈ w.entry.fields.map Descriptor.name) (l : Samples)
    (hc : w.cur + 2 ≤ w.payload.length) :
    ({ w with fields := putField n (.samples l) w.fields, cur := w.cur + 2 } : Walk).Sound p where
  __ := h
  cur_le := hc
  cur_even := by simp [h.cur_even]
  names := by
    intro x hx
    obtain rfl | hx := mem_putField hx
    · exact hn
    · exact h.names x hx
  cur_fixed := fun hm' => absurd (hm.symm.trans hm') (by decide)
  samples_only := by
    intro _ x hx
    obtain rfl | hx := mem_putField hx
    · exact ⟨l, rfl⟩
    · exact h.samples_only hm x hx

/-- The registers at the start of a walk, past the guards of DECODE_RECORD (rules R224, R272). -/
theorem Walk.Sound.start {p : Params} {f : Frame} {e : Entry} {m1 m2 : Option Nat} (he : e.wf p = true)
    (hf : f.valid = true) (h1 : maskFits p m1 = true) (h2 : maskFits p m2 = true)
    (ha : requiresMask p e = true →
      ∃ k1 k2, m1 = some k1 ∧ m2 = some k2 ∧ e.fields.any (Descriptor.active k1 k2) = true) :
    (Walk.start f e m1 m2).Sound p where
  entry_wf := he
  frame_valid := hf
  cur_le := Nat.zero_le _
  cur_even := rfl
  names := by simp
  mask1_fits := h1
  mask2_fits := h2
  cur_fixed := fun _ => rfl
  masks_active := ha
  samples_only := by simp
  notes_nil := fun _ => rfl

/-! ## What a field step may make of a walk -/

/-- A walk that goes on meets the invariant, and a Record that ends one holds a Frame of the spec (rule R140). -/
def Progress.Good (p : Params) : Progress → Prop
  | .running w => w.Inv p
  | .finished r _ => r.frame.valid = true

theorem Walk.Sound.finish_good {p : Params} {w : Walk} (h : w.Sound p) : (w.finish p).Good p := h.frame_valid

theorem Walk.Sound.settle_good {p : Params} {w : Walk} (h : w.Sound p) : (w.settle p).Good p := by
  obtain ⟨hfi, he⟩ | ⟨-, hm, -, he⟩ | ⟨-, -, he⟩ := w.settle_cases p <;> rw [he]
  · exact Walk.inv_iff.mpr ⟨h, hfi⟩
  · exact Walk.inv_iff.mpr ⟨h.setFi 0, h.fields_pos hm⟩
  · exact h.finish_good

theorem Walk.Sound.advance_good {p : Params} {w : Walk} (h : w.Sound p) : (w.advance p).Good p :=
  (h.setFi _).settle_good

/-! ## The invariant under each write of the state -/

theorem State.Inv.withPort {s : State} (h : s.Inv) (q : List HostRequest) : ({ s with port := q } : State).Inv := h

theorem State.Inv.withTable {s : State} (h : s.Inv) {tb : Table} (ht : tb.wf s.params = true) :
    ({ s with table := tb } : State).Inv := by
  obtain ⟨-, hb, hw, hr⟩ := h
  exact ⟨ht, hb, hw, hr⟩

theorem State.Inv.withPartial {s : State} (h : s.Inv) {b : ByteSeq} (hb : Memory.wf s.params b = true) :
    ({ s with partialBuf := b } : State).Inv := by
  obtain ⟨ht, -, hw, hr⟩ := h
  exact ⟨ht, hb, hw, hr⟩

theorem State.Inv.withReply {s : State} (h : s.Inv) {r : Reply} (hv : r.result.framesValid) :
    ({ s with reply := some r } : State).Inv := by
  obtain ⟨ht, hb, hw, -⟩ := h
  exact ⟨ht, hb, hw, by rintro _ ⟨⟩; exact hv⟩

/-- The state in which DECODE_RECORD answers or starts its walk. -/
theorem State.Inv.recordStart {s : State} (h : s.Inv) : ({ s with tableUsed := true, walk := none } : State).Inv := by
  obtain ⟨ht, hb, -, hr⟩ := h
  exact ⟨ht, hb, by rintro _ ⟨⟩, hr⟩

theorem State.Inv.progress {s : State} (h : s.Inv) {g : Progress} (hg : g.Good s.params) : (s.progress g).Inv := by
  obtain ⟨ht, hb, hw, hr⟩ := h
  cases g with
  | running w => exact ⟨ht, hb, by rintro _ ⟨⟩; exact hg, hr⟩
  | finished r notes => exact ⟨ht, hb, by rintro _ ⟨⟩, by rintro _ ⟨⟩; exact hg⟩

theorem State.Inv.walkSound {s : State} {w : Walk} (h : s.Inv) (hw : s.walk = some w) : w.Sound s.params := by
  obtain ⟨-, -, hi, -⟩ := h
  exact (Walk.inv_iff.mp (hi w hw)).1

/-! ## Field steps and the run of a walk -/

/-- A descriptor of the entry keeps the invariant in the walk in progress. -/
theorem State.Inv.descriptorStep {s t : State} {w : Walk} {d : Descriptor} {i : Instr} (hs : s.Inv)
    (hw : s.walk = some w) (hd : w.entry.fields[w.fi]? = some d) (hi : decodeDescriptor d = .ok i)
    (h : exec i s = .next t) : t.Inv := by
  have hsound := hs.walkSound hw
  have hname : d.name ∈ w.entry.fields.map Descriptor.name := List.mem_map_of_mem (List.mem_of_getElem? hd)
  obtain ⟨w', hw', hcase⟩ := exec_descriptor_next hi h
  obtain rfl : w = w' := Option.some.inj (hw.symm.trans hw')
  obtain ⟨hm, v, notes, rfl⟩ | ⟨hm, rfl | rfl | ⟨l, hc, rfl⟩⟩ := hcase
  · exact hs.progress (hsound.storeFixed hm hname v notes).advance_good
  · exact hs.progress hsound.advance_good
  · exact hs.progress hsound.finish_good
  · exact hs.progress (hsound.storeSamples hm hname l hc).advance_good

theorem State.Inv.fieldStep {s t : State} {w : Walk} (hs : s.Inv) (hw : s.walk = some w)
    (h : fieldStep w s = .next t) : t.Inv := by
  rw [fieldStep_eq_stepWalk, ← step_walk hw] at h
  obtain ⟨w', hw', -, rfl⟩ | ⟨w', d, i, hw', hd, hi, he⟩ | ⟨hn, -⟩ | ⟨_, _, hn, -⟩ | ⟨_, _, _, hn, -⟩ := step_cases h
  · exact hs.progress (hs.walkSound hw').settle_good
  · exact hs.descriptorStep hw' hd hi he
  all_goals exact absurd (hw.symm.trans hn) (by simp)

theorem State.Inv.walkEntry {s t : State} {f : Frame} {e : Entry} {m1 m2 : Option Nat} (hs : s.Inv)
    (hsound : (Walk.start f e m1 m2).Sound s.params) (h : s.walkEntry f e m1 m2 = .next t) : t.Inv :=
  (runWalk_induct (fun _ _ _ hu hw hf => State.Inv.fieldStep hu hw hf) (hs.progress hsound.settle_good) h).1

/-! ## DECODE_RECORD -/

/-- Everything a DECODE_RECORD that completes can be: past its checks it passes the frame through raw, or it runs the
walk of the entry it found, in mask-driven mode with an active field (rules R220, R224, R272). -/
theorem execDecodeRecord_cases {f : Frame} {key : Option RespKey} {m1 m2 : Option Nat} {s t : State}
    (h : execDecodeRecord f key m1 m2 s = .next t) :
    f.valid = true ∧ maskFits s.params m1 = true ∧ maskFits s.params m2 = true ∧
      ((∃ reason, t = ({ s with tableUsed := true, walk := none } : State).respond (.raw f reason)) ∨
        ∃ e, s.table.lookup f key = some e ∧
          (requiresMask s.params e = true →
            ∃ k1 k2, m1 = some k1 ∧ m2 = some k2 ∧ e.fields.any (Descriptor.active k1 k2) = true) ∧
          State.walkEntry { s with tableUsed := true, walk := none } f e m1 m2 = .next t) := by
  unfold execDecodeRecord at h
  split at h
  · cases h
  split at h
  · cases h
  rename_i hf
  split at h
  · cases h
  rename_i hm
  simp only [Bool.not_eq_false, Bool.and_eq_true] at hf hm
  refine ⟨hf, hm.1, hm.2, ?_⟩
  dsimp only at h
  split at h
  · cases h; exact .inl ⟨_, rfl⟩
  split at h
  · cases h; exact .inl ⟨_, rfl⟩
  rename_i e he
  split at h
  · split at h
    · split at h
      · exact .inr ⟨e, he, fun _ => ⟨_, _, rfl, rfl, ‹_›⟩, h⟩
      · cases h; exact .inl ⟨_, rfl⟩
    · cases h; exact .inl ⟨_, rfl⟩
  · rename_i hr
    exact .inr ⟨e, he, fun hr' => absurd hr' hr, h⟩

theorem State.Inv.decodeRecord {s t : State} {f : Frame} {key : Option RespKey} {m1 m2 : Option Nat} (hs : s.Inv)
    (h : execDecodeRecord f key m1 m2 s = .next t) : t.Inv := by
  obtain ⟨hf, hm1, hm2, ⟨reason, rfl⟩ | ⟨e, he, ha, hwalk⟩⟩ := execDecodeRecord_cases h
  · exact hs.recordStart.withReply hf
  · exact hs.recordStart.walkEntry (.start (Table.lookup_wf hs.1 he) hf hm1 hm2 ha) hwalk

/-! ## What any instruction can do -/

/-- What an instruction that completes did to the state: it answered the host; it answered and wrote `PARTIAL`
legally; it was a DECODE_RECORD, alone or after the INGEST of a DECODE; or it was a field step of the walk in
progress. -/
inductive Effect (i : Instr) (s : State) : State → Prop
  | replied (r : Reply) (hr : r.result.framesValid) : Effect i s { s with reply := some r }
  | partialWritten (b : ByteSeq) (r : Reply) (hi : writesPartial i) (hb : Memory.wf s.params b = true)
      (hr : r.result.framesValid) : Effect i s { s with partialBuf := b, reply := some r }
  | recordDecoded {f key m1 m2 t} (h : execDecodeRecord f key m1 m2 s = .next t) : Effect i s t
  | chunkDecoded {b f key m1 m2 t} (hi : writesPartial i) (hb : Memory.wf s.params b = true)
      (h : execDecodeRecord f key m1 m2 { s with partialBuf := b } = .next t) : Effect i s t
  | fieldStepped {w} (g : Progress) (hw : s.walk = some w) : Effect i s (s.progress g)

theorem Effect.answerFrame {i : Instr} {s : State} {o : FrameOutcome} (h : ∀ f, o = .frame f → f.valid = true) :
    Effect i s (s.answerFrame o) := by
  cases o with
  | frame f => exact .replied _ (h f rfl)
  | mismatch x y => exact .replied _ trivial

theorem judgeFrame_frame_valid {f g : Frame} (hs : f.shapeOk = true) (h : judgeFrame f = .frame g) :
    g.valid = true := by
  obtain ⟨hv, hj⟩ | ⟨-, -, hj⟩ := judgeFrame_cases hs <;> rw [hj] at h <;> cases h
  exact hv

theorem Effect.ingest {c : ByteSeq} {s t : State} (h : execIngest c s = .next t) : Effect (.ingest c) s t := by
  unfold execIngest at h
  split at h <;> cases h
  rename_i o u hu
  obtain ⟨hu, hb, hv⟩ := State.ingest_spec hu
  rw [hu] at hb ⊢
  cases o with
  | frame f => exact .partialWritten _ _ trivial hb (hv f rfl)
  | none k => exact .partialWritten _ _ trivial hb trivial
  | mismatch x y => exact .partialWritten _ _ trivial hb trivial

theorem Effect.decode {c : ByteSeq} {key : Option RespKey} {m1 m2 : Option Nat} {s t : State}
    (h : execDecode c key m1 m2 s = .next t) : Effect (.decode c key m1 m2) s t := by
  unfold execDecode at h
  split at h
  · cases h
  split at h
  · cases h
  all_goals
    rename_i hu
    obtain ⟨hu, hb, -⟩ := State.ingest_spec hu
    rw [hu] at hb h
  · cases h; exact .partialWritten _ _ trivial hb trivial
  · cases h; exact .partialWritten _ _ trivial hb trivial
  · exact .chunkDecoded trivial hb h

/-- Each instruction that completes has one of the five effects. -/
theorem effect_of_exec {i : Instr} {s t : State} (h : exec i s = .next t) : Effect i s t := by
  have field : ∀ {f : Walk → Except Refusal Progress}, s.inWalk f = .next t → Effect i s t := by
    intro f hf
    obtain ⟨w, g, hw, -, rfl⟩ := State.inWalk_next hf
    exact .fieldStepped g hw
  cases i with
  | reset => cases h; exact .partialWritten [] _ trivial (Memory.wf_nil _) trivial
  | checksum b => cases h; exact .replied _ trivial
  | verify b c => cases h; exact .replied _ trivial
  | headerKind b =>
    simp only [exec, execHeaderKind] at h
    split at h <;> cases h
    exact .replied _ trivial
  | declaredLength b =>
    simp only [exec, execDeclaredLength] at h
    split at h <;> cases h
    exact .replied _ trivial
  | frameDecode b =>
    simp only [exec, execFrameDecode] at h
    split at h <;> cases h
    rename_i ho
    exact .answerFrame fun f hf => frameDecode_frame_valid (hf ▸ ho)
  | ingest c => exact .ingest h
  | decodeRecord f k m1 m2 => exact .recordDecoded h
  | decode c k m1 m2 => exact .decode h
  | buildFrame d c sq p =>
    simp only [exec, execBuildFrame] at h
    split at h <;> cases h
    exact .replied _ trivial
  | frameResponse rc sq l p c =>
    simp only [exec, execFrameResponse] at h
    split at h <;> cases h
    exact .answerFrame fun f hf => judgeFrame_frame_valid ‹_› hf
  | frameAsync ev l p c =>
    simp only [exec, execFrameAsync] at h
    split at h <;> cases h
    exact .answerFrame fun f hf => judgeFrame_frame_valid ‹_› hf
  | frameCommand d c sq p =>
    simp only [exec, execFrameCommand] at h
    split at h <;> cases h
    exact .replied _ trivial
  | _ => exact field h

/-- A transaction keeps the invariant; outside a walk a descriptor has no effect. -/
theorem Effect.keeps_inv {i : Instr} {s t : State} (hs : s.Inv) (hn : s.Idle) (h : Effect i s t) : t.Inv := by
  cases h with
  | replied r hr => exact hs.withReply hr
  | partialWritten b r _ hb hr => exact (hs.withPartial hb).withReply hr
  | recordDecoded h => exact hs.decodeRecord h
  | chunkDecoded _ hb h => exact (hs.withPartial hb).decodeRecord h
  | fieldStepped g hw => exact absurd (hw.symm.trans hn) (by simp)

theorem Effect.keeps_idle {i : Instr} {s t : State} (hn : s.Idle) (h : Effect i s t) : t.Idle := by
  cases h with
  | replied => exact hn
  | partialWritten => exact hn
  | recordDecoded h => obtain ⟨r, rfl⟩ := execDecodeRecord_next h; rfl
  | chunkDecoded _ _ h => obtain ⟨r, rfl⟩ := execDecodeRecord_next h; rfl
  | fieldStepped g hw => exact absurd (hw.symm.trans hn) (by simp)

theorem Effect.keeps_partial {i : Instr} {s t : State} (hi : ¬ writesPartial i) (h : Effect i s t) :
    t.partialBuf = s.partialBuf := by
  cases h with
  | replied => rfl
  | partialWritten _ _ hi' => exact absurd hi' hi
  | recordDecoded h => obtain ⟨r, rfl⟩ := execDecodeRecord_next h; rfl
  | chunkDecoded hi' => exact absurd hi' hi
  | fieldStepped g _ => obtain ⟨w, r, hg⟩ := s.progress_spec g; rw [hg]

end Sys2Proof.Machine

/-! ## The statements of the family -/

namespace Sys2Proof.Proofs

open Machine Claims

/-- Settles O58: a step inside a walk is a field step on sound registers, and a step between transactions is a load
or has one of the five effects. -/
theorem stepKeepsInvariant : Obligations.StepKeepsInvariant := by
  intro s t hs h
  obtain ⟨w, hw, -, rfl⟩ | ⟨w, d, i, hw, hd, hi, he⟩ | ⟨-, -, rfl⟩ | ⟨rest, tb, -, -, -, htb, rfl⟩ |
    ⟨rest, c, i, hn, -, -, he⟩ := step_cases h
  · exact hs.progress (hs.walkSound hw).settle_good
  · exact hs.descriptorStep hw hd hi he
  · exact hs
  · exact (hs.withPort rest).withTable htb
  · exact (effect_of_exec he).keeps_inv (hs.withPort rest) hn

/-- Settles O52: between transactions a step runs one whole instruction, which leaves no walk. -/
theorem transactionsAreAtomic : Obligations.TransactionsAreAtomic := by
  intro s t hn h
  obtain ⟨w, hw, -⟩ | ⟨w, _, _, hw, -⟩ | ⟨-, -, rfl⟩ | ⟨rest, tb, hn', -, -, -, rfl⟩ |
    ⟨rest, c, i, hn', -, -, he⟩ := step_cases h
  · exact absurd (hw.symm.trans hn) (by simp)
  · exact absurd (hw.symm.trans hn) (by simp)
  · exact hn
  · exact hn'
  · exact Effect.keeps_idle (s := { s with port := rest }) hn' (effect_of_exec he)

/-- What an instruction keeps of the configuration and the port (rules R42, R80). -/
theorem exec_keeps_configuration {i : Instr} {s t : State} (h : exec i s = .next t) :
    t.params = s.params ∧ t.table = s.table ∧ t.port = s.port ∧ (s.tableUsed = true → t.tableUsed = true) := by
  obtain ⟨b, u, w, r, rfl, hu⟩ := exec_next h
  refine ⟨rfl, rfl, rfl, fun hs => ?_⟩
  obtain rfl | rfl := hu
  · exact hs
  · rfl

/-- Settles O53: an instruction keeps the configuration, and the one step that writes the table is the load, which a
used table refuses. -/
theorem configurationIsNeverWritten : Obligations.ConfigurationIsNeverWritten := by
  refine ⟨fun i s t h => exec_keeps_configuration h, fun s t h => ?_⟩
  obtain ⟨w, -, -, rfl⟩ | ⟨w, d, i, -, -, -, he⟩ | ⟨-, -, rfl⟩ | ⟨rest, tb, -, -, hunused, -, rfl⟩ |
    ⟨rest, c, i, -, -, -, he⟩ := step_cases h
  · obtain ⟨w', r, hg⟩ := s.progress_spec (w.settle s.params)
    rw [hg]
    exact ⟨rfl, fun hu => ⟨rfl, hu⟩⟩
  · obtain ⟨hp, ht, -, hu⟩ := exec_keeps_configuration he
    exact ⟨hp, fun hs => ⟨ht, hu hs⟩⟩
  · exact ⟨rfl, fun hu => ⟨rfl, hu⟩⟩
  · exact ⟨rfl, fun hu => absurd (hu.symm.trans hunused) (by decide)⟩
  · obtain ⟨hp, ht, -, hu⟩ := exec_keeps_configuration he
    exact ⟨hp, fun hs => ⟨ht, hu hs⟩⟩

/-- Settles O56: of the five effects only two write `PARTIAL`, and both belong to INGEST, DECODE and RESET. -/
theorem onlyTheAssemblerWritesPartial : Obligations.OnlyTheAssemblerWritesPartial :=
  fun _ _ _ hi h => (effect_of_exec h).keeps_partial hi

/-- Settles O23: the reset state read field by field. -/
theorem resetStateIsEmpty : Obligations.ResetStateIsEmpty := ⟨rfl, rfl, rfl, rfl⟩

/-- Settles O59: the empty table is well formed, `PARTIAL` is empty, and there is no walk and no reply. -/
theorem resetMeetsInvariant : Obligations.ResetMeetsInvariant :=
  ⟨by decide, Memory.wf_reset, by rintro _ ⟨⟩, by rintro _ ⟨⟩⟩

end Sys2Proof.Proofs

/-! SUPPORT. The proofs of the family '20_memory': the step and what it runs, the instructions that do not read
`PARTIAL`, and DECODE_RECORD as a run of field steps. -/

namespace Sys2Proof.Machine

open Claims

/-! ## A step on a descriptor -/

/-- Inside a walk the descriptor at `FI` is what runs (rules R37, R284). -/
theorem stepWalk_descriptor {w : Walk} {d : Descriptor} {i : Instr} {s : State} (hd : w.entry.fields[w.fi]? = some d)
    (hi : decodeDescriptor d = .ok i) : stepWalk w s = exec i s := by
  simp [stepWalk, Walk.fetch_eq, hd, hi]

/-! ## DECODE_RECORD, one equation for each way it goes (rules R220, R222, R224, R237, R272) -/

theorem recordable_iff {s : State} {f : Frame} {m1 m2 : Option Nat} :
    recordable s f m1 m2 ↔
      s.table.wf s.params = true ∧ f.valid = true ∧ maskFits s.params m1 = true ∧ maskFits s.params m2 = true := by
  have fits (m : Option Nat) : (∀ k, m = some k → k < 2 ^ s.params.maskWidth) ↔ maskFits s.params m = true := by
    cases m <;> simp [maskFits]
  simp only [recordable, fits]

section RecordEquations

variable {f : Frame} {key : Option RespKey} {m1 m2 : Option Nat} {s : State} {e : Entry}

theorem execDecodeRecord_tableIllFormed (h : s.table.wf s.params = false) :
    execDecodeRecord f key m1 m2 s = .refused .tableIllFormed := if_pos h

theorem execDecodeRecord_notAFrame (ht : s.table.wf s.params = true) (hf : f.valid = false) :
    execDecodeRecord f key m1 m2 s = .refused .notAFrame := by simp [execDecodeRecord, ht, hf]

theorem execDecodeRecord_maskTooWide (ht : s.table.wf s.params = true) (hf : f.valid = true)
    (hm : ¬ (maskFits s.params m1 = true ∧ maskFits s.params m2 = true)) :
    execDecodeRecord f key m1 m2 s = .refused .maskTooWide := by
  have hm' : (maskFits s.params m1 && maskFits s.params m2) = false := by rw [← Bool.not_eq_true]; simpa using hm
  simp [execDecodeRecord, ht, hf, hm']

theorem execDecodeRecord_emptyPayload (h : recordable s f m1 m2) (hp : f.payload = []) :
    execDecodeRecord f key m1 m2 s =
      .next (({ s with tableUsed := true, walk := none } : State).respond (.raw f .emptyPayload)) := by
  obtain ⟨ht, hf, h1, h2⟩ := recordable_iff.mp h
  simp [execDecodeRecord, ht, hf, h1, h2, hp]

theorem execDecodeRecord_noEntry (h : recordable s f m1 m2) (hp : f.payload ≠ []) (hl : s.table.lookup f key = none) :
    execDecodeRecord f key m1 m2 s =
      .next (({ s with tableUsed := true, walk := none } : State).respond (.raw f .noEntry)) := by
  obtain ⟨ht, hf, h1, h2⟩ := recordable_iff.mp h
  simp [execDecodeRecord, ht, hf, h1, h2, hp, hl]

theorem execDecodeRecord_noContext (h : recordable s f m1 m2) (hp : f.payload ≠ [])
    (hl : s.table.lookup f key = some e) (hm : requiresMask s.params e = true) (hn : m1 = none ∨ m2 = none) :
    execDecodeRecord f key m1 m2 s =
      .next (({ s with tableUsed := true, walk := none } : State).respond (.raw f .missingStreamingContext)) := by
  obtain ⟨ht, hf, h1, h2⟩ := recordable_iff.mp h
  rcases hn with rfl | rfl
  · simp [execDecodeRecord, ht, hf, h1, h2, hp, hl, hm]
  · cases m1 <;> simp [execDecodeRecord, ht, hf, h1, h2, hp, hl, hm]

theorem execDecodeRecord_noActive {a b : Nat} (h : recordable s f (some a) (some b)) (hp : f.payload ≠ [])
    (hl : s.table.lookup f key = some e) (hm : requiresMask s.params e = true)
    (ha : ¬ e.fields.any (Descriptor.active a b) = true) :
    execDecodeRecord f key (some a) (some b) s =
      .next (({ s with tableUsed := true, walk := none } : State).respond (.raw f .noActiveField)) := by
  obtain ⟨ht, hf, h1, h2⟩ := recordable_iff.mp h
  simp only [execDecodeRecord, ht, hf, h1, h2, hp, hl, hm, ha, Bool.and_self, reduceCtorEq, if_true, if_false]

theorem execDecodeRecord_walk (h : recordable s f m1 m2) (hp : f.payload ≠ []) (hl : s.table.lookup f key = some e)
    (ha : requiresMask s.params e = true →
      ∃ a b, m1 = some a ∧ m2 = some b ∧ e.fields.any (Descriptor.active a b) = true) :
    execDecodeRecord f key m1 m2 s =
      State.walkEntry { s with tableUsed := true, walk := none } f e m1 m2 := by
  obtain ⟨ht, hf, h1, h2⟩ := recordable_iff.mp h
  cases hm : requiresMask s.params e with
  | false => simp [execDecodeRecord, ht, hf, h1, h2, hp, hl, hm]
  | true =>
    obtain ⟨a, b, rfl, rfl, hact⟩ := ha hm
    simp only [execDecodeRecord, ht, hf, h1, h2, hp, hl, hm, hact, Bool.and_self, reduceCtorEq, if_true, if_false]

end RecordEquations

/-! ## What does not read PARTIAL -/

/-- The state with another `PARTIAL`. -/
def State.setPartial (b : ByteSeq) (s : State) : State := { s with partialBuf := b }

@[simp] theorem State.setPartial_walk (b : ByteSeq) (s : State) : (s.setPartial b).walk = s.walk := rfl
@[simp] theorem State.setPartial_params (b : ByteSeq) (s : State) : (s.setPartial b).params = s.params := rfl
@[simp] theorem State.setPartial_table (b : ByteSeq) (s : State) : (s.setPartial b).table = s.table := rfl

/-- A meaning that answers the same whatever `PARTIAL` holds, and leaves it as it is (rules R77, R151). -/
def IgnoresPartial (f : State → Answer) : Prop :=
  ∀ (s : State) (b : ByteSeq), f (s.setPartial b) = onNext (State.setPartial b) (f s)

theorem State.progress_setPartial (s : State) (b : ByteSeq) (g : Progress) :
    (s.setPartial b).progress g = (s.progress g).setPartial b := by cases g <;> rfl

theorem State.answerFrame_setPartial (s : State) (b : ByteSeq) (o : FrameOutcome) :
    (s.setPartial b).answerFrame o = (s.answerFrame o).setPartial b := by cases o <;> rfl

/-- A field step reads the walk alone. -/
theorem State.inWalk_setPartial (f : Walk → Except Refusal Progress) (s : State) (b : ByteSeq) :
    (s.setPartial b).inWalk f = onNext (State.setPartial b) (s.inWalk f) := by
  cases hw : s.walk with
  | none => rw [State.inWalk_none hw, State.inWalk_none (s := s.setPartial b) hw]; rfl
  | some w =>
    cases hf : f w with
    | error r => rw [State.inWalk_error hw hf, State.inWalk_error (s := s.setPartial b) hw hf]; rfl
    | ok g =>
      rw [State.inWalk_ok hw hf, State.inWalk_ok (s := s.setPartial b) hw hf, State.progress_setPartial]; rfl

theorem execField_ignoresPartial (i : Instr) : IgnoresPartial (execField i) := by
  intro s b
  cases i
  case reset | checksum | verify | headerKind | declaredLength | frameDecode | ingest | decodeRecord | decode |
      buildFrame | frameResponse | frameAsync | frameCommand => rfl
  all_goals exact State.inWalk_setPartial _ s b

theorem fieldStep_ignoresPartial (w : Walk) : IgnoresPartial (fieldStep w) := by
  intro s b
  unfold fieldStep
  split
  · rw [State.progress_setPartial]; rfl
  · rfl
  · exact execField_ignoresPartial _ s b

theorem runWalk_ignoresPartial (n : Nat) : IgnoresPartial (runWalk n) := by
  induction n with
  | zero =>
    intro s b
    simp only [runWalk, State.setPartial_walk]
    cases s.walk <;> rfl
  | succ n ih =>
    intro s b
    simp only [runWalk, State.setPartial_walk]
    cases s.walk with
    | none => rfl
    | some w =>
      simp only [fieldStep_ignoresPartial w s b]
      cases fieldStep w s with
      | next t => exact ih t b
      | fault e => rfl
      | refused r => rfl

theorem State.walkEntry_ignoresPartial (f : Frame) (e : Entry) (m1 m2 : Option Nat) :
    IgnoresPartial fun s => s.walkEntry f e m1 m2 := by
  intro s b
  simp only [State.walkEntry, State.setPartial_params, State.progress_setPartial]
  exact runWalk_ignoresPartial _ _ b

theorem execDecodeRecord_ignoresPartial (f : Frame) (key : Option RespKey) (m1 m2 : Option Nat) :
    IgnoresPartial (execDecodeRecord f key m1 m2) := by
  intro s b
  by_cases ht : s.table.wf s.params = true
  case neg =>
    have ht := Bool.eq_false_iff.mpr ht
    rw [execDecodeRecord_tableIllFormed ht, execDecodeRecord_tableIllFormed (s := s.setPartial b) ht]; rfl
  by_cases hf : f.valid = true
  case neg =>
    have hf := Bool.eq_false_iff.mpr hf
    rw [execDecodeRecord_notAFrame ht hf, execDecodeRecord_notAFrame (s := s.setPartial b) ht hf]; rfl
  by_cases hm : maskFits s.params m1 = true ∧ maskFits s.params m2 = true
  case neg =>
    rw [execDecodeRecord_maskTooWide ht hf hm, execDecodeRecord_maskTooWide (s := s.setPartial b) ht hf hm]; rfl
  have h : recordable s f m1 m2 := recordable_iff.mpr ⟨ht, hf, hm⟩
  by_cases hp : f.payload = []
  · rw [execDecodeRecord_emptyPayload h hp, execDecodeRecord_emptyPayload (s := s.setPartial b) h hp]; rfl
  cases hl : s.table.lookup f key with
  | none => rw [execDecodeRecord_noEntry h hp hl, execDecodeRecord_noEntry (s := s.setPartial b) h hp hl]; rfl
  | some e =>
    have walk (ha : requiresMask s.params e = true →
        ∃ x y, m1 = some x ∧ m2 = some y ∧ e.fields.any (Descriptor.active x y) = true) :
        execDecodeRecord f key m1 m2 (s.setPartial b) =
          onNext (State.setPartial b) (execDecodeRecord f key m1 m2 s) := by
      rw [execDecodeRecord_walk h hp hl ha, execDecodeRecord_walk (s := s.setPartial b) h hp hl ha]
      exact State.walkEntry_ignoresPartial f e m1 m2 { s with tableUsed := true, walk := none } b
    by_cases hr : requiresMask s.params e = true
    case neg => exact walk fun hr' => absurd hr' hr
    have noContext (hn : m1 = none ∨ m2 = none) : execDecodeRecord f key m1 m2 (s.setPartial b) =
        onNext (State.setPartial b) (execDecodeRecord f key m1 m2 s) := by
      rw [execDecodeRecord_noContext h hp hl hr hn,
        execDecodeRecord_noContext (s := s.setPartial b) h hp hl hr hn]; rfl
    match m1, m2 with
    | none, _ => exact noContext (.inl rfl)
    | some _, none => exact noContext (.inr rfl)
    | some x, some y =>
      by_cases ha : e.fields.any (Descriptor.active x y) = true
      · exact walk fun _ => ⟨x, y, rfl, rfl, ha⟩
      · rw [execDecodeRecord_noActive h hp hl hr ha,
          execDecodeRecord_noActive (s := s.setPartial b) h hp hl hr ha]; rfl

/-- Every instruction but the Frame Assembler's own answers the same whatever `PARTIAL` holds. -/
theorem exec_ignoresPartial {i : Instr} (hi : ¬ writesPartial i) : IgnoresPartial (exec i) := by
  intro s b
  cases i with
  | reset => exact absurd trivial hi
  | ingest c => exact absurd trivial hi
  | decode c k m1 m2 => exact absurd trivial hi
  | checksum c => rfl
  | verify c x => rfl
  | headerKind c => simp only [exec, execHeaderKind]; split <;> rfl
  | declaredLength c => simp only [exec, execDeclaredLength]; split <;> rfl
  | frameDecode c =>
    simp only [exec, execFrameDecode, State.answerFrame_setPartial]
    split <;> rfl
  | decodeRecord f k m1 m2 => exact execDecodeRecord_ignoresPartial f k m1 m2 s b
  | buildFrame d c sq p => simp only [exec, execBuildFrame]; split <;> rfl
  | frameResponse rc sq l p c =>
    simp only [exec, execFrameResponse, State.answerFrame_setPartial]
    split <;> rfl
  | frameAsync ev l p c =>
    simp only [exec, execFrameAsync, State.answerFrame_setPartial]
    split <;> rfl
  | frameCommand d c sq p => simp only [exec, execFrameCommand]; split <;> rfl
  | _ => exact State.inWalk_setPartial _ s b

/-! ## The descriptors of a well-formed entry -/

/-- W2 to W6 and W8 on one descriptor of a well-formed entry (rule R108). -/
theorem Entry.wf_descriptor {p : Params} {e : Entry} {d : Descriptor} (h : e.wf p = true) (hd : d ∈ e.fields) :
    d.w2 = true ∧ d.w3 p = true ∧ d.isBitmask = requiresMask p e ∧ d.w6 p = true ∧ d.w8 = true := by
  simp only [Entry.wf, Bool.and_eq_true, List.all_eq_true] at h
  obtain ⟨⟨⟨⟨h2, h3⟩, hb⟩, h6⟩, h8⟩ := h.2 d hd
  exact ⟨h2, h3, eq_of_beq hb, h6, h8⟩

/-- W2 on a recognised type of fixed-offset mode. -/
theorem Descriptor.lo_le_hi {d : Descriptor} (h : d.w2 = true) (hk : d.code.toNat < 6) (hb : d.code ≠ 4) :
    d.lo ≤ d.hi := by
  have hb' : ¬ d.code = 4#8 := hb
  simpa [Descriptor.w2, Descriptor.isKnown, Descriptor.isBitmask, hk, hb'] using h

/-- W3 on an integer-valued type. -/
theorem Descriptor.intRange_ok {p : Params} {d : Descriptor} (h : d.w3 p = true)
    (hc : d.code = 0 ∨ d.code = 3 ∨ d.code = 5) : d.lo < d.hi ∧ widthOk p d.lo d.hi = true := by
  rcases hc with hc | hc | hc <;> simpa [Descriptor.w3, hc] using h

/-! ## A field step of a sound walk succeeds -/

/-- A fixed field of legal attributes stores a value, in range or not (rules R229, R231). -/
theorem fixedField_total {p : Params} {name : String} {lo hi : Nat} {ok : Bool} {w : Walk} (value : ByteSeq → Value)
    (ha : ok = true) (hm : requiresMask p w.entry = false) :
    ∃ v notes, fixedField p name lo hi ok value w =
      .ok (({ w with fields := putField name v w.fields, notes := w.notes ++ notes } : Walk).advance p) := by
  cases hr : memRead w.payload lo (hi - lo) with
  | some b => exact ⟨value b, [], by simp [fixedField, ha, hm, hr, Walk.put]⟩
  | none => exact ⟨_, _, by simp only [fixedField, ha, hm, hr]; rfl⟩

/-- The recognised types of fixed-offset mode (rule R104). -/
theorem code_fixed : ∀ c : BitVec 8, c.toNat < 6 → c ≠ 4 → c = 0 ∨ c = 1 ∨ c = 2 ∨ c = 3 ∨ c = 5 := by decide

/-- A descriptor of a well-formed fixed-offset entry decodes, and runs with its attributes found legal: as
`FIXED_FIELD` with the value of its type, or as an unrecognised type (rules R108, R114, R229). -/
theorem exec_fixedDescriptor {s : State} {e : Entry} {d : Descriptor} (he : e.wf s.params = true)
    (hm : requiresMask s.params e = false) (hd : d ∈ e.fields) :
    ∃ i, decodeDescriptor d = .ok i ∧
      ((∃ value, exec i s = s.inWalk (fixedField s.params d.name d.lo d.hi true value)) ∨
        exec i s = s.inWalk (unknownField s.params d.name d.code true)) := by
  obtain ⟨h2, h3, hb, -, h8⟩ := Entry.wf_descriptor he hd
  have hne : d.code ≠ 4 := beq_eq_false_iff_ne.mp (hb.trans hm)
  by_cases hk : d.code.toNat < 6
  · have hle := Descriptor.lo_le_hi h2 hk hne
    have range := Descriptor.intRange_ok h3
    obtain hc | hc | hc | hc | hc := code_fixed _ hk hne
    · obtain ⟨hlt, hwidth⟩ := range (.inl hc)
      cases hf : d.format
      · exact ⟨_, decodeDescriptor_num hc hf, .inl ⟨_, by simp only [exec, execFldNum, Instr.wf, hlt, hwidth]; rfl⟩⟩
      · exact ⟨_, decodeDescriptor_hex hc hf, .inl ⟨_, by simp only [exec, execFldHex, Instr.wf, hlt, hwidth]; rfl⟩⟩
    · exact ⟨_, decodeDescriptor_text hc, .inl ⟨_, by simp only [exec, execFldText, Instr.wf, hle]; rfl⟩⟩
    · exact ⟨_, decodeDescriptor_raw hc, .inl ⟨_, by simp only [exec, execFldRaw, Instr.wf, hle]; rfl⟩⟩
    · obtain ⟨hlt, hwidth⟩ := range (.inr (.inl hc))
      obtain ⟨hmask, hkeys⟩ : pmaskFits d.lo d.hi d.pmask = true ∧ distinctKeys d.values = true := by
        simpa [Descriptor.w8, hc] using h8
      exact ⟨_, decodeDescriptor_predef hc,
        .inl ⟨_, by simp only [exec, execFldPredef, Instr.wf, hlt, hwidth, hmask, hkeys]; rfl⟩⟩
    · obtain ⟨hlt, hwidth⟩ := range (.inr (.inr hc))
      exact ⟨_, decodeDescriptor_signed hc, .inl ⟨_, by simp only [exec, execFldSigned, Instr.wf, hlt, hwidth]; rfl⟩⟩
  · obtain ⟨i, hi, hwf, hu⟩ := decodeDescriptor_unknown (Nat.not_lt.mp hk)
    refine ⟨i, hi, .inr ?_⟩
    rw [← hwf]
    obtain rfl | rfl | rfl | rfl | rfl | rfl := hu <;> rfl

/-- In fixed-offset mode the descriptor at `FI` of a well-formed entry stores a value under its name and advances. -/
theorem stepWalk_fixed {s : State} {w : Walk} {d : Descriptor} (hw : s.walk = some w)
    (he : w.entry.wf s.params = true) (hm : requiresMask s.params w.entry = false)
    (hd : w.entry.fields[w.fi]? = some d) :
    ∃ v notes, stepWalk w s = .next (s.progress
      (({ w with fields := putField d.name v w.fields, notes := w.notes ++ notes } : Walk).advance s.params)) := by
  obtain ⟨i, hi, ⟨value, hx⟩ | hx⟩ := exec_fixedDescriptor he hm (List.mem_of_getElem? hd)
  all_goals rw [stepWalk_descriptor hd hi, hx]
  · obtain ⟨v, notes, hf⟩ := fixedField_total (name := d.name) (lo := d.lo) (hi := d.hi) value rfl hm
    exact ⟨v, notes, State.inWalk_ok hw hf⟩
  · exact ⟨_, _, State.inWalk_ok hw (unknownField_eq rfl hm)⟩

/-- In mask-driven mode, where `REC` holds sample lists only, a sample always has a list to join (rule R200). -/
theorem sampleValue_samples {fields : FieldMap} (h : ∀ x ∈ fields, ∃ l, x.2 = Value.samples l) (name : String)
    (fresh : Samples) (raw : Nat) : ∃ l, sampleValue fresh raw (fields.lookup name) = some (.samples l) := by
  cases hl : fields.lookup name with
  | none => exact ⟨_, rfl⟩
  | some v =>
    obtain ⟨l1, l2, hf, -⟩ := List.lookup_eq_some_iff.mp hl
    obtain ⟨l, rfl⟩ : ∃ l, v = .samples l := h (name, v) (by simp [hf])
    exact ⟨_, rfl⟩

/-- W6 on FLD.BITMASK: the mask register it names exists and its bit is in it (rules R107, R108). -/
theorem Descriptor.maskReg_ok {p : Params} {d : Descriptor} (h : d.w6 p = true) (hc : d.code = 4) :
    (∃ r, maskRegOf d.reg = .ok r ∧
      ∀ (w : Walk) (a b : Nat), w.mask1 = some a → w.mask2 = some b →
        ∃ m, w.mask r = some m ∧ maskBit m d.bit = d.active a b) ∧
      d.bit < p.maskWidth := by
  obtain ⟨hreg, hbit⟩ : (d.reg = 1 ∨ d.reg = 2) ∧ d.bit < p.maskWidth := by
    simpa [Descriptor.w6, Descriptor.isBitmask, hc] using h
  refine ⟨?_, hbit⟩
  obtain hr | hr := hreg
  · exact ⟨.mask1, by simp [maskRegOf, hr], fun w a b ha hb => ⟨a, ha, by simp [Descriptor.active, hr]⟩⟩
  · exact ⟨.mask2, by simp [maskRegOf, hr], fun w a b ha hb => ⟨b, hb, by simp [Descriptor.active, hr]⟩⟩

/-- In mask-driven mode the descriptor at `FI` of a sound walk is skipped when it is inactive; an active one ends the
walk or takes 2 bytes (rules R233 to R235). -/
theorem stepWalk_ring {s : State} {w : Walk} {d : Descriptor} {a b : Nat} (hw : s.walk = some w)
    (hs : w.Sound s.params) (hm : requiresMask s.params w.entry = true) (h1 : w.mask1 = some a)
    (h2 : w.mask2 = some b) (hd : w.entry.fields[w.fi]? = some d) :
    (d.active a b = false ∧ stepWalk w s = .next (s.progress (w.advance s.params))) ∨
      (d.active a b = true ∧
        (stepWalk w s = .next (s.progress (w.finish s.params)) ∨
          ∃ l, w.cur + 2 ≤ w.payload.length ∧ stepWalk w s = .next (s.progress
            (({ w with fields := putField d.name (.samples l) w.fields, cur := w.cur + 2 } : Walk).advance
              s.params)))) := by
  obtain ⟨-, -, hb, h6, -⟩ := Entry.wf_descriptor hs.entry_wf (List.mem_of_getElem? hd)
  have hc : d.code = 4 := eq_of_beq (hb.trans hm)
  obtain ⟨⟨r, hr, hmask⟩, hbit⟩ := Descriptor.maskReg_ok h6 hc
  obtain ⟨m, hwm, hact⟩ := hmask w a b h1 h2
  have hi := decodeDescriptor_bitmask hc
  rw [hr] at hi
  have step {g : Progress} (hg : ringField s.params d.name r d.bit ⟨d.sensor, d.rangeBottom, d.rangeTop, d.units, []⟩ w
      = .ok g) : stepWalk w s = .next (s.progress g) := by
    rw [stepWalk_descriptor hd hi]
    exact State.inWalk_ok hw hg
  cases ha : d.active a b with
  | false => exact .inl ⟨rfl, step (ringField_inactive hbit hm hwm (hact.trans ha))⟩
  | true =>
    refine .inr ⟨rfl, ?_⟩
    have hact := hact.trans ha
    by_cases hcur : w.cur + 2 ≤ w.payload.length
    · obtain ⟨l, hl⟩ := sampleValue_samples (hs.samples_only hm) d.name _ _
      exact .inr ⟨l, hcur, step (ringField_sample hbit hm hwm hact hcur hl)⟩
    · exact .inl (step (ringField_short hbit hm hwm hact (Nat.not_le.mp hcur)))

/-! ## The field steps left to a walk (rules R238, R321) -/

/-- Some descriptor from `FI` to the end of the list is active. -/
def Walk.activeAhead (w : Walk) : Bool :=
  (w.entry.fields.drop w.fi).any (Descriptor.active (w.mask1.getD 0) (w.mask2.getD 0))

/-- A bound on the turns of the field list that a walk still makes, the present one included. In mask-driven mode every
turn but the last takes a sample, and the present one does so only when an active field is ahead. -/
def Walk.turnsLeft (p : Params) (w : Walk) : Nat :=
  if requiresMask p w.entry then (w.payload.length - w.cur) / 2 + (if w.activeAhead then 1 else 2) else 1

/-- A bound on the field steps that a walk still makes. -/
def Walk.stepsLeft (p : Params) (w : Walk) : Nat := w.turnsLeft p * w.entry.fields.length - w.fi

/-- The same bound for what a field step makes of a walk. -/
def Progress.stepsLeft (p : Params) : Progress → Nat
  | .running w => w.stepsLeft p
  | .finished _ _ => 0

theorem Walk.turnsLeft_pos (p : Params) (w : Walk) : 1 ≤ w.turnsLeft p := by
  unfold Walk.turnsLeft
  split
  · split <;> omega
  · exact le_rfl

/-- A walk with a field to run has a step left. -/
theorem Walk.fi_lt_turns {p : Params} {w : Walk} (h : w.fi < w.entry.fields.length) :
    w.fi < w.turnsLeft p * w.entry.fields.length :=
  h.trans_le (Nat.le_mul_of_pos_left _ (w.turnsLeft_pos p))

/-- At `FI = 0` of a sound mask-driven walk an active field is ahead (rule R237). -/
theorem Walk.Sound.activeAhead_zero {p : Params} {w : Walk} (h : w.Sound p) (hm : requiresMask p w.entry = true)
    (hfi : w.fi = 0) : w.activeAhead = true := by
  obtain ⟨a, b, h1, h2, ha⟩ := h.masks_active hm
  simpa [Walk.activeAhead, hfi, h1, h2] using ha

/-- Past an inactive field the same active fields are ahead. -/
theorem Walk.activeAhead_skip {w : Walk} {d : Descriptor} {a b : Nat} (h1 : w.mask1 = some a) (h2 : w.mask2 = some b)
    (hd : w.entry.fields[w.fi]? = some d) (ha : d.active a b = false) :
    ({ w with fi := w.fi + 1 } : Walk).activeAhead = w.activeAhead := by
  obtain ⟨hlt, rfl⟩ := List.getElem?_eq_some_iff.mp hd
  simp only [Walk.activeAhead, h1, h2, Option.getD_some]
  rw [List.drop_eq_getElem_cons hlt, List.any_cons, ha, Bool.false_or]

theorem Walk.activeAhead_here {w : Walk} {d : Descriptor} {a b : Nat} (h1 : w.mask1 = some a) (h2 : w.mask2 = some b)
    (hd : w.entry.fields[w.fi]? = some d) (ha : d.active a b = true) : w.activeAhead = true := by
  obtain ⟨hlt, rfl⟩ := List.getElem?_eq_some_iff.mp hd
  simp only [Walk.activeAhead, h1, h2, Option.getD_some]
  rw [List.drop_eq_getElem_cons hlt, List.any_cons, ha, Bool.true_or]

/-- The test of the end of the list, the restart included, leaves no more steps than there were. -/
theorem Walk.Sound.settle_stepsLeft {p : Params} {w : Walk} (h : w.Sound p) (hfi : w.fi ≤ w.entry.fields.length) :
    (w.settle p).stepsLeft p ≤ w.stepsLeft p := by
  obtain ⟨-, he⟩ | ⟨hend, hm, -, he⟩ | ⟨-, -, he⟩ := w.settle_cases p <;> rw [he]
  · exact le_rfl
  · have hend : w.fi = w.entry.fields.length := by omega
    have hlast : w.activeAhead = false := by simp [Walk.activeAhead, hend]
    have hfirst : ({ w with fi := 0 } : Walk).activeAhead = true := (h.setFi 0).activeAhead_zero hm rfl
    have hpay : ({ w with fi := 0 } : Walk).payload = w.payload := rfl
    simp only [Progress.stepsLeft, Walk.stepsLeft, Walk.turnsLeft, hm, hlast, hfirst, hend, hpay, if_true,
      Bool.false_eq_true, if_false]
    rw [Nat.add_mul _ 2, Nat.add_mul _ 1]
    omega
  · exact Nat.zero_le _

/-- An advance that makes no turn longer uses up one step. -/
theorem Walk.Sound.advance_stepsLeft {p : Params} {w v : Walk} (h : v.Sound p) (he : v.entry = w.entry)
    (hv : v.fi = w.fi) (hfi : w.fi < w.entry.fields.length)
    (ht : ({ v with fi := v.fi + 1 } : Walk).turnsLeft p ≤ w.turnsLeft p) :
    (v.advance p).stepsLeft p < w.stepsLeft p := by
  have hsettle := (h.setFi (v.fi + 1)).settle_stepsLeft (by simp only [he, hv]; omega)
  have hmul := Nat.mul_le_mul_right w.entry.fields.length ht
  have hpos := Walk.fi_lt_turns (p := p) hfi
  refine hsettle.trans_lt ?_
  simp only [Walk.stepsLeft, he, hv] at hmul ⊢
  omega

/-- Every field step of a sound walk goes on, keeps the walk sound and uses up at least one step. -/
theorem fieldStep_progress {s : State} {w : Walk} (hw : s.walk = some w) (h : w.Inv s.params) :
    ∃ g, fieldStep w s = .next (s.progress g) ∧ g.Good s.params ∧ g.stepsLeft s.params < w.stepsLeft s.params := by
  rw [fieldStep_eq_stepWalk]
  obtain ⟨hs, hfi⟩ := Walk.inv_iff.mp h
  have hd : w.entry.fields[w.fi]? = some w.entry.fields[w.fi] := List.getElem?_eq_getElem hfi
  have hname := List.mem_map_of_mem (f := Descriptor.name) (List.mem_of_getElem? hd)
  cases hm : requiresMask s.params w.entry with
  | false =>
    obtain ⟨v, notes, hstep⟩ := stepWalk_fixed hw hs.entry_wf hm hd
    have hs' := hs.storeFixed hm hname v notes
    exact ⟨_, hstep, hs'.advance_good, hs'.advance_stepsLeft rfl rfl hfi (by simp [Walk.turnsLeft, hm])⟩
  | true =>
    obtain ⟨a, b, h1, h2, -⟩ := hs.masks_active hm
    obtain ⟨ha, hstep⟩ | ⟨ha, hstep | ⟨l, hcur, hstep⟩⟩ := stepWalk_ring hw hs hm h1 h2 hd
    · refine ⟨_, hstep, hs.advance_good, hs.advance_stepsLeft rfl rfl hfi ?_⟩
      simp [Walk.turnsLeft, Walk.activeAhead_skip h1 h2 hd ha, Walk.payload]
    · exact ⟨_, hstep, hs.finish_good, Nat.sub_pos_of_lt (Walk.fi_lt_turns hfi)⟩
    · have hs' := hs.storeSamples hm hname l hcur
      refine ⟨_, hstep, hs'.advance_good, hs'.advance_stepsLeft rfl rfl hfi ?_⟩
      simp only [Walk.turnsLeft, hm, Walk.activeAhead_here h1 h2 hd ha, if_true]
      simp only [Walk.payload] at hcur ⊢
      split <;> omega

/-! ## The run of a walk -/

/-- The run of a sound walk ends within the bound on its steps. -/
theorem runWalk_ends {n : Nat} {s : State} {g : Progress} (hg : g.Good s.params) (hn : g.stepsLeft s.params ≤ n) :
    ∃ t, runWalk n (s.progress g) = .next t := by
  induction n generalizing s g with
  | zero =>
    cases g with
    | finished r notes => exact ⟨_, runWalk_done rfl⟩
    | running w =>
      obtain ⟨g, -, -, hlt⟩ := fieldStep_progress (s := s.progress (.running w)) rfl hg
      exact absurd (hlt.trans_le hn) (Nat.not_lt_zero _)
  | succ n ih =>
    cases g with
    | finished r notes => exact ⟨_, runWalk_done rfl⟩
    | running w =>
      obtain ⟨g, hstep, hgood, hlt⟩ := fieldStep_progress (s := s.progress (.running w)) rfl hg
      obtain ⟨t, ht⟩ := ih hgood (Nat.lt_succ_iff.mp (hlt.trans_le hn))
      exact ⟨t, by rw [runWalk_step rfl hstep, ht]⟩

theorem core_run_succ {M : Host.Core} {k : Nat} {s t : M.State} (h : M.step s = .next t) :
    M.run (k + 1) s = M.run k t := by simp [Host.Core.run, h]

/-- A run of field steps that ends is a run of the machine, of no more steps. -/
theorem core_run_of_runWalk {n : Nat} {s t : State} (h : runWalk n s = .next t) :
    ∃ k, k ≤ n ∧ Host.Core.run Sys2Proof.core k s = .next t := by
  induction n generalizing s with
  | zero =>
    cases hw : s.walk with
    | none => rw [runWalk_done hw] at h; exact ⟨0, le_rfl, h⟩
    | some w => rw [runWalk, hw] at h; cases h
  | succ n ih =>
    cases hw : s.walk with
    | none => rw [runWalk_done hw] at h; exact ⟨0, Nat.zero_le _, h⟩
    | some w =>
      cases hf : fieldStep w s with
      | next u =>
        rw [runWalk_step hw hf] at h
        obtain ⟨k, hk, hrun⟩ := ih h
        have hstep : step s = .next u := by rw [step_walk hw, ← fieldStep_eq_stepWalk, hf]
        exact ⟨k + 1, Nat.succ_le_succ hk, (core_run_succ (M := Sys2Proof.core) hstep).trans hrun⟩
      | fault e => simp [runWalk, hw, hf] at h
      | refused e => simp [runWalk, hw, hf] at h

/-- Rule R321's bound at the start of a walk. -/
theorem Walk.Sound.start_stepsLeft {p : Params} {f : Frame} {e : Entry} {m1 m2 : Option Nat}
    (h : (Walk.start f e m1 m2).Sound p) :
    (Walk.start f e m1 m2).stepsLeft p ≤ (f.payload.length / 2 + 1) * e.fields.length := by
  refine (Nat.sub_le _ _).trans (Nat.mul_le_mul_right _ ?_)
  cases hm : requiresMask p e with
  | false => simp [Walk.turnsLeft, hm]
  | true => simp [Walk.turnsLeft, hm, h.activeAhead_zero hm rfl, Walk.payload]

/-- The walk of a DECODE_RECORD ends, and the machine reaches its end from the walk registers at their start values,
within rule R321's bound. -/
theorem State.walkEntry_eq_run {s : State} {f : Frame} {e : Entry} {m1 m2 : Option Nat} (hne : e.fields ≠ [])
    (h : (Walk.start f e m1 m2).Sound s.params) :
    ∃ n, n ≤ (f.payload.length / 2 + 1) * e.fields.length ∧
      Host.Core.run Sys2Proof.core n { s with walk := some (Walk.start f e m1 m2) } = s.walkEntry f e m1 m2 := by
  have hpos : (Walk.start f e m1 m2).fi < e.fields.length := List.length_pos_iff.mpr hne
  have hgood : (Progress.running (Walk.start f e m1 m2)).Good s.params := Walk.inv_iff.mpr ⟨h, hpos⟩
  obtain ⟨t, ht⟩ := runWalk_ends hgood h.start_stepsLeft
  obtain ⟨n, hn, hrun⟩ := core_run_of_runWalk ht
  refine ⟨n, hn, hrun.trans ?_⟩
  have hfuel : (f.payload.length / 2 + 1) * e.fields.length ≤ walkFuel (Walk.start f e m1 m2) :=
    Nat.mul_le_mul_right _ (Nat.succ_le_succ (Nat.div_le_self _ _))
  obtain ⟨k, hk⟩ := Nat.exists_eq_add_of_le hfuel
  rw [State.walkEntry, Walk.settle_running hpos, hk]
  exact (runWalk_mono ht).symm

end Sys2Proof.Machine

/-! ## The statements of the family -/

namespace Sys2Proof.Proofs

open Machine Claims

/-- Settles O31: past its tests DECODE_RECORD is the run of a walk, each field step of which is a step of the machine
and uses up one of the steps the bound counts. -/
theorem decodeRecordIsTheWalkRunToItsEnd : Obligations.DecodeRecordIsTheWalkRunToItsEnd := by
  intro f key m1 m2 s e h hp hl hne hact
  have hact' : requiresMask s.params e = true →
      ∃ a b, m1 = some a ∧ m2 = some b ∧ e.fields.any (Descriptor.active a b) = true := by
    intro hm
    obtain ⟨a, b, ha, hb, hd⟩ := hact (requiresMask_iff.mp hm)
    exact ⟨a, b, ha, hb, List.any_eq_true.mpr hd⟩
  obtain ⟨ht, hf, h1, h2⟩ := recordable_iff.mp h
  have hsound : (Walk.start f e m1 m2).Sound s.params := .start (Table.lookup_wf ht hl) hf h1 h2 hact'
  obtain ⟨n, hn, hrun⟩ := State.walkEntry_eq_run (s := { s with tableUsed := true, walk := none }) hne hsound
  exact ⟨n, hn, hrun.trans (execDecodeRecord_walk h hp hl hact').symm⟩

/-- Settles O57: no instruction but the Frame Assembler's own reads `PARTIAL`. -/
theorem pureInstructionsIgnorePartial : Obligations.PureInstructionsIgnorePartial :=
  fun _ s b hi => exec_ignoresPartial hi s b

/-- Settles O51: one clause for each way a step is chosen. -/
theorem stepRunsTheDecodedInstruction : Obligations.StepRunsTheDecodedInstruction := by
  intro s
  refine ⟨?_, ?_, ?_, step_idle⟩
  · intro c rest i hw hp hi
    simp [step_request hw hp, stepRequest, hi]
  · intro c rest e hw hp he
    simp [step_request hw hp, stepRequest, he]
  · intro w d i hw hd hi
    rw [step_walk hw, stepWalk_descriptor hd hi]

end Sys2Proof.Proofs

/-! SUPPORT. The proofs of the family '30_encoding': the inbound frame formats and the frames they carry, the
descriptor rows and their types, and the table check rule by rule. -/

namespace Sys2Proof

open Machine Claims

/-! ## A Frame as an instruction of the inbound formats (rules R92, R93, R140) -/

/-- The instruction of the inbound format a Frame is sent in. -/
def Frame.instr : Frame → Instr
  | .response rc sq l p c => .frameResponse rc sq l p c
  | .async ev l p c => .frameAsync ev l p c

theorem Frame.encode_instr (f : Frame) : encode f.instr = .frameIn f.bytes := by cases f <;> rfl

theorem Frame.wf_instr (f : Frame) : f.instr.wf = f.shapeOk := by cases f <;> rfl

/-- The formats of FRAME_IN carry Frames and nothing else. -/
theorem encode_eq_frameIn {i : Instr} {b : ByteSeq} (h : encode i = .frameIn b) :
    ∃ f : Frame, i = f.instr ∧ b = f.bytes := by
  cases i with
  | frameResponse rc sq l p c => cases h; exact ⟨.response rc sq l p c, rfl, rfl⟩
  | frameAsync ev l p c => cases h; exact ⟨.async ev l p c, rfl, rfl⟩
  | _ => cases h

theorem frameTail_frame (p : ByteSeq) (c : Byte) (t : ByteSeq) :
    frameTail (p.length + 1) (p ++ c :: t) = .ok (p, c) := by
  simp [frameTail]

/-- The FRAME_IN decoder reads back a frame whose length field counts its payload, whatever follows (rule R149). -/
theorem Frame.decodeFrameIn_bytes {f : Frame} (h : f.shapeOk = true) (t : ByteSeq) :
    decodeFrameIn (f.bytes ++ t) = .ok f.instr := by
  rw [Frame.shapeOk_iff] at h
  cases f with
  | response rc sq l p c =>
    have hl : l.toNat = p.length + 1 := h.symm
    simp [Frame.bytes, Frame.header3, Frame.sop1, Frame.sop2, Frame.payload, Frame.claimed, decodeFrameIn, hl,
      frameTail_frame, Frame.instr, Except.map]
  | async ev l p c =>
    have hl : l.toNat / 256 * 256 + l.toNat % 256 = p.length + 1 := (Nat.div_add_mod' _ _).trans h.symm
    have hne : (0xFE : Byte) ≠ 0xFF := by decide
    simp only [Frame.bytes, Frame.header3, Frame.sop1, Frame.sop2, Frame.payload, Frame.claimed, List.cons_append,
      List.nil_append, List.append_assoc, decodeFrameIn, byteHigh_toNat, byteLow_toNat, hl, frameTail_frame,
      byteHigh_append_byteLow, ne_eq, not_true_eq_false, if_false, if_true, hne, Except.map, Frame.instr]

/-! ## Running an inbound format -/

theorem Frame.exec_instr {f : Frame} (h : f.shapeOk = true) (s : State) :
    exec f.instr s = .next (s.answerFrame (judgeFrame f)) := by
  cases f <;> exact if_pos h

theorem Frame.exec_instr_notAFrame {f : Frame} (h : ¬ shaped f) (s : State) :
    exec f.instr s = .refused .notAFrame := by
  have h' : ¬ f.shapeOk = true := fun hs => h (Frame.shapeOk_iff.mp hs)
  cases f <;> exact if_neg h'

theorem checksum_eq_ones (b : ByteSeq) : (checksum b).toNat = ones b := checksum_toNat b

theorem ones_add_total (b : ByteSeq) : ones b + total b % 256 = 255 := by
  have := Nat.mod_lt (total b) (show 256 > 0 by decide)
  simp only [ones]; omega

/-- A frame that verifies is the result (rule R148). -/
theorem Frame.exec_instr_verifies {f : Frame} (hs : shaped f) (hv : verifies f) (s : State) :
    exec f.instr s = .next (replied s (.frame f) []) := by
  rw [Frame.exec_instr (Frame.shapeOk_iff.mpr hs), judgeFrame_valid (Frame.valid_iff.mpr ⟨hs, hv⟩)]
  rfl

/-- A frame that does not verify is a ChecksumMismatch with the computed and the claimed byte (rule R148). -/
theorem Frame.exec_instr_mismatch {f : Frame} (hs : shaped f) (hv : ¬ verifies f) (s : State) :
    ∃ x : Byte, x.toNat = ones (summed f) ∧
      exec f.instr s = .next (replied s (.checksumMismatch x f.claimed) [.checksumMismatch x f.claimed]) := by
  have hshape := Frame.shapeOk_iff.mpr hs
  refine ⟨_, checksum_eq_ones (summed f), ?_⟩
  obtain ⟨hval, -⟩ | ⟨-, -, hj⟩ := judgeFrame_cases hshape
  · exact absurd (Frame.valid_iff.mp hval).2 hv
  · rw [Frame.exec_instr hshape, hj]
    rfl

/-- The sum over an async frame: the event id, the payload, and the length byte by byte (rules R93, R133). -/
theorem total_summed_async (ev : Byte) (l : BitVec 16) (p : ByteSeq) (c : Byte) :
    total (summed (.async ev l p c)) = total (ev :: p) + l.toNat / 256 + l.toNat % 256 := by
  simp only [total, summed, Frame.header3, Frame.payload, List.cons_append, List.nil_append, List.map_cons,
    List.sum_cons, byteHigh_toNat, byteLow_toNat]
  omega

/-! ## Buffers in the terms of the statements (rules R143 to R146) -/

theorem sizeIs_iff {b : ByteSeq} {n : Nat} : sizeIs b n ↔ sopsOk b = true ∧ frameLen b = some n := by
  constructor
  · rintro ⟨x, y, z, r, ⟨rfl, rfl⟩ | ⟨rfl, rfl⟩⟩ <;> exact ⟨rfl, rfl⟩
  · rintro ⟨hs, hn⟩
    obtain ⟨r, hb⟩ := sopsOk_iff.mp hs
    match r with
    | x :: y :: z :: r =>
      refine ⟨x, y, z, r, hb.imp ?_ ?_⟩ <;>
      · rintro rfl
        exact ⟨rfl, (Option.some.inj hn).symm⟩
    | [] | [_] | [_, _] => rcases hb with rfl | rfl <;> cases hn

theorem complete_iff_holdsFrame {b : ByteSeq} : complete b = true ↔ holdsFrame b := by
  simp only [complete_iff, holdsFrame, sizeIs_iff, and_assoc, exists_and_left]

theorem frameDecodable_iff_holdsFrame {b : ByteSeq} : frameDecodable b = true ↔ holdsFrame b ∧ ¬ sizeIs b 5 := by
  rw [frameDecodable_iff, complete_iff_holdsFrame, sizeIs_iff]
  refine and_congr_right fun h => ?_
  have hs : sopsOk b = true := (complete_iff.mp (complete_iff_holdsFrame.mpr h)).2.1
  simp [hs]

/-! ## The rows of FDESC (rules R104, R113, R114) -/

/-- The row of FLD.UNKNOWN for a type code of `0x06` or above. -/
def Descriptor.unknownInstr (d : Descriptor) : Instr :=
  if d.code.toNat ≤ 0x07 then .fldUnknown06 d.name d.code d.lo d.hi
  else if d.code.toNat ≤ 0x0F then .fldUnknown08 d.name d.code d.lo d.hi
  else if d.code.toNat ≤ 0x1F then .fldUnknown10 d.name d.code d.lo d.hi
  else if d.code.toNat ≤ 0x3F then .fldUnknown20 d.name d.code d.lo d.hi
  else if d.code.toNat ≤ 0x7F then .fldUnknown40 d.name d.code d.lo d.hi
  else .fldUnknown80 d.name d.code d.lo d.hi

/-- A code lies in the block of one row only. -/
theorem isUnknownOf.eq_unknownInstr {d : Descriptor} {i : Instr} (hu : isUnknownOf d i) (hw : i.wf = true) :
    6 ≤ d.code.toNat ∧ i = d.unknownInstr := by
  rcases hu with rfl | rfl | rfl | rfl | rfl | rfl
  · have ⟨h1, h2⟩ := (block_06 _).mp (eq_of_beq hw)
    grind [Descriptor.unknownInstr]
  · have ⟨h1, h2⟩ := (block_08 _).mp (eq_of_beq hw)
    grind [Descriptor.unknownInstr]
  · have ⟨h1, h2⟩ := (block_10 _).mp (eq_of_beq hw)
    grind [Descriptor.unknownInstr]
  · have ⟨h1, h2⟩ := (block_20 _).mp (eq_of_beq hw)
    grind [Descriptor.unknownInstr]
  · have ⟨h1, h2⟩ := (block_40 _).mp (eq_of_beq hw)
    grind [Descriptor.unknownInstr]
  · have h1 := (block_80 _).mp (eq_of_beq hw)
    grind [Descriptor.unknownInstr]

/-- A descriptor whose code lies in the block of a row of FLD.UNKNOWN decodes to that row. -/
theorem isUnknownOf.decodes {d : Descriptor} {i : Instr} (hu : isUnknownOf d i) (hw : i.wf = true) :
    decodeDescriptor d = .ok i := by
  obtain ⟨h6, hi⟩ := hu.eq_unknownInstr hw
  obtain ⟨j, hj, hjw, hju⟩ := decodeDescriptor_unknown h6
  rw [hj, hi, (hju.eq_unknownInstr hjw).2]

/-- The six rows of FLD.UNKNOWN are one operation (assumption log entry 13). -/
theorem isUnknownOf.exec_eq {d : Descriptor} {i : Instr} (hu : isUnknownOf d i) (s : State) :
    exec i s = s.inWalk (unknownField s.params d.name d.code i.wf) := by
  rcases hu with rfl | rfl | rfl | rfl | rfl | rfl <;> rfl

open Laws.TableWord (word_toNat) in
/-- What a descriptor decodes to has a row that matches the descriptor's word. -/
theorem decodeDescriptor_row {d : Descriptor} {i : Instr} (h : decodeDescriptor d = .ok i) :
    d.word.toNat &&& i.row.2 = i.row.1 := by
  obtain ⟨hc, hf, rfl⟩ | ⟨hc, hf, rfl⟩ | ⟨hc, rfl⟩ | ⟨hc, rfl⟩ | ⟨hc, rfl⟩ | ⟨r, hc, -, rfl⟩ | ⟨hc, rfl⟩ |
    ⟨-, hw, hu⟩ := decodeDescriptor_cases h
  · exact word_toNat ((word_num _ _).mpr ⟨by rw [hf]; rfl, hc⟩)
  · exact word_toNat ((word_hex _ _).mpr ⟨by rw [hf]; rfl, hc⟩)
  · exact word_toNat ((word_text _ _).mpr hc)
  · exact word_toNat ((word_raw _ _).mpr hc)
  · exact word_toNat ((word_predef _ _).mpr hc)
  · exact word_toNat ((word_bitmask _ _).mpr hc)
  · exact word_toNat ((word_signed _ _).mpr hc)
  · rcases hu with rfl | rfl | rfl | rfl | rfl | rfl
    · exact word_toNat ((word_06 _ _).mpr (eq_of_beq hw))
    · exact word_toNat ((word_08 _ _).mpr (eq_of_beq hw))
    · exact word_toNat ((word_10 _ _).mpr (eq_of_beq hw))
    · exact word_toNat ((word_20 _ _).mpr (eq_of_beq hw))
    · exact word_toNat ((word_40 _ _).mpr (eq_of_beq hw))
    · exact word_toNat ((word_80 _ _).mpr (eq_of_beq hw))

/-- The mask register of FLD.BITMASK is the one thing the descriptor decoder can reject (rule R107). -/
theorem decodeDescriptor_total {d : Descriptor} (h : d.code = 4 → d.reg = 1 ∨ d.reg = 2) :
    ∃ i, decodeDescriptor d = .ok i := by
  by_cases h4 : d.code = 4
  · rw [decodeDescriptor_bitmask h4]
    rcases h h4 with hr | hr <;> simp [maskRegOf, hr, Except.map]
  by_cases h6 : 6 ≤ d.code.toNat
  · obtain ⟨i, hi, -⟩ := decodeDescriptor_unknown h6
    exact ⟨i, hi⟩
  obtain hc | hc | hc | hc | hc := code_fixed _ (Nat.not_le.mp h6) h4
  · cases hf : d.format with
    | none => exact ⟨_, decodeDescriptor_num hc hf⟩
    | hex => exact ⟨_, decodeDescriptor_hex hc hf⟩
  · exact ⟨_, decodeDescriptor_text hc⟩
  · exact ⟨_, decodeDescriptor_raw hc⟩
  · exact ⟨_, decodeDescriptor_predef hc⟩
  · exact ⟨_, decodeDescriptor_signed hc⟩

theorem maskRegOf_regNumber (r : MaskReg) : maskRegOf (regNumber r) = .ok r := by cases r <;> rfl

/-- The assigned select codes (rule R112). -/
theorem select_assigned : ∀ c : BitVec 4, c.toNat < 10 →
    c = 0 ∨ c = 1 ∨ c = 2 ∨ c = 3 ∨ c = 4 ∨ c = 5 ∨ c = 6 ∨ c = 7 ∨ c = 8 ∨ c = 9 := by decide

/-- The reserved select codes (rules R112, R287 d). -/
theorem select_reserved : ∀ c : BitVec 4, 10 ≤ c.toNat →
    c = 10 ∨ c = 11 ∨ c = 12 ∨ c = 13 ∨ c = 14 ∨ c = 15 := by decide

/-! ## A field step in the terms of the statements -/

/-- A store and its notifications in fixed-offset mode, and the advance after them (rules R228 to R230). -/
theorem progress_storeFixed {s : State} {w : Walk} (h : ¬ streaming s w.entry) (name : String) (v : Value)
    (notes : List Notification) :
    s.progress (({ w with fields := putField name v w.fields, notes := w.notes ++ notes } : Walk).advance s.params) =
      afterFixed s w name v notes := by
  have hm : requiresMask s.params w.entry = false := requiresMask_false.mpr h
  by_cases hfi : w.fi + 1 < w.entry.fields.length
  · rw [Walk.advance, Walk.settle_running hfi, afterFixed, if_pos hfi]
    rfl
  · have hend := Walk.settle_finish (p := s.params)
      (w := { w with fi := w.fi + 1, fields := putField name v w.fields, notes := w.notes ++ notes })
      (Nat.le_of_not_lt hfi) (.inl hm)
    rw [Walk.advance, hend, afterFixed, if_neg hfi]
    simp [Walk.finish, Walk.record, hm, State.progress]

/-- A row of FLD.UNKNOWN on a type code of its block. -/
theorem isUnknownOf.decodes_and_runs {d : Descriptor} {i : Instr} (hu : isUnknownOf d i) (hw : i.wf = true) {s : State}
    {w : Walk} (h : inFixed s w) :
    decode (.fdesc d) = .ok i ∧
      exec i s =
        .next
          (afterFixed s w d.name (.fieldError (.unparseable d.code))
            [.unparseableField d.name (.unknownType d.code)]) := by
  obtain ⟨hwalk, hfix⟩ := h
  refine ⟨hu.decodes hw, ?_⟩
  rw [hu.exec_eq, State.inWalk_ok hwalk (unknownField_eq hw (requiresMask_false.mpr hfix)), ← progress_storeFixed hfix]
  rfl

/-! ## The table check, rule by rule (rule R108) -/

theorem distinctKeys_iff {α β : Type} [DecidableEq α] {m : List (α × β)} :
    distinctKeys m = true ↔ (m.map Prod.fst).Nodup := decide_eq_true_iff

theorem pmaskFits_iff {lo hi : Nat} {pm : Option Nat} :
    pmaskFits lo hi pm = true ↔ ∀ m, pm = some m → m < 2 ^ (8 * (hi - lo)) := by
  cases pm <;> simp [pmaskFits]

theorem Descriptor.isBitmask_iff {d : Descriptor} : d.isBitmask = true ↔ d.code = 4 := beq_iff_eq

theorem Descriptor.w2_iff {d : Descriptor} : d.w2 = true ↔ (d.code.toNat < 6 → d.code ≠ 4 → d.lo ≤ d.hi) := by
  simp only [Descriptor.w2, Descriptor.isKnown, Bool.or_eq_true, Bool.not_eq_true', decide_eq_false_iff_not,
    Descriptor.isBitmask_iff, decide_eq_true_eq]
  tauto

theorem Descriptor.w3_iff {p : Params} {d : Descriptor} :
    d.w3 p = true ↔ (d.code = 0 ∨ d.code = 3 ∨ d.code = 5 → d.lo < d.hi ∧ meets p.maxWidth (d.hi - d.lo)) := by
  have hwidth : widthOk p d.lo d.hi = true ↔ meets p.maxWidth (d.hi - d.lo) := withinBound_iff
  simp only [Descriptor.w3, Bool.or_eq_true, Bool.not_eq_true', Bool.or_eq_false_iff, beq_eq_false_iff_ne,
    Bool.and_eq_true, decide_eq_true_eq, hwidth]
  tauto

theorem Descriptor.w6_iff {p : Params} {d : Descriptor} :
    d.w6 p = true ↔ (d.code = 4 → (d.reg = 1 ∨ d.reg = 2) ∧ d.bit < p.maskWidth) := by
  simp only [Descriptor.w6, Bool.or_eq_true, Bool.not_eq_true', ← Bool.not_eq_true, Descriptor.isBitmask_iff,
    Bool.and_eq_true, beq_iff_eq, decide_eq_true_eq]
  tauto

theorem Descriptor.w8_iff {d : Descriptor} :
    d.w8 = true ↔
      (d.code = 3 → (∀ m, d.pmask = some m → m < 2 ^ (8 * (d.hi - d.lo))) ∧ (d.values.map Prod.fst).Nodup) := by
  simp only [Descriptor.w8, Bool.or_eq_true, Bool.not_eq_true', beq_eq_false_iff_ne, Bool.and_eq_true, pmaskFits_iff,
    distinctKeys_iff]
  tauto

/-- W4 and W5: the walk mode of an entry is that of its descriptors. -/
theorem isBitmask_eq_requiresMask_iff {p : Params} {d : Descriptor} {e : Entry} :
    d.isBitmask = requiresMask p e ↔ (d.code = 4 ↔ e.key = .async p.streamEventId) := by
  rw [Bool.eq_iff_iff, Descriptor.isBitmask_iff, requiresMask_iff]

theorem Entry.wf_iff {p : Params} {e : Entry} : e.wf p = true ↔ entryOk p e := by
  simp only [Entry.wf, entryOk, Bool.and_eq_true, decide_eq_true_eq, List.all_eq_true, beq_iff_eq, Descriptor.w2_iff,
    Descriptor.w3_iff, Descriptor.w6_iff, Descriptor.w8_iff, isBitmask_eq_requiresMask_iff, and_assoc]

end Sys2Proof

/-! ## The statements of the family -/

namespace Sys2Proof.Proofs

open Machine Claims

/-- Settles O49: a transaction is read back from its select code, a frame from its bytes, a descriptor from its type
code. -/
theorem decodeInvertsEncode : Obligations.DecodeInvertsEncode := by
  intro i hw
  have frameIn (f : Frame) (hf : f.instr.wf = true) : decode (encode f.instr) = .ok f.instr := by
    rw [f.encode_instr, ← List.append_nil f.bytes]
    exact Frame.decodeFrameIn_bytes (f.wf_instr.symm.trans hf) []
  cases i with
  | frameResponse rc sq l p c => exact frameIn (.response rc sq l p c) hw
  | frameAsync ev l p c => exact frameIn (.async ev l p c) hw
  | fldNum n lo hi => exact decodeDescriptor_num rfl rfl
  | fldHex n lo hi => exact decodeDescriptor_hex rfl rfl
  | fldText n lo hi e => exact decodeDescriptor_text rfl
  | fldRaw n lo hi => exact decodeDescriptor_raw rfl
  | fldPredef n lo hi pm vs => exact decodeDescriptor_predef rfl
  | fldBitmask n r b rb rt u se =>
    refine (decodeDescriptor_bitmask rfl).trans ?_
    simp only [maskRegOf_regNumber]
    rfl
  | fldSigned n lo hi => exact decodeDescriptor_signed rfl
  | fldUnknown06 n c lo hi => exact isUnknownOf.decodes (.inl rfl) hw
  | fldUnknown08 n c lo hi => exact isUnknownOf.decodes (.inr (.inl rfl)) hw
  | fldUnknown10 n c lo hi => exact isUnknownOf.decodes (.inr (.inr (.inl rfl))) hw
  | fldUnknown20 n c lo hi => exact isUnknownOf.decodes (.inr (.inr (.inr (.inl rfl)))) hw
  | fldUnknown40 n c lo hi => exact isUnknownOf.decodes (.inr (.inr (.inr (.inr (.inl rfl))))) hw
  | fldUnknown80 n c lo hi => exact isUnknownOf.decodes (.inr (.inr (.inr (.inr (.inr rfl))))) hw
  | _ => rfl

/-- Settles O8: a buffer in FRAME_DECODE's domain is a frame and a rest. -/
theorem completeBuffersAreFrameBytes : Obligations.CompleteBuffersAreFrameBytes := by
  intro b
  refine ⟨complete_iff_holdsFrame, ?_⟩
  rw [← frameDecodable_iff_holdsFrame, frameDecodable_iff_bytes]
  simp only [Frame.shapeOk_iff, shaped]

/-- Settles O9: the format is the response Frame of its fields. -/
theorem responseFormatYieldsItsFrame : Obligations.ResponseFormatYieldsItsFrame := by
  intro rc sq l p c s
  let f : Frame := .response rc sq l p c
  exact ⟨fun hs hv => Frame.exec_instr_verifies (f := f) hs hv s,
    fun hs hv => Frame.exec_instr_mismatch (f := f) hs hv s,
    fun hs => Frame.exec_instr_notAFrame (f := f) hs s⟩

/-- Settles O10: the format is the async Frame of its fields, whose checksum completes the sum to 255. -/
theorem asyncFormatYieldsItsFrame : Obligations.AsyncFormatYieldsItsFrame := by
  intro ev l p c s body
  let f : Frame := .async ev l p c
  have hsum : ones (summed f) + body = 255 := by
    have h := ones_add_total (summed f)
    rwa [total_summed_async] at h
  have hv : verifies f ↔ c.toNat + body = 255 := by
    show c.toNat = ones (summed f) ↔ _
    omega
  refine ⟨fun hs hc => Frame.exec_instr_verifies (f := f) hs (hv.mpr hc) s, fun hs hc => ?_,
    fun hs => Frame.exec_instr_notAFrame (f := f) hs s⟩
  obtain ⟨x, hx, he⟩ := Frame.exec_instr_mismatch (f := f) hs (fun h => hc (hv.mp h)) s
  exact ⟨x, hx ▸ hsum, he⟩

/-- Settles O11: both answer with the judgement of the Frame the bytes carry. -/
theorem frameFormatsAgreeWithFrameDecode : Obligations.FrameFormatsAgreeWithFrameDecode := by
  intro i b t s hw he
  obtain ⟨f, rfl, rfl⟩ := encode_eq_frameIn he
  have hf : f.shapeOk = true := f.wf_instr.symm.trans hw
  rw [Frame.exec_instr hf]
  simp only [exec, execFrameDecode, frameDecode_bytes hf]

/-- Settles O40: each clause is a row of FLD.UNKNOWN on the type codes of its block. -/
theorem unknownTypeLeavesSentinel : Obligations.UnknownTypeLeavesSentinel := by
  intro name c lo hi s w h after code
  have row (i : Instr) (hu : isUnknownOf { name := name, code := c, lo := lo, hi := hi } i) (hw : i.wf = true) :
      code i ∧ exec i s = after := hu.decodes_and_runs hw h
  refine ⟨fun h1 h2 => row _ (.inl rfl) ?_, fun h1 h2 => row _ (.inr (.inl rfl)) ?_,
    fun h1 h2 => row _ (.inr (.inr (.inl rfl))) ?_, fun h1 h2 => row _ (.inr (.inr (.inr (.inl rfl)))) ?_,
    fun h1 h2 => row _ (.inr (.inr (.inr (.inr (.inl rfl))))) ?_,
    fun h1 => row _ (.inr (.inr (.inr (.inr (.inr rfl))))) ?_⟩
  · exact beq_iff_eq.mpr ((block_06 c).mpr ⟨h1, h2⟩)
  · exact beq_iff_eq.mpr ((block_08 c).mpr ⟨h1, h2⟩)
  · exact beq_iff_eq.mpr ((block_10 c).mpr ⟨h1, h2⟩)
  · exact beq_iff_eq.mpr ((block_20 c).mpr ⟨h1, h2⟩)
  · exact beq_iff_eq.mpr ((block_40 c).mpr ⟨h1, h2⟩)
  · exact beq_iff_eq.mpr ((block_80 c).mpr h1)

/-- Settles O45: the ids default to 0, and a payload of at most 254 bytes leaves its length in one byte. -/
theorem buildFrameLaysOutCommand : Obligations.BuildFrameLaysOutCommand := by
  refine ⟨fun o => rfl, fun did cid sq p s hp => ?_⟩
  have hfits : payloadFits p = true := decide_eq_true hp
  refine ⟨idOrZero did, idOrZero cid, BitVec.ofNat 8 (p.length + 1), _, by rintro rfl; rfl, by rintro x rfl; rfl,
    by rintro rfl; rfl, by rintro x rfl; rfl, ?_, checksum_eq_ones _, if_pos hfits, if_pos hfits⟩
  rw [BitVec.toNat_ofNat]
  omega

/-- Settles O50: the select codes are listed, and a descriptor is rejected for its mask register only. -/
theorem everythingAssignedDecodes : Obligations.EverythingAssignedDecodes := by
  refine ⟨fun c o hc => ?_, fun c o hc => ?_, fun d hd => ?_, fun d hc h1 h2 => ?_⟩
  · rcases select_reserved c hc with rfl | rfl | rfl | rfl | rfl | rfl <;> rfl
  · rcases select_assigned c hc with rfl | rfl | rfl | rfl | rfl | rfl | rfl | rfl | rfl | rfl <;> exact ⟨_, rfl, rfl⟩
  · obtain ⟨i, hi⟩ := decodeDescriptor_total hd
    exact ⟨i, hi, decodeDescriptor_row hi⟩
  · rw [decode, decodeDescriptor_bitmask hc, maskRegOf, if_neg h1, if_neg h2]
    rfl

/-- Settles O54: an entry is checked rule by rule, and a table entry by entry. -/
theorem tableCheckIsW1ToW8 : Obligations.TableCheckIsW1ToW8 := by
  intro p t
  simp only [Table.wf, Bool.and_eq_true, distinctKeys_iff, List.all_eq_true, beq_iff_eq, Entry.wf_iff, Prod.forall,
    and_assoc]

/-- Settles O48: the decoder run on each word. -/
theorem specWordsDecode : Obligations.SpecWordsDecode :=
  ⟨by decide, by decide, by decide, fun _ => rfl, by decide, by decide⟩

end Sys2Proof.Proofs

/-! SUPPORT. The proofs of the family '40_checksum': the checksum as a complement, what it depends on, and the two
transactions of the Checksum Unit. -/

namespace Sys2Proof.Machine

open Claims

/-! ## The transactions of the Checksum Unit (rules R130, R131) -/

theorem exec_checksum (b : ByteSeq) (s : State) :
    exec (.checksum b) s = .next (replied s (.byte (checksum b)) []) := rfl

theorem exec_verify (b : ByteSeq) (c : Byte) (s : State) :
    exec (.verify b c) s = .next (replied s (.bool (verify b c)) []) := rfl

theorem exec_checksum_eq_byte_iff {b : ByteSeq} {c : Byte} {s : State} :
    exec (.checksum b) s = .next (replied s (.byte c) []) ↔ checksum b = c := by
  simp [exec_checksum, replied]

theorem exec_checksum_eq_iff {b b' : ByteSeq} {s : State} :
    exec (.checksum b) s = exec (.checksum b') s ↔ checksum b = checksum b' := by
  rw [exec_checksum b', exec_checksum_eq_byte_iff]

/-! ## The checksum and the sum of the bytes (rule R132) -/

theorem checksum_eq_xor (b : ByteSeq) : checksum b = BitVec.ofNat 8 (total b) ^^^ 0xFF#8 := by
  have complement (x : Byte) : x ^^^ 0xFF#8 = ~~~x := BitVec.xor_allOnes
  apply BitVec.eq_of_toNat_eq
  rw [complement, BitVec.toNat_not, BitVec.toNat_ofNat, checksum_eq_ones, ones]

/-- The checksum is exactly as fine as the sum modulo 256. -/
theorem checksum_eq_iff {b b' : ByteSeq} : checksum b = checksum b' ↔ byteSum b % 256 = byteSum b' % 256 := by
  rw [← BitVec.toNat_inj, checksum_toNat, checksum_toNat]
  omega

theorem byteSum_perm {b b' : ByteSeq} (h : b.Perm b') : byteSum b = byteSum b' := (h.map _).sum_eq

/-- One byte in a fixed place is determined by the checksum. -/
theorem checksum_replace_eq_iff {l r : ByteSeq} {x y : Byte} :
    checksum (l ++ x :: r) = checksum (l ++ y :: r) ↔ x = y := by
  have hx := x.isLt
  have hy := y.isLt
  rw [checksum_eq_iff, ← BitVec.toNat_inj]
  simp only [byteSum_append, byteSum_cons]
  omega

/-- Of two bytes in fixed places the checksum sees only their sum modulo 256. -/
theorem checksum_replace_two_eq_iff {l m r : ByteSeq} {x y x' y' : Byte} :
    checksum (l ++ x :: m ++ y :: r) = checksum (l ++ x' :: m ++ y' :: r) ↔
      (x.toNat + y.toNat) % 256 = (x'.toNat + y'.toNat) % 256 := by
  rw [checksum_eq_iff]
  simp only [byteSum_append, byteSum_cons]
  omega

end Sys2Proof.Machine

/-! ## The statements of the family -/

namespace Sys2Proof.Proofs

open Machine Claims

/-- Settles O3: (a) and (b) are the complement of the sum, and (c) to (e) hold because the checksum is a one-to-one
function of the sum modulo 256. -/
theorem checksumArithmeticLaws : Obligations.ChecksumArithmeticLaws := by
  refine ⟨fun b s => ?complement, fun b s c h => ?sumTo255, fun b b' s h => ?order, fun l r x y s hne h => ?oneByte,
    fun l m r x y x' y' s h => ?cancel⟩
  case complement => exact exec_checksum_eq_byte_iff.mpr (checksum_eq_xor b)
  case sumTo255 =>
    have h255 := ones_add_total b
    rw [← exec_checksum_eq_byte_iff.mp h, checksum_eq_ones]
    omega
  case order => exact exec_checksum_eq_iff.mpr (checksum_eq_iff.mpr (by rw [byteSum_perm h]))
  case oneByte => exact hne (checksum_replace_eq_iff.mp (exec_checksum_eq_iff.mp h))
  case cancel => exact exec_checksum_eq_iff.mpr (checksum_replace_two_eq_iff.mpr h)

/-- Settles O1: select code 1 is CHECKSUM, and its byte is the complement of the sum. -/
theorem checksumIsOnesComplementOfSum : Obligations.ChecksumIsOnesComplementOfSum :=
  ⟨fun _ => rfl, fun b s => ⟨checksum b, exec_checksum b s, checksum_toNat b⟩⟩

/-- Settles O2: select code 2 is VERIFY, and its boolean is the comparison with the checksum. -/
theorem verifyComparesWithChecksum : Obligations.VerifyComparesWithChecksum :=
  ⟨fun _ => rfl, fun b c s => ⟨verify b c, exec_verify b c s, verify_iff b c⟩⟩

end Sys2Proof.Proofs

/-! SUPPORT. The proofs of the family '41_frame_decoder': the two reads of a header, their domains, and what the
transactions answer in terms of them. -/

namespace Sys2Proof.Machine

open Claims

/-! ## HEADER_KIND (rule R142) -/

theorem exec_headerKind_of_some {b : ByteSeq} {k : HeaderKind} (h : headerKind b = some k) (s : State) :
    exec (.headerKind b) s = .next (replied s (.kind k) []) := by
  simp only [exec, execHeaderKind, h]
  rfl

theorem exec_headerKind_of_none {b : ByteSeq} (h : headerKind b = none) (s : State) :
    exec (.headerKind b) s = .refused .headerTooShort := by
  simp only [exec, execHeaderKind, h]

theorem headerKind_invalid {y : Byte} (h1 : y ≠ 0xFF) (h2 : y ≠ 0xFE) (x : Byte) (r : ByteSeq) :
    headerKind (x :: y :: r) = some .invalid := by
  simp only [headerKind, sop2Rsp, sop2Async, if_neg h1, if_neg h2]

theorem headerKind_short {b : ByteSeq} (h : b.length < 2) : headerKind b = none := by
  match b with
  | [] | [_] => rfl
  | _ :: _ :: r => exact absurd h (by simp)

/-! ## DECLARED_LENGTH (rule R143) -/

theorem exec_declaredLength_of_some {b : ByteSeq} {n : Nat} (h : declaredLength b = some n) (s : State) :
    exec (.declaredLength b) s = .next (replied s (.length n) []) := by
  simp only [exec, execDeclaredLength, h]
  rfl

theorem exec_declaredLength_of_none {b : ByteSeq} (h : declaredLength b = none) (s : State) :
    exec (.declaredLength b) s = .refused .lengthUndefined := by
  simp only [exec, execDeclaredLength, h]

theorem declaredLength_short {b : ByteSeq} (h : b.length < 5) : declaredLength b = none := by
  match b with
  | [] | [_] | [_, _] | [_, _, _] | [_, _, _, _] => rfl
  | _ :: _ :: _ :: _ :: _ :: r => exact absurd h (by simp)

/-- An invalid kind has no length field, however many bytes follow. -/
theorem declaredLength_invalid {y : Byte} (h1 : y ≠ 0xFF) (h2 : y ≠ 0xFE) (x : Byte) (r : ByteSeq) :
    declaredLength (x :: y :: r) = none := by
  match r with
  | [] | [_] | [_, _] => rfl
  | _ :: _ :: _ :: r => simp only [declaredLength, sop2Rsp, sop2Async, if_neg h1, if_neg h2]

end Sys2Proof.Machine

/-! ## The statements of the family -/

namespace Sys2Proof.Proofs

open Machine Claims

/-- Settles O6: FRAME_DECODE on a frame's bytes is the format of that frame, which answers with the Frame or with the
mismatch. -/
theorem frameDecodeReadsOneFrame : Obligations.FrameDecodeReadsOneFrame := by
  refine ⟨fun _ => rfl, fun f t s hs => ?_⟩
  have hw : f.instr.wf = true := f.wf_instr.trans (Frame.shapeOk_iff.mpr hs)
  rw [frameFormatsAgreeWithFrameDecode f.instr f.bytes t s hw f.encode_instr]
  exact ⟨fun hv => Frame.exec_instr_verifies hs hv s, fun hv => Frame.exec_instr_mismatch hs hv s⟩

/-- Settles O4: one clause for each kind, and one for the buffers without an offset 1. -/
theorem headerKindReadsOffsetOne : Obligations.HeaderKindReadsOffsetOne :=
  ⟨fun _ => rfl, fun s =>
    ⟨fun _ _ => exec_headerKind_of_some rfl s, fun _ _ => exec_headerKind_of_some rfl s,
      fun x _ r h1 h2 => exec_headerKind_of_some (headerKind_invalid h1 h2 x r) s,
      fun _ h => exec_headerKind_of_none (headerKind_short h) s⟩⟩

/-- Settles O5: one clause for each kind with a length field, and one for each way to have none. -/
theorem declaredLengthByKind : Obligations.DeclaredLengthByKind :=
  ⟨fun _ => rfl, fun s =>
    ⟨fun x a b c r => exec_declaredLength_of_some (declaredLength_response x a b c r) s,
      fun x a b c r => exec_declaredLength_of_some (declaredLength_async x a b c r) s,
      fun x _ r h1 h2 => exec_declaredLength_of_none (declaredLength_invalid h1 h2 x r) s,
      fun _ h => exec_declaredLength_of_none (declaredLength_short h) s⟩⟩

end Sys2Proof.Proofs

/-! SUPPORT. The proofs of the family '42_frame_assembler': INGEST on the bytes of a frame, on its fragments and on a
sequence of chunks, and DECODE as INGEST and DECODE_RECORD. -/

namespace Sys2Proof.Machine

open Claims

/-! ## The answer of INGEST (rule R160) -/

/-- The result an outcome of INGEST is delivered as. -/
def IngestOutcome.result : IngestOutcome → Result
  | .frame f => .frame f
  | .none c => .noFrame c
  | .mismatch x y => .checksumMismatch x y

/-- The notifications an outcome of INGEST raises (rule R169). -/
def IngestOutcome.notes : IngestOutcome → List Notification
  | .frame _ => []
  | .none _ => []
  | .mismatch x y => [.checksumMismatch x y]

theorem IngestOutcome.result_inj {o o' : IngestOutcome} (h : o.result = o'.result) : o = o' := by
  cases o with
  | frame f => cases o' <;> cases h; rfl
  | none c => cases o' <;> cases h; rfl
  | mismatch x y => cases o' <;> cases h; rfl

theorem State.answerIngest_eq (s : State) (o : IngestOutcome) : s.answerIngest o = replied s o.result o.notes := by
  cases o <;> rfl

/-- INGEST, given what its five steps answer and room for it. -/
theorem exec_ingest_of_steps {s : State} {chunk b : ByteSeq} {o : IngestOutcome}
    (hi : ingestSteps s.partialBuf chunk = some (o, b)) (hr : room s chunk b) :
    exec (.ingest chunk) s = .next (ingested s b o.result o.notes) := by
  obtain ⟨hm, hw⟩ := hr
  refine (execIngest_ok (withinBound_iff.mpr hm) hi (withinBound_iff.mpr hw)).trans ?_
  rw [State.answerIngest_eq]
  rfl

/-- An INGEST that completes, read back: its outcome and the `PARTIAL` it wrote. -/
theorem ingest_of_exec_next {s : State} {chunk p : ByteSeq} (o : IngestOutcome)
    (h : exec (.ingest chunk) s = .next (ingested s p o.result o.notes)) :
    s.ingest chunk = .ok (o, { s with partialBuf := p }) := by
  obtain hi | hi | ⟨o', b, hm, hi, hw, hok⟩ := s.ingest_cases chunk
  · cases h.symm.trans (execIngest_refused hi)
  · cases h.symm.trans (execIngest_refused hi)
  · have heq := h.symm.trans (exec_ingest_of_steps hi ⟨withinBound_iff.mp hm, withinBound_iff.mp hw⟩)
    simp only [ingested, Host.Outcome.next.injEq, State.mk.injEq, Option.some.injEq, Reply.mk.injEq] at heq
    obtain ⟨-, -, -, rfl, -, -, hres, -⟩ := heq
    rw [hok, IngestOutcome.result_inj hres]

theorem ingest_of_exec_refused {s : State} {chunk : ByteSeq} {r : Refusal}
    (h : exec (.ingest chunk) s = .refused r) : s.ingest chunk = .error r := by
  cases hi : s.ingest chunk with
  | error e => cases h.symm.trans (execIngest_refused hi); rfl
  | ok x => simp [exec, execIngest, hi] at h

/-! ## Buffers in the terms of the statements -/

theorem complete_eq_false_iff {b : ByteSeq} : complete b = false ↔ ¬ holdsFrame b := by
  rw [← complete_iff_holdsFrame, Bool.not_eq_true]

theorem sopsOk_iff_startsFrame {b : ByteSeq} : sopsOk b = true ↔ startsFrame b := sopsOk_iff

theorem not_holdsFrame_nil : ¬ holdsFrame [] := fun h => absurd h.1 (by decide)

/-- More bytes do not change the length field at the front. -/
theorem sizeIs_append {p : ByteSeq} {n : Nat} (h : sizeIs p n) (q : ByteSeq) : sizeIs (p ++ q) n := by
  obtain ⟨x, y, z, rest, ⟨rfl, hn⟩ | ⟨rfl, hn⟩⟩ := h
  · exact ⟨x, y, z, rest ++ q, .inl ⟨rfl, hn⟩⟩
  · exact ⟨x, y, z, rest ++ q, .inr ⟨rfl, hn⟩⟩

/-- A SOP pair at the front is the first two bytes. -/
theorem startsFrame_of_append {p q : ByteSeq} (h : startsFrame (p ++ q)) (h2 : 2 ≤ p.length) : startsFrame p := by
  match p, h2 with
  | x :: y :: r, _ => exact sopsOk_iff_startsFrame.mp (sopsOk_iff_startsFrame.mpr h :)

/-- A frame cut short is a fragment (rules R146, R170). -/
theorem fragment_of_cut {f : Frame} {p q : ByteSeq} (hs : shaped f) (h : p ++ q = f.bytes) (hq : q ≠ []) :
    ¬ holdsFrame p ∧ (p.length < 2 ∨ startsFrame p) := by
  constructor
  · rintro ⟨-, n, hn, hle⟩
    have hlen := f.frameLen_bytes (Frame.shapeOk_iff.mpr hs) []
    rw [List.append_nil, ← h, (sizeIs_iff.mp (sizeIs_append hn q)).2, Option.some.injEq, List.length_append] at hlen
    have := List.length_pos_iff.mpr hq
    omega
  · have hsop : startsFrame (p ++ q) := by
      rw [h, ← List.append_nil f.bytes]
      exact sopsOk_iff_startsFrame.mp (f.sopsOk_bytes [])
    exact (Nat.lt_or_ge p.length 2).imp id (startsFrame_of_append hsop)

/-- The length field declares at most 65540 bytes (rule R34). -/
theorem frameLen_le_of_sopsOk {b : ByteSeq} (hs : sopsOk b = true) (h5 : 5 ≤ b.length) :
    ∃ n, frameLen b = some n ∧ n ≤ 65540 := by
  obtain ⟨r, rfl | rfl⟩ := sopsOk_iff.mp hs <;> match r, h5 with
  | x :: y :: z :: r, _ =>
    have hy := y.isLt
    have hz := z.isLt
    refine ⟨_, rfl, ?_⟩
    simp only [hdrSize]
    omega

/-- A fragment is shorter than the longest frame (rule R34). -/
theorem fragment_length_le {b : ByteSeq} (hc : complete b = false) (hs : b.length < 2 ∨ sopsOk b = true) :
    b.length ≤ 65539 := by
  by_contra hlong
  obtain hs | hs := hs
  · omega
  · obtain ⟨n, hn, hle⟩ := frameLen_le_of_sopsOk hs (by omega)
    have : complete b = true := complete_iff.mpr ⟨by omega, hs, n, hn, by omega⟩
    exact absurd (this.symm.trans hc) (by decide)

/-! ## The five steps on the bytes of a frame -/

/-- A frame and a surplus is decoded and carried, whether the chunk holds it by itself or completes it (rules R164,
R167). -/
theorem ingestSteps_frame {f : Frame} {old chunk t : ByteSeq} (hs : shaped f)
    (h : chunk = f.bytes ++ t ∨ (¬ holdsFrame chunk ∧ old ++ chunk = f.bytes ++ t)) :
    ingestSteps old chunk = some (carry f t) := by
  have hshape := Frame.shapeOk_iff.mpr hs
  have hcomplete := f.complete_bytes hshape t
  obtain rfl | ⟨hc, hb⟩ := h
  · rw [ingestSteps_fresh hcomplete, decodeAndCarry_bytes hshape]
  · rw [ingestSteps_accumulated (complete_eq_false_iff.mpr hc) (hb ▸ hcomplete), hb, decodeAndCarry_bytes hshape]

theorem carry_of_verifies {f : Frame} (hs : shaped f) (hv : verifies f) (t : ByteSeq) : carry f t = (.frame f, t) :=
  if_pos (Frame.valid_iff.mpr ⟨hs, hv⟩)

theorem carry_of_not_verifies {f : Frame} (hv : ¬ verifies f) (t : ByteSeq) :
    carry f t = (.mismatch (checksum (summed f)) f.claimed, []) :=
  if_neg fun h => hv (Frame.valid_iff.mp h).2

/-- A frame that verifies is returned and its surplus kept, when there is room for it (rule R168). -/
theorem exec_ingest_frame {f : Frame} {chunk t : ByteSeq} {s : State} (hs : shaped f) (hv : verifies f)
    (h : chunk = f.bytes ++ t ∨ (¬ holdsFrame chunk ∧ s.partialBuf ++ chunk = f.bytes ++ t)) (hr : room s chunk t) :
    exec (.ingest chunk) s = .next (ingested s t (.frame f) []) :=
  exec_ingest_of_steps (o := .frame f) ((ingestSteps_frame hs h).trans (by rw [carry_of_verifies hs hv])) hr

/-- An empty `PARTIAL` is within every capacity. -/
theorem room_nil {s : State} {chunk : ByteSeq} (h : meets s.params.chunkMax chunk.length) : room s chunk [] :=
  ⟨h, fun _ _ => Nat.zero_le _⟩

/-- A fragment is kept, when there is room for it (rule R170); fewer than 2 bytes are no frame. -/
theorem exec_ingest_fragment {chunk : ByteSeq} {s : State} (hc : ¬ holdsFrame chunk)
    (hfrag : (s.partialBuf ++ chunk).length < 2 ∨
      (startsFrame (s.partialBuf ++ chunk) ∧ ¬ holdsFrame (s.partialBuf ++ chunk)))
    (hr : room s chunk (s.partialBuf ++ chunk)) :
    exec (.ingest chunk) s = .next (ingested s (s.partialBuf ++ chunk) (.noFrame .pending) []) := by
  have hb : ¬ holdsFrame (s.partialBuf ++ chunk) := by
    obtain hlt | ⟨-, hb⟩ := hfrag
    · exact fun h => absurd h.1 (by omega)
    · exact hb
  have hsop := hfrag.imp id fun h => sopsOk_iff_startsFrame.mpr h.1
  exact exec_ingest_of_steps
    (ingestSteps_pending (complete_eq_false_iff.mpr hc) (complete_eq_false_iff.mpr hb) hsop) hr

/-! ## Sequences of chunks -/

theorem feed_cons {s : State} {c p : ByteSeq} {r : Result} {notes : List Notification}
    (h : exec (.ingest c) s = .next (ingested s p r notes)) (cs : List ByteSeq) :
    feed s (c :: cs) =
      (feed (ingested s p r notes) cs).map fun (rs, u) => ({ result := r, notes := notes } :: rs, u) := by
  simp only [feed, h]
  rfl

/-- A chunk that leaves the frame in `PARTIAL` unfinished is kept (rules R170, R177). -/
theorem exec_ingest_cut {f : Frame} {s : State} {chunk q : ByteSeq} (hs : shaped f)
    (h : s.partialBuf ++ chunk ++ q = f.bytes) (hq : q ≠ []) (hc : s.partialBuf ≠ [] → ¬ holdsFrame chunk)
    (hr : room s chunk (s.partialBuf ++ chunk)) :
    exec (.ingest chunk) s = .next (ingested s (s.partialBuf ++ chunk) (.noFrame .pending) []) := by
  obtain ⟨hb, hsop⟩ := fragment_of_cut hs h hq
  have hc : ¬ holdsFrame chunk := by
    by_cases hp : s.partialBuf = []
    · rwa [hp] at hb
    · exact hc hp
  exact exec_ingest_fragment hc (hsop.imp id fun h => ⟨h, hb⟩) hr

/-- The chunk that finishes the frame in `PARTIAL` returns it (rules R164, R167, R177). -/
theorem exec_ingest_last {f : Frame} {s : State} {chunk : ByteSeq} (hs : shaped f) (hv : verifies f)
    (h : s.partialBuf ++ chunk = f.bytes) (hc : s.partialBuf ≠ [] → ¬ holdsFrame chunk)
    (hm : meets s.params.chunkMax chunk.length) :
    exec (.ingest chunk) s = .next (ingested s [] (.frame f) []) := by
  refine exec_ingest_frame hs hv ?_ (room_nil hm)
  rw [List.append_nil]
  by_cases hp : s.partialBuf = []
  · exact .inl (by rwa [hp] at h)
  · exact .inr ⟨hc hp, h⟩

/-- Rule R177 from any `PARTIAL`: what it holds is the part of the frame fed before. -/
theorem feed_frame {f : Frame} {c : ByteSeq} (hs : shaped f) (hv : verifies f) (hc : c ≠ []) (cs : List ByteSeq)
    (s : State) (hb : s.partialBuf ++ cs.flatten ++ c = f.bytes)
    (hm : ∀ x ∈ cs ++ [c], meets s.params.chunkMax x.length)
    (hcap : meets s.params.partialCap (s.partialBuf ++ cs.flatten).length)
    (hn : ∀ before x after, cs ++ [c] = before ++ x :: after → s.partialBuf ++ before.flatten ≠ [] → ¬ holdsFrame x) :
    feed s (cs ++ [c]) = some (List.replicate cs.length waiting ++ [gotFrame f], ingested s [] (.frame f) []) := by
  induction cs generalizing s with
  | nil =>
    have hlast := exec_ingest_last hs hv (by simpa using hb) (fun hp => hn [] c [] rfl (by simpa using hp))
      (hm c (by simp))
    rw [List.nil_append, feed_cons hlast]
    rfl
  | cons x cs ih =>
    have hpre : s.partialBuf ++ x ++ (cs.flatten ++ c) = f.bytes := by simpa using hb
    have hroom : room s x (s.partialBuf ++ x) := by
      refine ⟨hm x (by simp), fun k hk => le_trans ?_ (hcap k hk)⟩
      simp only [List.flatten_cons, List.length_append]
      omega
    have hcut := exec_ingest_cut hs hpre (by simp [hc]) (fun hp => hn [] x _ rfl (by simpa using hp)) hroom
    have hrest := ih (ingested s (s.partialBuf ++ x) (.noFrame .pending) []) (by simpa [ingested] using hb)
      (fun y hy => hm y (List.mem_cons_of_mem x hy)) (by simpa [ingested] using hcap)
      (fun before y after he hne => hn (x :: before) y after (by simp [he]) (by simpa [ingested] using hne))
    rw [List.cons_append, feed_cons hcut, hrest]
    rfl

end Sys2Proof.Machine

/-! ## The statements on INGEST -/

namespace Sys2Proof.Proofs

open Machine Claims

/-- Settles O12: step 1. -/
theorem freshFrameWinsOverPartial : Obligations.FreshFrameWinsOverPartial :=
  fun _ _ _ hs hv hr => exec_ingest_frame hs hv (.inl rfl) hr

/-- Settles O13: step 4. -/
theorem accumulationCompletesFrame : Obligations.AccumulationCompletesFrame :=
  fun _ _ _ _ hs hv hc hb hr => exec_ingest_frame hs hv (.inr ⟨hc, hb⟩) hr

/-- Settles O14: step 3. -/
theorem garbageIsDroppedSilently : Obligations.GarbageIsDroppedSilently := by
  intro chunk s hc h2 hsop hm
  have hsop : sopsOk (s.partialBuf ++ chunk) = false := by rwa [← sopsOk_iff_startsFrame, Bool.not_eq_true] at hsop
  exact exec_ingest_of_steps (ingestSteps_garbage (complete_eq_false_iff.mpr hc) h2 hsop) (room_nil hm)

/-- Settles O15: step 5. -/
theorem fragmentIsKept : Obligations.FragmentIsKept := fun _ _ => exec_ingest_fragment

/-- Settles O16: the frame is carried with its checksum found wrong. -/
theorem ingestMismatchClearsPartial : Obligations.IngestMismatchClearsPartial := by
  intro f chunk t s hs hv hm h
  refine ⟨checksum (summed f), checksum_eq_ones _, ?_⟩
  exact exec_ingest_of_steps (o := .mismatch (checksum (summed f)) f.claimed)
    ((ingestSteps_frame hs h).trans (by rw [carry_of_not_verifies hv])) (room_nil hm)

/-- Settles O18: one class for each answer of the five steps; a frame that does not verify has another checksum than
it claims. -/
theorem ingestIsTotalAndClassifiesPartial : Obligations.IngestIsTotalAndClassifiesPartial := by
  intro chunk s hm hcap
  have unbounded (b : ByteSeq) : room s chunk b :=
    ⟨fun k hk => (Option.some_ne_none k (hk.symm.trans hm)).elim,
      fun k hk => (Option.some_ne_none k (hk.symm.trans hcap)).elim⟩
  obtain ⟨f, t, hf, hb, hi⟩ | hi | hi | ⟨hc, hb, hsop, hi⟩ := ingestSteps_cases s.partialBuf chunk
  case inl =>
    have hs : shaped f := Frame.shapeOk_iff.mp hf
    by_cases hv : verifies f
    · rw [carry_of_verifies hs hv] at hi
      exact ⟨_, _, _, exec_ingest_of_steps hi (unbounded t), .inr (.inr (.inr (.inr ⟨f, rfl, rfl, hs, hv, hb⟩)))⟩
    · rw [carry_of_not_verifies hv] at hi
      have hne : checksum (summed f) ≠ f.claimed := fun h =>
        hv ((congrArg BitVec.toNat h).symm.trans (checksum_eq_ones (summed f)))
      exact ⟨_, _, _, exec_ingest_of_steps hi (unbounded []), .inr (.inr (.inr (.inl ⟨_, _, rfl, rfl, hne, rfl⟩)))⟩
  case inr.inl =>
    exact ⟨_, _, _, exec_ingest_of_steps hi (unbounded []), .inr (.inr (.inl ⟨rfl, rfl, rfl⟩))⟩
  case inr.inr.inl =>
    exact ⟨_, _, _, exec_ingest_of_steps hi (unbounded []), .inr (.inl ⟨rfl, rfl, rfl⟩)⟩
  case inr.inr.inr =>
    have hfrag := hsop.imp id fun h => And.intro (sopsOk_iff_startsFrame.mp h) (complete_eq_false_iff.mp hb)
    exact ⟨_, _, _, exec_ingest_of_steps hi (unbounded _), .inl ⟨rfl, rfl, rfl, fragment_length_le hb hsop, hfrag⟩⟩

/-- Settles O20: by induction on the sub-chunks, with the part of the frame fed so far in `PARTIAL`. -/
theorem chunkBoundariesDoNotMatter : Obligations.ChunkBoundariesDoNotMatter := by
  intro f cs c s hs hv hp hb hc hm hcap hn
  exact feed_frame hs hv hc cs s (by rwa [hp]) hm (by rwa [hp])
    fun before x after he hne => hn before x after he (by rwa [hp] at hne)

/-- Settles O21: by induction on the frames queued; each empty chunk takes the first frame in step 4. -/
theorem emptyChunksDrainTheBacklog : Obligations.EmptyChunksDrainTheBacklog := by
  intro fs s hfs hp hcap
  induction fs generalizing s with
  | nil =>
    have hp : s.partialBuf ++ [] = [] := by simpa using hp
    have hroom : room s [] (s.partialBuf ++ []) := hp.symm ▸ room_nil fun _ _ => Nat.zero_le _
    have hpend := exec_ingest_fragment not_holdsFrame_nil (.inl (by simp [hp])) hroom
    rw [hp] at hpend
    rw [List.length_nil, Nat.zero_add, List.replicate_one, feed_cons hpend]
    rfl
  | cons f fs ih =>
    obtain ⟨hs, hv⟩ := hfs f (by simp)
    have hrest : meets s.params.partialCap (fs.map Frame.bytes).flatten.length := by
      refine fun k hk => le_trans ?_ (hcap k hk)
      rw [hp, List.map_cons, List.flatten_cons, List.length_append]
      omega
    have hfirst := exec_ingest_frame hs hv (.inr ⟨not_holdsFrame_nil, by rw [hp]; simp⟩)
      ⟨fun _ _ => Nat.zero_le _, hrest⟩
    rw [List.length_cons, List.replicate_succ, feed_cons hfirst,
      ih _ (fun g hg => hfs g (List.mem_cons_of_mem f hg)) rfl hrest]
    rfl

end Sys2Proof.Proofs

/-! ## A field step does not read the last reply -/

namespace Sys2Proof.Machine

open Claims

/-- A meaning that is the same field step whatever the last reply was: progress of the walk, or a refusal. -/
def IgnoresReply (f : State → Answer) : Prop :=
  ∀ (s : State) (r : Result) (notes : List Notification),
    (∃ g, f s = .next (s.progress g) ∧ f (replied s r notes) = .next ((replied s r notes).progress g)) ∨
      ∃ e, f s = .refused e ∧ f (replied s r notes) = .refused e

theorem inWalk_ignoresReply (f : Walk → Except Refusal Progress) : IgnoresReply fun s => s.inWalk f := by
  intro s r notes
  cases hw : s.walk with
  | none => exact .inr ⟨_, State.inWalk_none hw, State.inWalk_none (s := replied s r notes) hw⟩
  | some w =>
    cases hf : f w with
    | ok g => exact .inl ⟨g, State.inWalk_ok hw hf, State.inWalk_ok (s := replied s r notes) hw hf⟩
    | error e => exact .inr ⟨e, State.inWalk_error hw hf, State.inWalk_error (s := replied s r notes) hw hf⟩

theorem execField_ignoresReply (i : Instr) : IgnoresReply (execField i) := by
  intro s r notes
  cases i
  case reset | checksum | verify | headerKind | declaredLength | frameDecode | ingest | decodeRecord | decode |
      buildFrame | frameResponse | frameAsync | frameCommand => exact .inr ⟨_, rfl, rfl⟩
  all_goals exact inWalk_ignoresReply _ s r notes

theorem fieldStep_ignoresReply (w : Walk) : IgnoresReply (fieldStep w) := by
  intro s r notes
  unfold fieldStep
  split
  · exact .inl ⟨_, rfl, rfl⟩
  · exact .inr ⟨_, rfl, rfl⟩
  · exact execField_ignoresReply _ s r notes

theorem runWalk_refused {n : Nat} {s : State} {w : Walk} {e : Refusal} (h : s.walk = some w)
    (hs : fieldStep w s = .refused e) : runWalk (n + 1) s = .refused e := by simp only [runWalk, h, hs]

/-- A walk that has not ended has delivered no reply, and one that ends overwrites the last (rule R221). -/
theorem runWalk_replied (n : Nat) (g : Progress) (s : State) (r : Result) (notes : List Notification) :
    runWalk n ((replied s r notes).progress g) = runWalk n (s.progress g) := by
  induction n generalizing s g with
  | zero => cases g <;> rfl
  | succ n ih =>
    cases g with
    | finished rec recNotes => rfl
    | running w =>
      have hw : (s.progress (.running w)).walk = some w := rfl
      have hw' : ((replied s r notes).progress (.running w)).walk = some w := rfl
      obtain ⟨g, h, h'⟩ | ⟨e, h, h'⟩ := fieldStep_ignoresReply w (s.progress (.running w)) r notes
      · rw [runWalk_step hw h, runWalk_step hw' h']
        exact ih g (s.progress (.running w))
      · rw [runWalk_refused hw h, runWalk_refused hw' h']

theorem State.walkEntry_replied (s : State) (r : Result) (notes : List Notification) (f : Frame) (e : Entry)
    (m1 m2 : Option Nat) : (replied s r notes).walkEntry f e m1 m2 = s.walkEntry f e m1 m2 :=
  runWalk_replied _ _ s r notes

/-- DECODE_RECORD answers the same whatever the last reply was. -/
theorem execDecodeRecord_replied (f : Frame) (key : Option RespKey) (m1 m2 : Option Nat) (s : State) (r : Result)
    (notes : List Notification) :
    execDecodeRecord f key m1 m2 (replied s r notes) = execDecodeRecord f key m1 m2 s := by
  have walk (e : Entry) :
      State.walkEntry { replied s r notes with tableUsed := true, walk := none } f e m1 m2 =
        State.walkEntry { s with tableUsed := true, walk := none } f e m1 m2 :=
    State.walkEntry_replied { s with tableUsed := true, walk := none } r notes f e m1 m2
  simp only [execDecodeRecord, walk]
  rfl

/-! ## DECODE_RECORD completes (rules R238, R287) -/

theorem fieldStep_next_progress {w : Walk} {s t : State} (h : fieldStep w s = .next t) : ∃ g, t = s.progress g := by
  obtain ⟨g, hg, -⟩ | ⟨e, he, -⟩ := fieldStep_ignoresReply w s .none []
  · exact ⟨g, Host.Outcome.next.inj (h.symm.trans hg)⟩
  · cases h.symm.trans he

/-- In a walk, the progress made last is the progress made. -/
theorem State.progress_progress {s : State} {g : Progress} {w : Walk} (h : (s.progress g).walk = some w)
    (g' : Progress) : (s.progress g).progress g' = s.progress g' := by
  cases g with
  | running v => cases g' <;> rfl
  | finished r notes => cases h

/-- A run of field steps that ends, ends with a Record as the reply. -/
theorem runWalk_next_finished {n : Nat} {s t : State} {g : Progress} (h : runWalk n (s.progress g) = .next t) :
    ∃ r notes, t = s.progress (.finished r notes) := by
  obtain ⟨⟨g', rfl⟩, hw⟩ := runWalk_induct (P := fun u => ∃ g, u = s.progress g)
    (by
      rintro _ b w ⟨g, rfl⟩ hw hb
      obtain ⟨g', rfl⟩ := fieldStep_next_progress hb
      exact ⟨g', State.progress_progress hw g'⟩)
    ⟨g, rfl⟩ h
  cases g' with
  | running w => cases hw
  | finished r notes => exact ⟨r, notes, rfl⟩

/-- Past the guards of DECODE_RECORD, a walk ends with a Record. -/
theorem State.walkEntry_completes {s : State} {f : Frame} {e : Entry} {m1 m2 : Option Nat}
    (h : (Walk.start f e m1 m2).Sound s.params) :
    ∃ r notes, s.walkEntry f e m1 m2 = .next (s.progress (.finished r notes)) := by
  have hsteps : ((Walk.start f e m1 m2).settle s.params).stepsLeft s.params ≤ walkFuel (Walk.start f e m1 m2) :=
    calc
      _ ≤ (Walk.start f e m1 m2).stepsLeft s.params := h.settle_stepsLeft (Nat.zero_le _)
      _ ≤ (f.payload.length / 2 + 1) * e.fields.length := h.start_stepsLeft
      _ ≤ walkFuel (Walk.start f e m1 m2) :=
        Nat.mul_le_mul_right _ (Nat.succ_le_succ (Nat.div_le_self _ _))
  obtain ⟨t, ht⟩ := runWalk_ends h.settle_good hsteps
  obtain ⟨r, notes, rfl⟩ := runWalk_next_finished ht
  exact ⟨r, notes, ht⟩

/-- DECODE_RECORD completes on every operand it accepts: with a raw pass-through or with the Record of a walk. -/
theorem execDecodeRecord_completes {f : Frame} {m1 m2 : Option Nat} {s : State} (h : recordable s f m1 m2)
    (key : Option RespKey) : ∃ r notes, execDecodeRecord f key m1 m2 s = .next (decoded s r notes) := by
  obtain ⟨ht, hf, h1, h2⟩ := recordable_iff.mp h
  by_cases hp : f.payload = []
  · exact ⟨_, _, execDecodeRecord_emptyPayload h hp⟩
  cases hl : s.table.lookup f key with
  | none => exact ⟨_, _, execDecodeRecord_noEntry h hp hl⟩
  | some e =>
    have walk (ha : requiresMask s.params e = true →
        ∃ a b, m1 = some a ∧ m2 = some b ∧ e.fields.any (Descriptor.active a b) = true) :
        ∃ r notes, execDecodeRecord f key m1 m2 s = .next (decoded s r notes) := by
      have hsound : (Walk.start f e m1 m2).Sound s.params := .start (Table.lookup_wf ht hl) hf h1 h2 ha
      obtain ⟨r, notes, hr⟩ := State.walkEntry_completes (s := { s with tableUsed := true, walk := none }) hsound
      exact ⟨.record r, notes, (execDecodeRecord_walk h hp hl ha).trans hr⟩
    by_cases hm : requiresMask s.params e = true
    case neg => exact walk fun hm' => absurd hm' hm
    match m1, m2 with
    | none, _ => exact ⟨_, _, execDecodeRecord_noContext h hp hl hm (.inl rfl)⟩
    | some _, none => exact ⟨_, _, execDecodeRecord_noContext h hp hl hm (.inr rfl)⟩
    | some a, some b =>
      by_cases ha : e.fields.any (Descriptor.active a b) = true
      · exact walk fun _ => ⟨a, b, rfl, rfl, ha⟩
      · exact ⟨_, _, execDecodeRecord_noActive h hp hl hm ha⟩

/-! ## DECODE, one equation for each answer of its INGEST (rule R176) -/

theorem maskFits_iff {p : Params} {m : Option Nat} : maskFits p m = true ↔ ∀ k, m = some k → k < 2 ^ p.maskWidth := by
  cases m <;> simp [maskFits]

section DecodeEquations

variable {chunk : ByteSeq} {key : Option RespKey} {m1 m2 : Option Nat} {s t : State}
  (h1 : ∀ m, m1 = some m → m < 2 ^ s.params.maskWidth) (h2 : ∀ m, m2 = some m → m < 2 ^ s.params.maskWidth)

include h1 h2

theorem exec_decode_none {c : NoneCause} (h : s.ingest chunk = .ok (.none c, t)) :
    exec (.decode chunk key m1 m2) s = .next (replied t (.nothing c) []) := by
  simp only [exec, execDecode, maskFits_iff.mpr h1, maskFits_iff.mpr h2, h]
  rfl

theorem exec_decode_mismatch {x y : Byte} (h : s.ingest chunk = .ok (.mismatch x y, t)) :
    exec (.decode chunk key m1 m2) s = .next (replied t (.checksumMismatch x y) [.checksumMismatch x y]) := by
  simp only [exec, execDecode, maskFits_iff.mpr h1, maskFits_iff.mpr h2, h]
  rfl

theorem exec_decode_frame {f : Frame} (h : s.ingest chunk = .ok (.frame f, t)) :
    exec (.decode chunk key m1 m2) s = execDecodeRecord f key m1 m2 t := by
  simp only [exec, execDecode, maskFits_iff.mpr h1, maskFits_iff.mpr h2, h]
  rfl

theorem exec_decode_refused {r : Refusal} (h : s.ingest chunk = .error r) :
    exec (.decode chunk key m1 m2) s = .refused r := by
  simp only [exec, execDecode, maskFits_iff.mpr h1, maskFits_iff.mpr h2, h]
  rfl

end DecodeEquations

end Sys2Proof.Machine

/-! ## The statements on DECODE -/

namespace Sys2Proof.Proofs

open Machine Claims

/-- Settles O24: the INGEST read back from its answer decides what DECODE does, and the reply of the INGEST is lost in
the DECODE_RECORD. -/
theorem decodeComposesIngestAndDecodeRecord : Obligations.DecodeComposesIngestAndDecodeRecord := by
  intro chunk key m1 m2 s h1 h2
  refine ⟨fun p c h => ?_, fun p x y h => ?_, fun p f h => ?_, fun r h => ?_⟩
  · exact exec_decode_none h1 h2 (ingest_of_exec_next (.none c) h)
  · exact exec_decode_mismatch h1 h2 (ingest_of_exec_next (.mismatch x y) h)
  · rw [exec_decode_frame h1 h2 (ingest_of_exec_next (.frame f) h)]
    exact (execDecodeRecord_replied f key m1 m2 { s with partialBuf := p } (.frame f) []).symm
  · exact exec_decode_refused h1 h2 (ingest_of_exec_refused h)

/-- Settles O25: an unbounded INGEST answers, and the Frame it returns is one that DECODE_RECORD accepts. -/
theorem decodeCompletes : Obligations.DecodeCompletes := by
  intro chunk key m1 m2 s hwalk hm hcap ht h1 h2
  obtain ⟨o, b, hi⟩ := ingestSteps_isSome s.partialBuf chunk
  have hok : s.ingest chunk = .ok (o, { s with partialBuf := b }) :=
    State.ingest_ok (by rw [hm]; rfl) hi (by rw [Memory.wf, hcap]; rfl)
  obtain ⟨-, -, hvalid⟩ := State.ingest_spec hok
  cases o with
  | none c => exact ⟨b, s.tableUsed, _, exec_decode_none h1 h2 hok⟩
  | mismatch x y => exact ⟨b, s.tableUsed, _, exec_decode_mismatch h1 h2 hok⟩
  | frame f =>
    obtain ⟨r, notes, hr⟩ := execDecodeRecord_completes (s := { s with partialBuf := b })
      ⟨ht, hvalid f rfl, h1, h2⟩ key
    exact ⟨b, true, ⟨r, notes⟩, by rw [exec_decode_frame h1 h2 hok, hr, hwalk]; rfl⟩

end Sys2Proof.Proofs

/-! SUPPORT. The proofs of the family '43_field_codec': what a byte range holds, the values of the field types, and a
field step of either mode in the terms of the statements. -/

namespace Sys2Proof.Machine

open Claims

/-! ## Byte ranges and their values (rules R193, R197, R205) -/

theorem slice_length {b : ByteSeq} {lo hi : Nat} (h : hi ≤ b.length) : (slice b lo hi).length = hi - lo := by
  simp only [slice, List.length_take, List.length_drop]
  omega

theorem slice_getElem? (b : ByteSeq) {lo hi k : Nat} (h : k < hi - lo) : (slice b lo hi)[k]? = b[lo + k]? := by
  rw [slice, List.getElem?_take_of_lt h, List.getElem?_drop]

theorem be_append (s t : ByteSeq) : be (s ++ t) = be s * 256 ^ t.length + be t := by
  induction t using List.reverseRecOn with
  | nil => simp
  | append_singleton t x ih =>
    rw [← List.append_assoc, be_concat, ih, be_concat, List.length_append, List.length_singleton]
    ring

/-- A byte is the digit of the big-endian value at its place, counted from the end. -/
theorem be_digit {s : ByteSeq} {k : Nat} (h : k < s.length) :
    be s / 256 ^ (s.length - 1 - k) % 256 = s[k].toNat := by
  have hcut : s.take k ++ [s[k]] ++ s.drop (k + 1) = s := by
    rw [← List.take_succ_eq_append_getElem h, List.take_append_drop]
  have hlen : (s.drop (k + 1)).length = s.length - 1 - k := by rw [List.length_drop]; omega
  have hlow := be_lt (s.drop (k + 1))
  have hval := be_append (s.take k ++ [s[k]]) (s.drop (k + 1))
  rw [hcut, hlen, be_concat] at hval
  rw [hlen] at hlow
  have hx := s[k].isLt
  rw [hval, Nat.mul_comm, Nat.mul_add_div (Nat.pow_pos (by decide)), Nat.div_eq_of_lt hlow]
  omega

theorem be_slice_lt {b : ByteSeq} {lo hi : Nat} (h : hi ≤ b.length) : be (slice b lo hi) < 2 ^ (8 * (hi - lo)) := by
  have := be_lt (slice b lo hi)
  rwa [slice_length h, show (256 : Nat) = 2 ^ 8 from rfl, ← Nat.pow_mul] at this

/-- Two bytes at an offset are the range a sample is taken from (rule R235). -/
theorem drop_take_two {b : ByteSeq} {c : Nat} {x y : Byte} (hx : b[c]? = some x) (hy : b[c + 1]? = some y) :
    c + 2 ≤ b.length ∧ (b.drop c).take 2 = [x, y] := by
  obtain ⟨hc, rfl⟩ := List.getElem?_eq_some_iff.mp hx
  obtain ⟨hc', rfl⟩ := List.getElem?_eq_some_iff.mp hy
  exact ⟨hc', by rw [List.drop_eq_getElem_cons hc, List.drop_eq_getElem_cons hc']; rfl⟩

/-! ## Two's complement and samples (rules R199, R201) -/

theorem sext_of_lt {n v : Nat} (h : v < 2 ^ (n - 1)) : sext n v = v := if_pos h

theorem sext_of_le {n v : Nat} (h : 2 ^ (n - 1) ≤ v) : sext n v = (v : Int) - 2 ^ n := if_neg (Nat.not_lt.mpr h)

theorem sext_range {n v : Nat} (hn : 0 < n) (h : v < 2 ^ n) :
    -(2 : Int) ^ (n - 1) ≤ sext n v ∧ sext n v < 2 ^ (n - 1) := by
  have hpow : (2 : Int) ^ n = 2 * 2 ^ (n - 1) := (mul_pow_sub_one hn.ne' 2).symm
  have hv : (v : Int) < 2 ^ n := by exact_mod_cast h
  rcases Nat.lt_or_ge v (2 ^ (n - 1)) with hlow | hhigh
  · rw [sext_of_lt hlow]
    have : (v : Int) < 2 ^ (n - 1) := by exact_mod_cast hlow
    omega
  · rw [sext_of_le hhigh]
    have : (2 : Int) ^ (n - 1) ≤ v := by exact_mod_cast hhigh
    omega

theorem eq_sampleOf {top v : Int} {raw : Nat} (hhigh : (raw : Int) > top → v = (raw : Int) - 65536)
    (hlow : (raw : Int) ≤ top → v = raw) : v = sampleOf top raw := by
  unfold sampleOf
  split
  case isTrue h => exact hhigh h
  case isFalse h => exact hlow (not_lt.mp h)

/-! ## Text (rules R195, R196) -/

theorem nul_notMem_replaceNul (t : List Char) : Char.ofNat 0 ∉ replaceNul t := by
  intro h
  obtain ⟨c, -, hc⟩ := List.mem_map.mp h
  split at hc
  · exact absurd hc (by decide)
  · contradiction

theorem textDecode_ascii {b : ByteSeq} (h : ∀ x ∈ b, x.toNat < 128) :
    textDecode "ascii" b = b.map fun x => Char.ofNat x.toNat :=
  if_pos ⟨rfl, List.all_eq_true.mpr fun x hx => decide_eq_true (h x hx)⟩

theorem ofNat_eq_nul_iff {n : Nat} (h : n < 128) : Char.ofNat n = Char.ofNat 0 ↔ n = 0 := by
  refine ⟨fun he => ?_, fun he => he ▸ rfl⟩
  have := congrArg Char.toNat he
  rwa [Char.toNat_ofNat, if_pos (.inl (by omega))] at this

theorem replaceNul_ascii {b : ByteSeq} (h : ∀ x ∈ b, x.toNat < 128) :
    replaceNul (textDecode "ascii" b) = b.map fun x => if x.toNat = 0 then '0' else Char.ofNat x.toNat := by
  rw [textDecode_ascii h, replaceNul, List.map_map]
  refine List.map_congr_left fun x hx => ?_
  simp only [Function.comp_apply, ofNat_eq_nul_iff (h x hx)]

/-! ## A field step of fixed-offset mode inside the payload (rules R229, R230) -/

/-- W3 as the meanings of the integer types test it (rule R108). -/
theorem intAttrs_ok {p : Params} {lo hi : Nat} (h : lo < hi) (hw : meets p.maxWidth (hi - lo)) :
    (decide (lo < hi) && widthOk p lo hi) = true := by
  rw [decide_eq_true h, Bool.true_and]
  exact withinBound_iff.mpr hw

section FixedSteps

variable {s : State} {w : Walk} {lo hi : Nat} (h : inFixed s w) (name : String)

include h

theorem inWalk_fixedField {ok : Bool} (ha : ok = true) (hl : lo ≤ hi) (hh : hi ≤ w.payload.length)
    (value : ByteSeq → Value) :
    s.inWalk (fixedField s.params name lo hi ok value) =
      .next (afterFixed s w name (value (slice w.payload lo hi)) []) := by
  obtain ⟨hwalk, hfix⟩ := h
  rw [State.inWalk_ok hwalk (fixedField_in ha (requiresMask_false.mpr hfix) hl hh), ← progress_storeFixed hfix,
    List.append_nil]
  rfl

theorem exec_fldNum (hl : lo < hi) (hh : hi ≤ w.payload.length) (hw : meets s.params.maxWidth (hi - lo)) :
    exec (.fldNum name lo hi) s = .next (afterFixed s w name (.num (be (slice w.payload lo hi))) []) :=
  inWalk_fixedField h name (intAttrs_ok hl hw) hl.le hh numValue

theorem exec_fldSigned (hl : lo < hi) (hh : hi ≤ w.payload.length) (hw : meets s.params.maxWidth (hi - lo)) :
    exec (.fldSigned name lo hi) s =
      .next (afterFixed s w name (.signed (sext (8 * (hi - lo)) (be (slice w.payload lo hi)))) []) :=
  inWalk_fixedField h name (intAttrs_ok hl hw) hl.le hh (signedValue lo hi)

theorem exec_fldText (enc : String) (hl : lo ≤ hi) (hh : hi ≤ w.payload.length) :
    exec (.fldText name lo hi enc) s =
      .next (afterFixed s w name (.text (replaceNul (textDecode enc (slice w.payload lo hi)))) []) :=
  inWalk_fixedField h name (decide_eq_true hl) hl hh (textValue enc)

theorem exec_fldRaw (hl : lo ≤ hi) (hh : hi ≤ w.payload.length) :
    exec (.fldRaw name lo hi) s = .next (afterFixed s w name (.raw (slice w.payload lo hi)) []) :=
  inWalk_fixedField h name (decide_eq_true hl) hl hh rawValue

end FixedSteps

/-! ## A field step of mask-driven mode (rules R232 to R236) -/

theorem Walk.mask_eq_some {w : Walk} {reg : MaskReg} {m : Nat}
    (h : reg = .mask1 ∧ w.mask1 = some m ∨ reg = .mask2 ∧ w.mask2 = some m) : w.mask reg = some m := by
  obtain ⟨rfl, h⟩ | ⟨rfl, h⟩ := h <;> exact h

theorem progress_finishRing {s : State} {w : Walk} (h : streaming s w.entry) :
    s.progress (w.finish s.params) =
      { s with walk := none, reply := some (ringReply w w.fields w.cur) } := by
  simp [Walk.finish, Walk.record, Walk.payload, requiresMask_iff.mpr h, State.progress, ringReply]

/-- The test of the end of the list in mask-driven mode: on, back to 0 while payload remains, or to the end. -/
theorem progress_settleRing {s : State} {w : Walk} (h : streaming s w.entry) :
    s.progress (w.settle s.params) =
      if w.fi < w.entry.fields.length then { s with walk := some w }
      else if w.cur < w.frame.payload.length then { s with walk := some { w with fi := 0 } }
      else { s with walk := none, reply := some (ringReply w w.fields w.cur) } := by
  by_cases hfi : w.fi < w.entry.fields.length
  · rw [Walk.settle_running hfi, if_pos hfi]
    rfl
  have hend := Nat.not_lt.mp hfi
  rw [if_neg hfi]
  by_cases hc : w.cur < w.frame.payload.length
  · rw [Walk.settle_restart hend (requiresMask_iff.mpr h) hc, if_pos hc]
    rfl
  · rw [Walk.settle_finish hend (.inr (Nat.not_lt.mp hc)), progress_finishRing h, if_neg hc]

theorem progress_advanceRing {s : State} {w : Walk} (h : streaming s w.entry) (fields : FieldMap) (cur : Nat) :
    s.progress (({ w with fields := fields, cur := cur } : Walk).advance s.params) = afterRing s w fields cur :=
  progress_settleRing (w := { w with fi := w.fi + 1, fields := fields, cur := cur }) h

section RingSteps

variable {s : State} {w : Walk} {reg : MaskReg} {bit m : Nat} (h : inRing s w) (hb : bit < s.params.maskWidth)
  (hr : w.mask reg = some m) (name : String) (rb rt : Int) (u se : String)

include h hb hr

theorem exec_fldBitmask_inactive (ha : m.testBit bit = false) :
    exec (.fldBitmask name reg bit rb rt u se) s = .next (afterRing s w w.fields w.cur) := by
  obtain ⟨hwalk, hring⟩ := h
  rw [← progress_advanceRing hring]
  exact State.inWalk_ok hwalk
    (ringField_inactive hb (requiresMask_iff.mpr hring) hr ((maskBit_eq_testBit m bit).trans ha))

theorem exec_fldBitmask_short (ha : m.testBit bit = true) (hc : w.payload.length < w.cur + 2) :
    exec (.fldBitmask name reg bit rb rt u se) s =
      .next { s with walk := none, reply := some (ringReply w w.fields w.cur) } := by
  obtain ⟨hwalk, hring⟩ := h
  rw [← progress_finishRing hring]
  exact State.inWalk_ok hwalk
    (ringField_short hb (requiresMask_iff.mpr hring) hr ((maskBit_eq_testBit m bit).trans ha) hc)

theorem exec_fldBitmask_sample {x y : Byte} {v : Value} (ha : m.testBit bit = true) (hx : w.payload[w.cur]? = some x)
    (hy : w.payload[w.cur + 1]? = some y)
    (hv : sampleValue ⟨se, rb, rt, u, []⟩ (x.toNat * 256 + y.toNat) (w.fields.lookup name) = some v) :
    exec (.fldBitmask name reg bit rb rt u se) s =
      .next (afterRing s w (putField name v w.fields) (w.cur + 2)) := by
  obtain ⟨hwalk, hring⟩ := h
  obtain ⟨hc, hpair⟩ := drop_take_two hx hy
  rw [← be_pair, ← hpair] at hv
  rw [← progress_advanceRing hring]
  exact State.inWalk_ok hwalk
    (ringField_sample hb (requiresMask_iff.mpr hring) hr ((maskBit_eq_testBit m bit).trans ha) hc hv)

end RingSteps

theorem putField_of_lookup_none {name : String} {m : FieldMap} (h : m.lookup name = none) (v : Value) :
    putField name v m = m ++ [(name, v)] := by
  refine putField_new fun hmem => ?_
  obtain ⟨x, hx, rfl⟩ := List.mem_map.mp hmem
  exact absurd (List.lookup_eq_none_iff.mp h x hx) (by simp)

end Sys2Proof.Machine

/-! ## The statements of the family -/

namespace Sys2Proof.Proofs

open Machine Claims

/-- Settles O34: each byte of the range is a base-256 digit of its big-endian value. -/
theorem numFieldIsBigEndian : Obligations.NumFieldIsBigEndian := by
  refine ⟨fun d => decodeDescriptor_num, fun name lo hi s w h hl hh hw => ?_⟩
  refine ⟨_, exec_fldNum h name hl hh hw, be_slice_lt hh, fun k hk => ?_⟩
  have hlen := slice_length (lo := lo) hh
  have hk' : k < (slice w.payload lo hi).length := hlen ▸ hk
  rw [List.getElem?_eq_getElem hk', Option.map_some, ← be_digit hk', hlen]

/-- Settles O36: the replacement leaves no U+0000, and under ascii it is made on the characters of the bytes. -/
theorem textFieldReplacesNul : Obligations.TextFieldReplacesNul := by
  refine ⟨fun d => decodeDescriptor_text, fun name lo hi enc s w h hl hh => ?_⟩
  refine ⟨_, exec_fldText h name enc hl hh, rfl, nul_notMem_replaceNul _, ?_⟩
  rintro rfl hascii
  exact replaceNul_ascii hascii

/-- Settles O37: the value stored is the range, and the range is read byte by byte at its offset. -/
theorem rawFieldIsTheByteRange : Obligations.RawFieldIsTheByteRange :=
  ⟨fun _ => decodeDescriptor_raw, fun name _ _ _ w h hl hh =>
    ⟨_, exec_fldRaw h name hl hh, slice_length hh, fun _ => slice_getElem? w.payload⟩⟩

/-- Settles O39: the value is the sign extension of the raw value, which fits the width. -/
theorem signedFieldIsTwosComplement : Obligations.SignedFieldIsTwosComplement := by
  refine ⟨fun d => decodeDescriptor_signed, fun name lo hi s w h hl hh hw => ?_⟩
  exact ⟨_, exec_fldSigned h name hl hh hw, sext_of_le, sext_of_lt, sext_range (by omega) (be_slice_lt hh)⟩

/-- Settles O42: the three ways of a ring step; a sample list is new at the end of the record or grows in place. -/
theorem bitmaskFieldAccumulates : Obligations.BitmaskFieldAccumulates := by
  refine ⟨fun d hc => ?_, fun name reg bit rb rt u se s w m h hb hmask => ?_⟩
  · have hd : decode (.fdesc d) = _ := decodeDescriptor_bitmask hc
    rw [hd]
    exact ⟨fun hr => by rw [hr]; rfl, fun hr => by rw [hr]; rfl⟩
  have hr := Walk.mask_eq_some hmask
  refine ⟨exec_fldBitmask_inactive h hb hr name rb rt u se, exec_fldBitmask_short h hb hr name rb rt u se, ?_⟩
  intro x y v ha hx hy hhigh hlow
  have sample {z : Value} := exec_fldBitmask_sample h hb hr name rb rt u se (v := z) ha hx hy
  obtain rfl := eq_sampleOf hhigh hlow
  refine ⟨fun hnew => ?_, fun old hold => sample (by rw [hold]; rfl)⟩
  rw [← putField_of_lookup_none hnew]
  exact sample (by rw [hnew]; rfl)

end Sys2Proof.Proofs

/-! SUPPORT. The proofs of the family '44_record_decode': a fixed field in range or not, the record of the fields
decoded so far, the dealing out of samples, and the walks of both modes from start to end. -/

namespace Sys2Proof.Machine

open Claims

/-! ## A fixed field, in range or not (rules R229, R231) -/

section FixedFields

variable {s : State} {w : Walk} {lo hi : Nat} (h : inFixed s w) (name : String)

include h

theorem inWalk_fixedField_out {ok : Bool} (ha : ok = true) (hl : lo ≤ hi) (hh : w.payload.length < hi)
    (value : ByteSeq → Value) :
    s.inWalk (fixedField s.params name lo hi ok value) =
      .next (afterFixed s w name (.fieldError .outOfRange) [.unparseableField name .outOfRange]) := by
  obtain ⟨hwalk, hfix⟩ := h
  rw [State.inWalk_ok hwalk (fixedField_out ha (requiresMask_false.mpr hfix) hl hh), ← progress_storeFixed hfix]
  rfl

theorem inWalk_fixedField_eq {ok : Bool} (ha : ok = true) (hl : lo ≤ hi) (value : ByteSeq → Value) :
    s.inWalk (fixedField s.params name lo hi ok value) =
      .next
        (afterFixed s w name
          (if w.payload.length < hi then .fieldError .outOfRange else value (slice w.payload lo hi))
          (if w.payload.length < hi then [.unparseableField name .outOfRange] else [])) := by
  split
  case isTrue hh => exact inWalk_fixedField_out h name ha hl hh value
  case isFalse hh => exact inWalk_fixedField h name ha hl (Nat.not_lt.mp hh) value

end FixedFields

/-- W3 and W8 as the meaning of FLD.PREDEF tests them (rule R108). -/
theorem predefAttrs_ok {p : Params} {name : String} {lo hi : Nat} {pm : Option Nat} {vs : List (Nat × String)}
    (h : lo < hi) (hw : meets p.maxWidth (hi - lo)) (hm : ∀ m, pm = some m → m < 2 ^ (8 * (hi - lo)))
    (hv : (vs.map Prod.fst).Nodup) :
    ((Instr.fldPredef name lo hi pm vs).wf && widthOk p lo hi) = true := by
  have hwidth : widthOk p lo hi = true := withinBound_iff.mpr hw
  rw [Instr.wf, decide_eq_true h, pmaskFits_iff.mpr hm, distinctKeys_iff.mpr hv, hwidth]
  rfl

/-! ## The descriptor at `FI` in fixed-offset mode (rules R104, R114, R229) -/

theorem fixedNoteOf_known {d : Descriptor} (h : d.code.toNat < 6) (pay : ByteSeq) :
    (fixedNoteOf d pay).toList = if pay.length < d.hi then [.unparseableField d.name .outOfRange] else [] := by
  rw [fixedNoteOf, if_neg (Nat.not_le.mpr h)]
  split <;> rfl

/-- A descriptor of a well-formed fixed-offset entry stores the value of its type and raises its notification. -/
theorem exec_fixedDescriptor_eq {s : State} {w : Walk} {d : Descriptor} (h : inFixed s w)
    (he : w.entry.wf s.params = true) (hd : d ∈ w.entry.fields) :
    ∃ i, decodeDescriptor d = .ok i ∧
      exec i s = .next (afterFixed s w d.name (fixedValueOf d w.payload) (fixedNoteOf d w.payload).toList) := by
  obtain ⟨-, hfields⟩ := Entry.wf_iff.mp he
  obtain ⟨hle, hint, hmode, -, hpredef⟩ := hfields d hd
  have hne : d.code ≠ 4 := fun hc => h.2 (hmode.mp hc)
  by_cases hk : d.code.toNat < 6
  · have hle := hle hk hne
    have known {i : Instr} {ok : Bool} (value : ByteSeq → Value)
        (hx : exec i s = s.inWalk (fixedField s.params d.name d.lo d.hi ok value)) (ha : ok = true)
        (hv : fixedValueOf d w.payload =
          if w.payload.length < d.hi then .fieldError .outOfRange else value (slice w.payload d.lo d.hi)) :
        exec i s = .next (afterFixed s w d.name (fixedValueOf d w.payload) (fixedNoteOf d w.payload).toList) := by
      rw [hx, inWalk_fixedField_eq h d.name ha hle, hv, fixedNoteOf_known hk]
    obtain hc | hc | hc | hc | hc := code_fixed _ hk hne
    · obtain ⟨hlt, hw⟩ := hint (.inl hc)
      have ha := intAttrs_ok hlt hw
      cases hf : d.format with
      | none => exact ⟨_, decodeDescriptor_num hc hf, known numValue rfl ha (by simp only [fixedValueOf, hc, hf]; rfl)⟩
      | hex => exact ⟨_, decodeDescriptor_hex hc hf, known hexValue rfl ha (by simp only [fixedValueOf, hc, hf]; rfl)⟩
    · exact ⟨_, decodeDescriptor_text hc,
        known (textValue d.encoding) rfl (decide_eq_true hle) (by simp only [fixedValueOf, hc]; rfl)⟩
    · exact ⟨_, decodeDescriptor_raw hc, known rawValue rfl (decide_eq_true hle) (by simp only [fixedValueOf, hc]; rfl)⟩
    · obtain ⟨hlt, hw⟩ := hint (.inr (.inl hc))
      obtain ⟨hm, hv⟩ := hpredef hc
      exact ⟨_, decodeDescriptor_predef hc, known (predefValue d.pmask d.values) rfl (predefAttrs_ok hlt hw hm hv)
        (by simp only [fixedValueOf, hc]; rfl)⟩
    · obtain ⟨hlt, hw⟩ := hint (.inr (.inr hc))
      exact ⟨_, decodeDescriptor_signed hc, known (signedValue d.lo d.hi) rfl (intAttrs_ok hlt hw)
        (by simp only [fixedValueOf, hc]; rfl)⟩
  · have h6 := Nat.not_lt.mp hk
    obtain ⟨i, hi, hwf, hu⟩ := decodeDescriptor_unknown h6
    refine ⟨i, hi, ?_⟩
    rw [fixedValueOf, fixedNoteOf, if_pos h6, if_pos h6]
    exact (hu.decodes_and_runs hwf h).2

/-! ## A record of distinct names (rules R40, R108 W1) -/

section NamedValues

variable {α : Type} {name : α → String} {l : List α} {x : α} (h : (l.map name).Nodup) (value : α → Value)

include h

/-- The name of the element at `k` is not among those before it. -/
theorem name_notMem_take {k : Nat} (hk : l[k]? = some x) :
    name x ∉ ((l.take k).map fun y => (name y, value y)).map Prod.fst := by
  obtain ⟨hlt, rfl⟩ := List.getElem?_eq_some_iff.mp hk
  have hnames : ((l.take k).map fun y => (name y, value y)).map Prod.fst = (l.map name).take k := by
    rw [List.map_map, ← List.map_take]
    rfl
  have hdrop : name l[k] ∈ (l.map name).drop k := by
    rw [← List.map_drop, List.drop_eq_getElem_cons hlt]
    exact List.mem_cons_self
  rw [hnames]
  exact fun htake => List.disjoint_take_drop h le_rfl htake hdrop

theorem lookup_named (hx : x ∈ l) : (l.map fun y => (name y, value y)).lookup (name x) = some (value x) := by
  induction l with
  | nil => cases hx
  | cons y r ih =>
    rw [List.map_cons, List.nodup_cons] at h
    obtain rfl | hx := List.mem_cons.mp hx
    · simp
    · have hne : name x ≠ name y := fun he => h.1 (he ▸ List.mem_map_of_mem hx)
      rw [List.map_cons, List.lookup_cons, beq_false_of_ne hne]
      exact ih h.2 hx

/-- A store under the name of one element changes its value and no other. -/
theorem putField_named (hx : x ∈ l) {value' : α → Value} (hothers : ∀ y ∈ l, y ≠ x → value' y = value y) :
    putField (name x) (value' x) (l.map fun y => (name y, value y)) = l.map fun y => (name y, value' y) := by
  induction l with
  | nil => cases hx
  | cons y r ih =>
    rw [List.map_cons, List.nodup_cons] at h
    have hne {z : α} (hz : z ∈ r) : name z ≠ name y := fun he => h.1 (he ▸ List.mem_map_of_mem hz)
    obtain rfl | hx := List.mem_cons.mp hx
    · have hrest : (r.map fun z => (name z, value z)) = r.map fun z => (name z, value' z) :=
        List.map_congr_left fun z hz => by
          rw [hothers z (List.mem_cons_of_mem _ hz) fun he => hne hz (congrArg name he)]
      rw [List.map_cons, List.map_cons, putField, if_pos rfl, hrest]
    · have hy : value' y = value y := hothers y List.mem_cons_self fun he => hne hx (congrArg name he.symm)
      rw [List.map_cons, List.map_cons, putField, if_neg (hne hx).symm, hy,
        ih h.2 hx fun z hz => hothers z (List.mem_cons_of_mem _ hz)]

end NamedValues

/-! ## What holds at the end of a walk -/

/-- The induction of DECODE_RECORD's walk, packaged once: what holds of the walk at its start and is kept by a field
step holds of the Record it ends with. -/
theorem State.walkEntry_induct {R : Progress → Prop} {s : State} {f : Frame} {e : Entry} {m1 m2 : Option Nat}
    (hsound : (Walk.start f e m1 m2).Sound s.params) (start : R ((Walk.start f e m1 m2).settle s.params))
    (step : ∀ w, R (.running w) →
      ∃ g, fieldStep w (s.progress (.running w)) = .next (s.progress g) ∧ R g) :
    ∃ r notes, s.walkEntry f e m1 m2 = .next (s.progress (.finished r notes)) ∧ R (.finished r notes) := by
  obtain ⟨r, notes, hrun⟩ := State.walkEntry_completes hsound
  obtain ⟨⟨g, hg, hR⟩, -⟩ := runWalk_induct (P := fun u => ∃ g, u = s.progress g ∧ R g)
    (by
      rintro _ t w ⟨g, rfl, hR⟩ hw hstep
      cases g with
      | finished r notes => cases hw
      | running v =>
        cases hw
        obtain ⟨g', hstep', hR'⟩ := step w hR
        exact ⟨g', Host.Outcome.next.inj (hstep.symm.trans hstep'), hR'⟩)
    ⟨_, rfl, start⟩ hrun
  cases g with
  | running w => cases congrArg State.walk hg
  | finished r' notes' => exact ⟨r', notes', hrun.trans (congrArg _ hg), hR⟩

/-! ## The fixed-offset walk (rules R228 to R230, R240) -/

/-- The registers of a fixed-offset walk with `k` fields decoded. -/
def Walk.fixedAt (f : Frame) (e : Entry) (m1 m2 : Option Nat) (k : Nat) : Walk :=
  { frame := f, entry := e, mask1 := m1, mask2 := m2, fi := k, cur := 0,
    fields := (e.fields.take k).map fun d => (d.name, fixedValueOf d f.payload),
    notes := (e.fields.take k).filterMap fun d => fixedNoteOf d f.payload }

/-- The Record of a fixed-offset walk. -/
def fixedRecord (f : Frame) (e : Entry) : Record :=
  { desc := e.desc, key := e.key, event := e.event,
    fields := e.fields.map fun d => (d.name, fixedValueOf d f.payload), frame := f, residual := 0 }

/-- What a fixed-offset walk comes to: it stands before a field with those before it decoded, or has decoded all. -/
inductive FixedReached (f : Frame) (e : Entry) (m1 m2 : Option Nat) : Progress → Prop
  | running {k : Nat} (hk : k < e.fields.length) : FixedReached f e m1 m2 (.running (Walk.fixedAt f e m1 m2 k))
  | finished :
    FixedReached f e m1 m2 (.finished (fixedRecord f e) (e.fields.filterMap fun d => fixedNoteOf d f.payload))

section FixedWalk

variable {s : State} {f : Frame} {e : Entry} {m1 m2 : Option Nat} {k : Nat}

/-- A store of the next field and its notification leave the registers with one more field decoded. -/
theorem Walk.fixedAt_succ (hn : (e.fields.map Descriptor.name).Nodup) {d : Descriptor} (hd : e.fields[k]? = some d) :
    Walk.fixedAt f e m1 m2 (k + 1) =
      { Walk.fixedAt f e m1 m2 k with
        fi := k + 1
        fields := putField d.name (fixedValueOf d f.payload) (Walk.fixedAt f e m1 m2 k).fields
        notes := (Walk.fixedAt f e m1 m2 k).notes ++ (fixedNoteOf d f.payload).toList } := by
  have hnew := name_notMem_take hn (fun d => fixedValueOf d f.payload) hd
  obtain ⟨hk, rfl⟩ := List.getElem?_eq_some_iff.mp hd
  have hnote : List.filterMap (fun d => fixedNoteOf d f.payload) [e.fields[k]] =
      (fixedNoteOf e.fields[k] f.payload).toList := by
    cases h : fixedNoteOf e.fields[k] f.payload <;> simp [h]
  simp only [Walk.fixedAt, putField_new hnew, List.take_succ_eq_append_getElem hk, List.map_append,
    List.filterMap_append, List.map_cons, List.map_nil, hnote]

theorem FixedReached.settle (hm : requiresMask s.params e = false) (hk : k ≤ e.fields.length) :
    FixedReached f e m1 m2 ((Walk.fixedAt f e m1 m2 k).settle s.params) := by
  rcases hk.lt_or_eq with hlt | rfl
  · rw [Walk.settle_running hlt]
    exact .running hlt
  · rw [Walk.settle_finish le_rfl (.inl hm)]
    have hfin : (Walk.fixedAt f e m1 m2 e.fields.length).finish s.params =
        .finished (fixedRecord f e) (e.fields.filterMap fun d => fixedNoteOf d f.payload) := by
      simp [Walk.finish, Walk.record, Walk.fixedAt, fixedRecord, hm]
    rw [hfin]
    exact .finished

theorem FixedReached.fieldStep (he : e.wf s.params = true) (hm : requiresMask s.params e = false) {w : Walk}
    (h : FixedReached f e m1 m2 (.running w)) :
    ∃ g, fieldStep w (s.progress (.running w)) = .next (s.progress g) ∧ FixedReached f e m1 m2 g := by
  obtain @⟨k, hk⟩ := h
  have hd : e.fields[k]? = some e.fields[k] := List.getElem?_eq_getElem hk
  have hfix : inFixed (s.progress (.running (Walk.fixedAt f e m1 m2 k))) (Walk.fixedAt f e m1 m2 k) :=
    ⟨rfl, requiresMask_false.mp hm⟩
  obtain ⟨i, hi, hx⟩ := exec_fixedDescriptor_eq hfix he (List.mem_of_getElem? hd)
  refine ⟨_, ?_, FixedReached.settle hm hk⟩
  rw [fieldStep_eq_stepWalk, stepWalk_descriptor hd hi, hx, ← progress_storeFixed hfix.2,
    Walk.fixedAt_succ (Entry.wf_iff.mp he).1 hd]
  rfl

theorem State.walkEntry_fixed (hsound : (Walk.start f e m1 m2).Sound s.params) (hm : requiresMask s.params e = false) :
    s.walkEntry f e m1 m2 =
      .next (s.progress (.finished (fixedRecord f e) (e.fields.filterMap fun d => fixedNoteOf d f.payload))) := by
  obtain ⟨r, notes, hrun, ⟨⟩⟩ := State.walkEntry_induct hsound
    (FixedReached.settle (k := 0) hm (Nat.zero_le _)) fun w => FixedReached.fieldStep hsound.entry_wf hm
  exact hrun

end FixedWalk

/-! ## The samples dealt out (rules R232, R234, R236) -/

/-- The values, among the first `q` samples of a payload, of a field and its place among `k` active ones. -/
def dealtTo (k : Nat) (pay : ByteSeq) (q : Nat) (dj : Descriptor × Nat) : List Int :=
  ((List.range q).filter fun i => decide (i % k = dj.2)).map (sampleAt dj.1 pay)

/-- The sample list of such a field, with its metadata (rule R202). -/
def dealtValue (k : Nat) (pay : ByteSeq) (q : Nat) (dj : Descriptor × Nat) : Value :=
  samplesOf dj.1 (dealtTo k pay q dj)

/-- The running record once `q` samples of a payload are dealt out to the active fields in turn. -/
def dealt (actives : List Descriptor) (pay : ByteSeq) (q : Nat) : FieldMap :=
  (actives.zipIdx.take q).map fun dj => (dj.1.name, dealtValue actives.length pay q dj)

theorem dealtTo_succ (k : Nat) (pay : ByteSeq) (q : Nat) (dj : Descriptor × Nat) :
    dealtTo k pay (q + 1) dj = dealtTo k pay q dj ++ if q % k = dj.2 then [sampleAt dj.1 pay q] else [] := by
  rw [dealtTo, List.range_succ, List.filter_append, List.map_append]
  by_cases h : q % k = dj.2 <;> simp [dealtTo, h]

/-- Before its turn has come a field has no sample. -/
theorem dealtTo_early {k : Nat} {pay : ByteSeq} {q : Nat} {dj : Descriptor × Nat} (h : q ≤ dj.2) :
    dealtTo k pay q dj = [] := by
  rw [dealtTo, List.filter_eq_nil_iff.mpr, List.map_nil]
  intro i hi
  have hlt := List.mem_range.mp hi
  have hle := Nat.mod_le i k
  simp only [decide_eq_true_eq]
  omega

/-- The elements of an indexed list with an index below `i + q` are its first `q`. -/
theorem filter_zipIdx_lt {α : Type} (l : List α) (q i : Nat) :
    ((l.zipIdx i).filter fun x => decide (x.2 < i + q)) = (l.zipIdx i).take q := by
  induction l generalizing q i with
  | nil => simp
  | cons a l ih =>
    cases q with
    | zero =>
      rw [List.take_zero, List.filter_eq_nil_iff]
      intro x hx
      simpa using List.le_snd_of_mem_zipIdx hx
    | succ q =>
      have hrest := ih q (i + 1)
      rw [Nat.add_assoc, Nat.add_comm 1 q] at hrest
      simp [List.zipIdx_cons, hrest]

section Dealt

variable {actives : List Descriptor} {pay : ByteSeq} {q : Nat} {d : Descriptor}
  (hn : (actives.map Descriptor.name).Nodup) (hd : actives[q % actives.length]? = some d)

include hd

/-- Sample number `q` goes to the field whose turn it is and to no other. -/
theorem dealtValue_others {dj : Descriptor × Nat} (hdj : dj ∈ actives.zipIdx) (hne : dj ≠ (d, q % actives.length)) :
    dealtValue actives.length pay (q + 1) dj = dealtValue actives.length pay q dj := by
  have hturn : q % actives.length ≠ dj.2 := by
    intro he
    have hdj' := List.mem_zipIdx_iff_getElem?.mp hdj
    rw [← he, hd] at hdj'
    exact hne (Prod.ext (Option.some.inj hdj').symm he.symm)
  rw [dealtValue, dealtTo_succ, if_neg hturn, List.append_nil, dealtValue]

include hn

/-- What FLD.BITMASK does at the field whose turn it is deals out sample number `q`: in the first cycle it makes a list
at the end of the record, later it grows the list in its place (rules R200, R234). -/
theorem dealt_succ :
    ∃ v, sampleValue ⟨d.sensor, d.rangeBottom, d.rangeTop, d.units, []⟩ (be ((pay.drop (2 * q)).take 2))
        ((dealt actives pay q).lookup d.name) = some v ∧
      putField d.name v (dealt actives pay q) = dealt actives pay (q + 1) := by
  have hn' : (actives.zipIdx.map fun dj => dj.1.name).Nodup := by
    rwa [← List.zipIdx_map_fst 0 actives, List.map_map] at hn
  have hx : actives.zipIdx[q % actives.length]? = some (d, q % actives.length) := by simp [hd]
  have hvalue : dealtValue actives.length pay (q + 1) (d, q % actives.length) =
      samplesOf d (dealtTo actives.length pay q (d, q % actives.length) ++ [sampleAt d pay q]) := by
    rw [dealtValue, dealtTo_succ, if_pos rfl]
  refine ⟨dealtValue actives.length pay (q + 1) (d, q % actives.length), ?_⟩
  obtain hlt | hle := Nat.lt_or_ge q actives.length
  case inl =>
    have hmod := Nat.mod_eq_of_lt hlt
    obtain ⟨hq, hget⟩ := List.getElem?_eq_some_iff.mp (hmod ▸ hx)
    have hnew := name_notMem_take hn' (dealtValue actives.length pay q) (hmod ▸ hx)
    have hnone : (dealt actives pay q).lookup d.name = none :=
      List.lookup_eq_none_iff.mpr fun p hp => bne_iff_ne.mpr fun he => hnew (he ▸ List.mem_map_of_mem hp)
    have hold : (actives.zipIdx.take q).map (fun dj => (dj.1.name, dealtValue actives.length pay q dj)) =
        (actives.zipIdx.take q).map fun dj => (dj.1.name, dealtValue actives.length pay (q + 1) dj) :=
      List.map_congr_left fun dj hdj => by
        rw [dealtValue_others hd (List.mem_of_mem_take hdj)]
        rintro rfl
        exact hnew (List.mem_map_of_mem (List.mem_map_of_mem hdj))
    constructor
    · rw [hnone, hvalue, dealtTo_early (le_of_eq hmod.symm)]
      rfl
    · rw [putField_of_lookup_none hnone, dealt, dealt, List.take_succ_eq_append_getElem hq, hget, List.map_append,
        hold, hmod]
      rfl
  case inr =>
    have hall (q' : Nat) (h : actives.length ≤ q') : actives.zipIdx.take q' = actives.zipIdx :=
      List.take_of_length_le (by simpa using h)
    have hmem := List.mem_of_getElem? hx
    simp only [dealt, hall q hle, hall (q + 1) (Nat.le_succ_of_le hle)]
    constructor
    · rw [lookup_named hn' _ hmem, hvalue]
      rfl
    · exact putField_named hn' _ hmem fun dj => dealtValue_others hd

end Dealt

/-! ## Whose turn it is (rules R232, R236) -/

/-- The fields of an entry that are active under a pair of masks. -/
def activeFields (e : Entry) (a b : Nat) : List Descriptor := e.fields.filter (Descriptor.active a b)

/-- Before field `k`, `q` samples are dealt out: whole cycles, and one more to each active field before `k`. -/
def InTurn (e : Entry) (a b k q : Nat) : Prop :=
  ∃ cycles, q = cycles * (activeFields e a b).length + ((e.fields.take k).filter (Descriptor.active a b)).length

section Turns

variable {e : Entry} {a b k q : Nat} {d : Descriptor}

theorem InTurn.restart (h : InTurn e a b e.fields.length q) : InTurn e a b 0 q := by
  obtain ⟨cycles, rfl⟩ := h
  refine ⟨cycles + 1, ?_⟩
  rw [List.take_length, List.take_zero, Nat.succ_mul]
  rfl

variable (h : InTurn e a b k q) (hd : e.fields[k]? = some d)

include h hd

theorem InTurn.skip (ha : d.active a b = false) : InTurn e a b (k + 1) q := by
  obtain ⟨cycles, rfl⟩ := h
  refine ⟨cycles, ?_⟩
  rw [List.take_add_one, hd]
  simp [ha]

theorem InTurn.deal (ha : d.active a b = true) : InTurn e a b (k + 1) (q + 1) := by
  obtain ⟨cycles, rfl⟩ := h
  refine ⟨cycles, ?_⟩
  rw [List.take_add_one, hd]
  simp [ha, Nat.add_assoc]

theorem InTurn.getElem? (ha : d.active a b = true) :
    (activeFields e a b)[q % (activeFields e a b).length]? = some d := by
  obtain ⟨cycles, rfl⟩ := h
  obtain ⟨hk, rfl⟩ := List.getElem?_eq_some_iff.mp hd
  have hsplit : activeFields e a b = (e.fields.take k).filter (Descriptor.active a b) ++
      e.fields[k] :: (e.fields.drop (k + 1)).filter (Descriptor.active a b) := by
    conv_lhs => rw [activeFields, ← List.take_append_drop k e.fields, List.drop_eq_getElem_cons hk]
    rw [List.filter_append, List.filter_cons_of_pos ha]
  have hlt : ((e.fields.take k).filter (Descriptor.active a b)).length < (activeFields e a b).length := by
    rw [hsplit, List.length_append, List.length_cons]
    omega
  rw [Nat.mul_add_mod_self_right, Nat.mod_eq_of_lt hlt, hsplit, List.getElem?_append_right le_rfl, Nat.sub_self]
  rfl

end Turns

/-! ## The mask-driven walk (rules R232 to R236) -/

/-- The registers of a mask-driven walk before field `k` with `q` samples dealt out. -/
def Walk.ringAt (f : Frame) (e : Entry) (a b k q : Nat) : Walk :=
  { frame := f, entry := e, mask1 := some a, mask2 := some b, fi := k, cur := 2 * q,
    fields := dealt (activeFields e a b) f.payload q, notes := [] }

/-- The Record of a mask-driven walk: all whole samples are dealt out. -/
def ringRecord (f : Frame) (e : Entry) (a b : Nat) : Record :=
  { desc := e.desc, key := e.key, event := e.event,
    fields := dealt (activeFields e a b) f.payload (f.payload.length / 2),
    frame := f, residual := f.payload.length % 2 }

/-- What a mask-driven walk comes to: it stands before a field with the samples dealt out in turn, or has dealt out
all. -/
inductive RingReached (f : Frame) (e : Entry) (a b : Nat) : Progress → Prop
  | running {k q : Nat} (hk : k < e.fields.length) (hq : 2 * q ≤ f.payload.length) (hturn : InTurn e a b k q) :
    RingReached f e a b (.running (Walk.ringAt f e a b k q))
  | finished : RingReached f e a b (.finished (ringRecord f e a b) [])

/-- The descriptor at `FI` of a well-formed mask-driven entry decodes to FLD.BITMASK with a mask register that is
present (rules R107, R108, R114). -/
theorem stepWalk_bitmask {s : State} {w : Walk} {d : Descriptor} {a b : Nat} (hw : s.walk = some w)
    (he : w.entry.wf s.params = true) (hm : requiresMask s.params w.entry = true) (h1 : w.mask1 = some a)
    (h2 : w.mask2 = some b) (hd : w.entry.fields[w.fi]? = some d) :
    ∃ reg m, w.mask reg = some m ∧ maskBit m d.bit = d.active a b ∧ d.bit < s.params.maskWidth ∧
      ∀ g, ringField s.params d.name reg d.bit ⟨d.sensor, d.rangeBottom, d.rangeTop, d.units, []⟩ w = .ok g →
        stepWalk w s = .next (s.progress g) := by
  obtain ⟨-, -, hb, h6, -⟩ := Entry.wf_descriptor he (List.mem_of_getElem? hd)
  have hc : d.code = 4 := eq_of_beq (hb.trans hm)
  obtain ⟨⟨reg, hreg, hmask⟩, hbit⟩ := Descriptor.maskReg_ok h6 hc
  obtain ⟨m, hwm, hact⟩ := hmask w a b h1 h2
  have hi := decodeDescriptor_bitmask hc
  rw [hreg] at hi
  refine ⟨reg, m, hwm, hact, hbit, fun g hg => ?_⟩
  rw [stepWalk_descriptor hd hi]
  exact State.inWalk_ok hw hg

section RingWalk

variable {s : State} {f : Frame} {e : Entry} {a b k q : Nat} (he : e.wf s.params = true)
  (hm : requiresMask s.params e = true)

include hm

theorem RingReached.finish (hq : q = f.payload.length / 2) :
    RingReached f e a b ((Walk.ringAt f e a b k q).finish s.params) := by
  have hres : f.payload.length - 2 * (f.payload.length / 2) = f.payload.length % 2 := by omega
  have hfin : (Walk.ringAt f e a b k q).finish s.params = .finished (ringRecord f e a b) [] := by
    simp [Walk.finish, Walk.record, Walk.ringAt, Walk.payload, ringRecord, hm, hq, hres]
  rw [hfin]
  exact .finished

/-- At the end of the list the walk goes back to its start while payload remains, and the turns start again. -/
theorem RingReached.settle (hk : k ≤ e.fields.length) (hq : 2 * q ≤ f.payload.length) (hturn : InTurn e a b k q)
    (hpos : 0 < e.fields.length) :
    RingReached f e a b ((Walk.ringAt f e a b k q).settle s.params) := by
  obtain ⟨hlt, hw⟩ | ⟨hend, -, -, hw⟩ | ⟨-, hfin | hfin, hw⟩ := (Walk.ringAt f e a b k q).settle_cases s.params <;>
    rw [hw]
  · exact .running hlt hq hturn
  · obtain rfl : k = e.fields.length := le_antisymm hk hend
    exact .running hpos hq hturn.restart
  · exact absurd (hm.symm.trans hfin) (by decide)
  · have hfin : f.payload.length ≤ 2 * q := hfin
    exact RingReached.finish hm (by omega)

include he

/-- An inactive field keeps the turn, an active one takes the next sample, and the walk ends where none is left. -/
theorem RingReached.fieldStep {w : Walk} (h : RingReached f e a b (.running w)) :
    ∃ g, fieldStep w (s.progress (.running w)) = .next (s.progress g) ∧ RingReached f e a b g := by
  obtain @⟨k, q, hk, hq, hturn⟩ := h
  have hd : e.fields[k]? = some e.fields[k] := List.getElem?_eq_getElem hk
  have hpos : 0 < e.fields.length := Nat.zero_lt_of_lt hk
  obtain ⟨reg, m, hreg, hact, hbit, step⟩ := stepWalk_bitmask
    (s := s.progress (.running (Walk.ringAt f e a b k q))) rfl he hm rfl rfl hd
  rw [fieldStep_eq_stepWalk]
  cases ha : e.fields[k].active a b with
  | false =>
    exact ⟨_, step _ (ringField_inactive hbit hm hreg (hact.trans ha)),
      RingReached.settle (k := k + 1) hm hk hq (hturn.skip hd ha) hpos⟩
  | true =>
    by_cases hc : 2 * q + 2 ≤ f.payload.length
    · have hnodup : ((activeFields e a b).map Descriptor.name).Nodup :=
        (List.filter_sublist.map _).nodup (Entry.wf_iff.mp he).1
      obtain ⟨v, hv, hput⟩ := dealt_succ (pay := f.payload) hnodup (hturn.getElem? hd ha)
      have hnext : Walk.ringAt f e a b (k + 1) (q + 1) =
          { (Walk.ringAt f e a b k q).put e.fields[k].name v with fi := k + 1, cur := 2 * q + 2 } := by
        rw [Walk.ringAt, ← hput]
        rfl
      refine ⟨_, ?_, RingReached.settle hm hk hc (hturn.deal hd ha) hpos⟩
      rw [hnext]
      exact step _ (ringField_sample hbit hm hreg (hact.trans ha) hc hv)
    · have hc := Nat.not_le.mp hc
      exact ⟨_, step _ (ringField_short hbit hm hreg (hact.trans ha) hc), RingReached.finish hm (by omega)⟩

omit he hm

theorem State.walkEntry_ring (hsound : (Walk.start f e (some a) (some b)).Sound s.params)
    (hm : requiresMask s.params e = true) :
    s.walkEntry f e (some a) (some b) = .next (s.progress (.finished (ringRecord f e a b) [])) := by
  have hpos : 0 < e.fields.length := hsound.fields_pos hm
  have hturn : InTurn e a b 0 0 := ⟨0, by simp⟩
  obtain ⟨r, notes, hrun, ⟨⟩⟩ := State.walkEntry_induct hsound
    (RingReached.settle (k := 0) (q := 0) hm (Nat.zero_le _) (Nat.zero_le _) hturn hpos)
    fun w => RingReached.fieldStep hsound.entry_wf hm
  exact hrun

end RingWalk

/-! ## The record of a mask-driven walk (rules R232, R239) -/

theorem dealt_eq_filter (actives : List Descriptor) (pay : ByteSeq) (q : Nat) :
    dealt actives pay q =
      (actives.zipIdx.filter fun dj => decide (dj.2 < q)).map fun dj =>
        (dj.1.name, dealtValue actives.length pay q dj) := by
  have h := filter_zipIdx_lt actives q 0
  rw [Nat.zero_add] at h
  rw [dealt, h]

/-- Among the samples of whole cycles of `k`, those at place `j` are one of each cycle. -/
theorem filter_range_mod {k j : Nat} (hj : j < k) (cycles : Nat) :
    (List.range (k * cycles)).filter (fun q => decide (q % k = j)) = (List.range cycles).map fun i => i * k + j := by
  refine List.Pairwise.eq_of_mem_iff (r := (· < ·)) (List.pairwise_lt_range.filter _)
    (List.pairwise_lt_range.map _ fun _ _ h => ?_) fun q => ?_
  · exact Nat.add_lt_add_right (Nat.mul_lt_mul_of_pos_right h (Nat.zero_lt_of_lt hj)) j
  · simp only [List.mem_filter, List.mem_range, decide_eq_true_eq, List.mem_map]
    constructor
    · rintro ⟨hq, rfl⟩
      exact ⟨q / k, Nat.div_lt_of_lt_mul hq, Nat.div_add_mod' q k⟩
    · rintro ⟨i, hi, rfl⟩
      refine ⟨?_, by rw [Nat.mul_add_mod_self_right, Nat.mod_eq_of_lt hj]⟩
      have hle := Nat.mul_le_mul_right k hi
      rw [Nat.succ_mul, Nat.mul_comm cycles] at hle
      omega

theorem dealt_cycles (actives : List Descriptor) (pay : ByteSeq) {cycles : Nat} (hc : 1 ≤ cycles) :
    dealt actives pay (actives.length * cycles) =
      actives.zipIdx.map fun dj =>
        (dj.1.name,
          samplesOf dj.1 ((List.range cycles).map fun i => sampleAt dj.1 pay (i * actives.length + dj.2))) := by
  have hall : actives.zipIdx.length ≤ actives.length * cycles := by
    rw [List.length_zipIdx]
    exact Nat.le_mul_of_pos_right _ hc
  rw [dealt, List.take_of_length_le hall]
  refine List.map_congr_left fun dj hdj => ?_
  have hj : dj.2 < actives.length := List.snd_lt_of_mem_zipIdx hdj
  rw [dealtValue, dealtTo, filter_range_mod hj, List.map_map]
  rfl

/-! ## DECODE_RECORD past its tests -/

section RecordWalks

variable {f : Frame} {key : Option RespKey} {m1 m2 : Option Nat} {s : State} {e : Entry}

theorem Walk.Sound.of_recordable (h : recordable s f m1 m2) (hl : s.table.lookup f key = some e)
    (ha : requiresMask s.params e = true →
      ∃ a b, m1 = some a ∧ m2 = some b ∧ e.fields.any (Descriptor.active a b) = true) :
    (Walk.start f e m1 m2).Sound s.params := by
  obtain ⟨ht, hf, h1, h2⟩ := recordable_iff.mp h
  exact .start (Table.lookup_wf ht hl) hf h1 h2 ha

theorem execDecodeRecord_fixed (h : recordable s f m1 m2) (hp : f.payload ≠ []) (hl : s.table.lookup f key = some e)
    (hfix : ¬ streaming s e) :
    execDecodeRecord f key m1 m2 s =
      .next (decoded s (.record (fixedRecord f e)) (e.fields.filterMap fun d => fixedNoteOf d f.payload)) := by
  have hm : requiresMask s.params e = false := requiresMask_false.mpr hfix
  have ha (hm' : requiresMask s.params e = true) :
      ∃ a b, m1 = some a ∧ m2 = some b ∧ e.fields.any (Descriptor.active a b) = true := by simp [hm] at hm'
  exact (execDecodeRecord_walk h hp hl ha).trans
    (State.walkEntry_fixed (s := { s with tableUsed := true, walk := none }) (.of_recordable h hl ha) hm)

theorem execDecodeRecord_ring {a b : Nat} (h : recordable s f (some a) (some b)) (hp : f.payload ≠ [])
    (hl : s.table.lookup f key = some e) (hring : streaming s e) (hne : activeFields e a b ≠ []) :
    execDecodeRecord f key (some a) (some b) s = .next (decoded s (.record (ringRecord f e a b)) []) := by
  obtain ⟨d, hd⟩ := List.exists_mem_of_ne_nil _ hne
  have ha (_ : requiresMask s.params e = true) : ∃ a' b', some a = some a' ∧ some b = some b' ∧
      e.fields.any (Descriptor.active a' b') = true :=
    ⟨a, b, rfl, rfl, List.any_eq_true.mpr ⟨d, List.mem_filter.mp hd⟩⟩
  exact (execDecodeRecord_walk h hp hl ha).trans
    (State.walkEntry_ring (s := { s with tableUsed := true, walk := none }) (.of_recordable h hl ha)
      (requiresMask_iff.mpr hring))

end RecordWalks

end Sys2Proof.Machine

/-! ## The statements of the family -/

namespace Sys2Proof.Proofs

open Machine Claims

/-- Settles O26: each clause is one of the equations of DECODE_RECORD before its walk. -/
theorem rawPassThroughsInOrder : Obligations.RawPassThroughsInOrder := by
  intro f key m1 m2 s h
  refine ⟨execDecodeRecord_emptyPayload h, execDecodeRecord_noEntry h, fun e hp hl hs => ?_⟩
  have hm := requiresMask_iff.mpr hs
  refine ⟨execDecodeRecord_noContext h hp hl hm, ?_⟩
  rintro a b rfl rfl hinactive
  exact execDecodeRecord_noActive h hp hl hm (by simpa using hinactive)

/-- Settles O28: an entry that requires no mask is walked whatever the masks are, one field after another. -/
theorem fixedWalkDecodesEveryField : Obligations.FixedWalkDecodesEveryField :=
  fun _ _ _ _ _ _ => execDecodeRecord_fixed

/-- Settles O29: the mask-driven walk deals the samples out in turn, and ends with fewer than two bytes left. -/
theorem maskWalkDistributesSamples : Obligations.MaskWalkDistributesSamples := by
  intro f key a b s e h hp hl hring actives n hne
  refine (execDecodeRecord_ring h hp hl hring hne).trans ?_
  rw [ringRecord, dealt_eq_filter]
  rfl

/-- Settles O30: in whole cycles the last sample is the last active field's, and each has had one a cycle. -/
theorem wholeCyclesGiveEqualSampleLists : Obligations.WholeCyclesGiveEqualSampleLists := by
  intro f key a b cycles s e h hl hring actives k hk hc hlen
  have hpos : 0 < k * cycles := Nat.mul_pos hk hc
  have hp : f.payload ≠ [] := by
    rintro hp
    rw [hp, List.length_nil, Nat.mul_assoc] at hlen
    omega
  have hne : activeFields e a b ≠ [] := List.ne_nil_of_length_pos hk
  have hhalf : f.payload.length / 2 = (activeFields e a b).length * cycles := by
    rw [hlen, Nat.mul_assoc, Nat.mul_div_cancel_left _ (by decide)]
    rfl
  have heven : f.payload.length % 2 = 0 := by rw [hlen, Nat.mul_assoc, Nat.mul_mod_right]
  refine (execDecodeRecord_ring h hp hl hring hne).trans ?_
  rw [ringRecord, hhalf, heven, dealt_cycles _ _ hc]
  rfl

/-- Settles O32: each operand falls under one of the raw pass-throughs or under one of the two walks. -/
theorem decodeRecordCompletes : Obligations.DecodeRecordCompletes := by
  intro f key m1 m2 s h
  have raw {why : RawReason} (hx : execDecodeRecord f key m1 m2 s = .next (decoded s (.raw f why) [])) :
      ∃ r notes, exec (.decodeRecord f key m1 m2) s = .next (decoded s r notes) ∧
        ((∃ x, r = .record x ∧ x.frame = f) ∨ (∃ why, r = .raw f why ∧ notes = [])) :=
    ⟨_, _, hx, .inr ⟨why, rfl, rfl⟩⟩
  by_cases hp : f.payload = []
  · exact raw (execDecodeRecord_emptyPayload h hp)
  cases hl : s.table.lookup f key with
  | none => exact raw (execDecodeRecord_noEntry h hp hl)
  | some e =>
    by_cases hs : streaming s e
    case neg => exact ⟨_, _, execDecodeRecord_fixed h hp hl hs, .inl ⟨_, rfl, rfl⟩⟩
    have hm := requiresMask_iff.mpr hs
    match m1, m2 with
    | none, _ => exact raw (execDecodeRecord_noContext h hp hl hm (.inl rfl))
    | some _, none => exact raw (execDecodeRecord_noContext h hp hl hm (.inr rfl))
    | some a, some b =>
      by_cases ha : e.fields.any (Descriptor.active a b) = true
      case neg => exact raw (execDecodeRecord_noActive h hp hl hm ha)
      have hne : activeFields e a b ≠ [] := by simpa [activeFields, List.filter_eq_nil_iff] using ha
      exact ⟨_, _, execDecodeRecord_ring h hp hl hs hne, .inl ⟨_, rfl, rfl⟩⟩

/-- Settles O41: the types differ in the attributes they test, and none of them reads past the payload. -/
theorem outOfRangeFieldLeavesSentinel : Obligations.OutOfRangeFieldLeavesSentinel := by
  intro name lo hi s w h hl hh after
  have out {ok : Bool} (ha : ok = true) (value : ByteSeq → Value) :
      s.inWalk (fixedField s.params name lo hi ok value) = after := inWalk_fixedField_out h name ha hl hh value
  refine ⟨fun enc => out (decide_eq_true hl) _, out (decide_eq_true hl) _, fun hlt hw => ?_⟩
  have int := intAttrs_ok hlt hw
  exact ⟨out int _, out int _, out int _, fun pm vs hm hv => out (predefAttrs_ok hlt hw hm hv) _⟩

end Sys2Proof.Proofs

/-! SUPPORT. The proofs of the family '45_frame_build': which payloads BUILD_FRAME answers, and the parts of the command
frame it lays out. -/

namespace Sys2Proof.Machine

open Claims

/-! ## The answer of BUILD_FRAME (rules R250, R252) -/

theorem exec_buildFrame_eq_bytes_iff {did cid : Option Byte} {sq : Byte} {p out : ByteSeq} {s : State} :
    exec (.buildFrame did cid sq p) s = .next (replied s (.bytes out) []) ↔
      p.length ≤ 254 ∧ out = commandBytes (idOrZero did) (idOrZero cid) sq p := by
  by_cases hp : p.length ≤ 254
  · have hfits : payloadFits p = true := decide_eq_true hp
    rw [show exec (.buildFrame did cid sq p) s = _ from if_pos hfits]
    simp [State.respond, replied, hp, eq_comm]
  · have hfits : ¬ payloadFits p = true := fun h => hp (of_decide_eq_true h)
    rw [show exec (.buildFrame did cid sq p) s = _ from if_neg hfits]
    simp [hp]

/-! ## The parts of a command frame (rules R253, R254) -/

/-- The bytes a command frame's checksum covers: offset 2 to the end of the payload (rule R254). -/
def commandBody (deviceId commandId sequence : Byte) (payload : ByteSeq) : ByteSeq :=
  [deviceId, commandId, sequence, BitVec.ofNat 8 (payload.length + 1)] ++ payload

theorem commandBytes_eq (d k sq : Byte) (p : ByteSeq) :
    commandBytes d k sq p = [sop1, sop2Rsp] ++ commandBody d k sq p ++ [checksum (commandBody d k sq p)] := rfl

theorem commandBytes_length (d k sq : Byte) (p : ByteSeq) : (commandBytes d k sq p).length = 7 + p.length := by
  simp only [commandBytes_eq, commandBody, List.length_append, List.length_cons, List.length_nil]
  omega

theorem commandBytes_take_two (d k sq : Byte) (p : ByteSeq) : (commandBytes d k sq p).take 2 = [sop1, sop2Rsp] := rfl

theorem commandBytes_lengthByte (d k sq : Byte) (p : ByteSeq) :
    (commandBytes d k sq p)[5]? = some (BitVec.ofNat 8 (p.length + 1)) := rfl

theorem commandBytes_last (d k sq : Byte) (p : ByteSeq) :
    (commandBytes d k sq p)[(commandBytes d k sq p).length - 1]? = some (checksum (commandBody d k sq p)) := by
  rw [← List.getLast?_eq_getElem?, commandBytes_eq, List.getLast?_concat]

theorem commandBytes_slice_body (d k sq : Byte) (p : ByteSeq) :
    slice (commandBytes d k sq p) 2 ((commandBytes d k sq p).length - 1) = commandBody d k sq p := by
  have hspan : (commandBytes d k sq p).length - 1 - 2 = (commandBody d k sq p).length := by
    simp only [commandBytes_eq, List.length_append, List.length_cons, List.length_nil]
    omega
  rw [slice, hspan]
  exact List.take_left

/-- VERIFY accepts a sequence with its own checksum (rules R130, R131). -/
theorem exec_verify_checksum (b : ByteSeq) (s : State) :
    exec (.verify b (checksum b)) s = .next (replied s (.bool true) []) := by
  rw [exec_verify, verify, beq_self_eq_true]

end Sys2Proof.Machine

/-! ## The statements of the family -/

namespace Sys2Proof.Proofs

open Machine Claims

/-- Settles O47: an answered payload has at most 254 bytes, so its length byte does not wrap; the last byte is the
checksum of the bytes VERIFY is given. -/
theorem builtFrameVerifies : Obligations.BuiltFrameVerifies := by
  intro did cid sq p out s t h
  obtain ⟨hp, rfl⟩ := exec_buildFrame_eq_bytes_iff.mp h
  refine ⟨commandBytes_length .., commandBytes_take_two .., ?counts, _, commandBytes_last .., ?verifies⟩
  case counts =>
    rw [commandBytes_lengthByte, commandBytes_length, Option.map_some, BitVec.toNat_ofNat]
    congr 1
    omega
  case verifies =>
    rw [commandBytes_slice_body]
    exact exec_verify_checksum ..

end Sys2Proof.Proofs

/-! SUPPORT. The proof of the family '70_reset_and_hazards.md': the step on a table load. -/

namespace Sys2Proof.Machine

theorem step_loadTable {s : State} {t : Table} {rest : List HostRequest} (hw : s.walk = none)
    (hp : s.port = .loadTable t :: rest) : step s = State.loadTable { s with port := rest } t :=
  step_request hw hp

end Sys2Proof.Machine

/-! ## The statements of the family -/

namespace Sys2Proof.Proofs

open Machine

/-- Settles O55: between transactions the step is the load itself, which has three outcomes, told apart by the use mark
and the check. -/
theorem tableLoadIsCheckedAndEarly : Obligations.TableLoadIsCheckedAndEarly := by
  intro s t rest hw hp
  rw [step_loadTable hw hp]
  obtain ⟨(hu : s.tableUsed = true), hload⟩ | ⟨(hu : s.tableUsed = false), (hwf : t.wf s.params = true), hload⟩ |
      ⟨(hu : s.tableUsed = false), (hwf : t.wf s.params = false), hload⟩ :=
    State.loadTable_cases { s with port := rest } t <;> rw [hload]
  · simp [hu]
  · simp [hu, hwf]
  · simp [hu, hwf]

end Sys2Proof.Proofs

/-! SUPPORT. The proofs of the family 'other': the refusals, the hexadecimal numeral, the lookups, and the statements
that are read off one equation of the model. -/

namespace Sys2Proof.Machine

open Claims

/-! ## FRAME_DECODE off its domain (rule R150) -/

theorem exec_frameDecode_refused {b : ByteSeq} (h : frameDecodable b = false) (s : State) :
    exec (.frameDecode b) s = .refused .frameNotDecodable := by
  simp only [exec, execFrameDecode, frameDecode_none h]

/-! ## INGEST: length fields of 0, and capacities (rules R66, R171) -/

/-- A complete buffer with length field 0 is discarded, whether the chunk holds it by itself or completes it. -/
theorem ingestSteps_zeroLength {old chunk : ByteSeq}
    (h : (holdsFrame chunk ∧ sizeIs chunk 5) ∨
      (¬ holdsFrame chunk ∧ holdsFrame (old ++ chunk) ∧ sizeIs (old ++ chunk) 5)) :
    ingestSteps old chunk = some (.none .zeroLength, []) := by
  obtain ⟨hc, h5⟩ | ⟨hc, hb, h5⟩ := h
  · rw [ingestSteps_fresh (complete_iff_holdsFrame.mpr hc), decodeAndCarry_zero (sizeIs_iff.mp h5).2]
  · rw [ingestSteps_accumulated (complete_eq_false_iff.mpr hc) (complete_iff_holdsFrame.mpr hb),
      decodeAndCarry_zero (sizeIs_iff.mp h5).2]

theorem exec_ingest_tooLong {s : State} {chunk : ByteSeq} {k : Nat} (hk : s.params.chunkMax = some k)
    (h : k < chunk.length) : exec (.ingest chunk) s = .refused .chunkTooLong :=
  execIngest_refused (State.ingest_tooLong (withinBound_false hk h))

/-- INGEST, given what its five steps answer and no room for the new `PARTIAL`. -/
theorem exec_ingest_overflow {s : State} {chunk b : ByteSeq} {o : IngestOutcome} {k : Nat}
    (hm : meets s.params.chunkMax chunk.length) (hi : ingestSteps s.partialBuf chunk = some (o, b))
    (hk : s.params.partialCap = some k) (h : k < b.length) : exec (.ingest chunk) s = .refused .partialOverflow :=
  execIngest_refused (State.ingest_overflow (withinBound_iff.mpr hm) hi (withinBound_false hk h))

/-! ## Lookups in a finite map -/

theorem lookup_of_mem {α β : Type} [BEq α] [LawfulBEq α] {m : List (α × β)} {k : α} {v : β}
    (hd : (m.map Prod.fst).Nodup) (h : (k, v) ∈ m) : m.lookup k = some v := by
  obtain ⟨l, r, rfl⟩ := List.append_of_mem h
  refine List.lookup_eq_some_iff.mpr ⟨l, r, rfl, fun p hp => bne_iff_ne.mpr ?_⟩
  rintro rfl
  rw [List.map_append, List.map_cons] at hd
  have hbefore : p.1 ∈ l.map Prod.fst := List.mem_map_of_mem hp
  exact (List.nodup_middle.mp hd).notMem (List.mem_append_left _ hbefore)

theorem lookup_of_notMem {α β : Type} [BEq α] [LawfulBEq α] {m : List (α × β)} {k : α} (h : ∀ v, (k, v) ∉ m) :
    m.lookup k = none := by
  refine List.lookup_eq_none_iff.mpr fun p hp => bne_iff_ne.mpr ?_
  rintro rfl
  exact h p.2 hp

/-! ## Masks over their width (rule R287 h) -/

theorem maskFits_of_tooWide {p : Params} {m1 m2 : Option Nat} {m : Nat} (h : m1 = some m ∨ m2 = some m)
    (hm : 2 ^ p.maskWidth ≤ m) : ¬ (maskFits p m1 = true ∧ maskFits p m2 = true) := by
  rintro ⟨h1, h2⟩
  obtain h | h := h
  · exact absurd (maskFits_iff.mp h1 m h) (Nat.not_lt.mpr hm)
  · exact absurd (maskFits_iff.mp h2 m h) (Nat.not_lt.mpr hm)

theorem exec_decode_maskTooWide {m1 m2 : Option Nat} {s : State}
    (h : ¬ (maskFits s.params m1 = true ∧ maskFits s.params m2 = true)) (chunk : ByteSeq) (key : Option RespKey) :
    exec (.decode chunk key m1 m2) s = .refused .maskTooWide := by
  rw [← Bool.and_eq_true, Bool.not_eq_true] at h
  exact if_pos h

/-! ## The hexadecimal numeral (rule R194) -/

theorem hexDigitValue_hexDigit : ∀ v < 16, hexDigitValue (hexDigit v) = some v := by decide

theorem hexDigit_ne_zero : ∀ v < 16, v ≠ 0 → hexDigit v ≠ '0' := by decide

theorem denotes_hexDigit {v : Nat} (h : v < 16) : denotes [hexDigit v] v :=
  ⟨[v], by simp [hexDigitValue_hexDigit v h], by simp⟩

/-- A digit written after a numeral multiplies what it denotes by 16. -/
theorem denotes_concat {ds : List Char} {n v : Nat} (h : denotes ds n) (hv : v < 16) :
    denotes (ds ++ [hexDigit v]) (n * 16 + v) := by
  obtain ⟨vs, hvs, rfl⟩ := h
  exact ⟨vs ++ [v], by simp [hvs, hexDigitValue_hexDigit v hv], by simp⟩

/-- The digits written before `acc` are a numeral of `n`, when there is fuel for them. -/
theorem hexDigitsBefore_denotes {fuel n : Nat} (h : n < fuel) (acc : List Char) :
    ∃ ds, hexDigitsBefore fuel n acc = ds ++ acc ∧ denotes ds n := by
  induction fuel generalizing n acc with
  | zero => exact absurd h (Nat.not_lt_zero n)
  | succ fuel ih =>
    rw [hexDigitsBefore]
    split
    case isTrue hlt => exact ⟨[hexDigit n], rfl, denotes_hexDigit hlt⟩
    case isFalse hge =>
      obtain ⟨ds, hds, hden⟩ := ih (n := n / 16) (by omega) (hexDigit (n % 16) :: acc)
      refine ⟨ds ++ [hexDigit (n % 16)], by rw [hds, List.append_assoc]; rfl, ?_⟩
      have := denotes_concat hden (Nat.mod_lt n (by decide))
      rwa [Nat.div_add_mod'] at this

/-- The digits of a number above 0 do not begin with a zero. -/
theorem hexDigitsBefore_head {fuel n : Nat} (h : n < fuel) (hn : n ≠ 0) (acc : List Char) :
    ∃ c r, hexDigitsBefore fuel n acc = c :: r ∧ c ≠ '0' := by
  induction fuel generalizing n acc with
  | zero => exact absurd h (Nat.not_lt_zero n)
  | succ fuel ih =>
    rw [hexDigitsBefore]
    split
    case isTrue hlt => exact ⟨_, acc, rfl, hexDigit_ne_zero n hlt hn⟩
    case isFalse hge => exact ih (by omega) (by omega) _

theorem hexDigits_denotes (n : Nat) : denotes (hexDigits n) n := by
  obtain ⟨ds, hds, hden⟩ := hexDigitsBefore_denotes n.lt_succ_self []
  rwa [hexDigits, hds, List.append_nil]

theorem hexDigits_minimal (n : Nat) : hexDigits n = ['0'] ∨ ∃ c r, hexDigits n = c :: r ∧ c ≠ '0' := by
  by_cases hn : n = 0
  · subst hn; exact .inl rfl
  · exact .inr (hexDigitsBefore_head n.lt_succ_self hn [])

/-! ## FLD.HEX and FLD.PREDEF inside the payload -/

section FixedValues

variable {s : State} {w : Walk} {lo hi : Nat} (h : inFixed s w) (name : String) (hl : lo < hi)
  (hh : hi ≤ w.payload.length) (hw : meets s.params.maxWidth (hi - lo))

include h hl hh hw

theorem exec_fldHex :
    exec (.fldHex name lo hi) s =
      .next (afterFixed s w name (.hexStr ('0' :: 'x' :: hexDigits (be (slice w.payload lo hi)))) []) :=
  inWalk_fixedField h name (intAttrs_ok hl hw) hl.le hh hexValue

theorem exec_fldPredef {pm : Option Nat} {vs : List (Nat × String)}
    (hm : ∀ m, pm = some m → m < 2 ^ (8 * (hi - lo))) (hv : (vs.map Prod.fst).Nodup) :
    exec (.fldPredef name lo hi pm vs) s =
      .next (afterFixed s w name (predefValue pm vs (slice w.payload lo hi)) []) :=
  inWalk_fixedField h name (predefAttrs_ok hl hw hm hv) hl.le hh (predefValue pm vs)

end FixedValues

theorem predefCode_eq {pm : Option Nat} {b : ByteSeq} {code : Nat}
    (h : (pm = none ∧ code = be b) ∨ (∃ m, pm = some m ∧ code = be b &&& m)) : predefCode pm b = code := by
  obtain ⟨rfl, rfl⟩ | ⟨m, rfl, rfl⟩ := h <;> rfl

theorem predefValue_mapped {pm : Option Nat} {vs : List (Nat × String)} {b : ByteSeq} {label : String}
    (h : vs.lookup (predefCode pm b) = some label) : predefValue pm vs b = .enum (.mapped label) := by
  rw [predefValue, h]

theorem predefValue_unknown {pm : Option Nat} {vs : List (Nat × String)} {b : ByteSeq}
    (h : vs.lookup (predefCode pm b) = none) : predefValue pm vs b = .enum (.unknown (predefCode pm b)) := by
  rw [predefValue, h]

/-! ## Field steps that are refused (rules R108, R114, R190) -/

theorem fixedField_outOfPlace {p : Params} {name : String} {lo hi : Nat} {ok : Bool} {value : ByteSeq → Value}
    {w : Walk} (ha : ok = true) (hm : requiresMask p w.entry = true) :
    fixedField p name lo hi ok value w = .error .descriptorOutOfPlace := by simp [fixedField, ha, hm]

theorem unknownField_outOfPlace {p : Params} {name : String} {code : BitVec 8} {ok : Bool} {w : Walk} (ha : ok = true)
    (hm : requiresMask p w.entry = true) : unknownField p name code ok w = .error .descriptorOutOfPlace := by
  simp [unknownField, ha, hm]

theorem ringField_outOfPlace {p : Params} {name : String} {reg : MaskReg} {bit : Nat} {fresh : Samples} {w : Walk}
    (hb : bit < p.maskWidth) (hm : requiresMask p w.entry = false) :
    ringField p name reg bit fresh w = .error .descriptorOutOfPlace := by simp [ringField, hb, hm]

/-- A descriptor runs as a field step: FLD.BITMASK as one of mask-driven mode, and any other type as one that a walk of
that mode refuses, once its attributes are found legal (rule R114). -/
theorem exec_descriptor_cases {d : Descriptor} {i : Instr} (h : decodeDescriptor d = .ok i) (s : State) :
    (d.code = 4 ∧ ∃ reg fresh, exec i s = s.inWalk (ringField s.params d.name reg d.bit fresh)) ∨
      (d.code ≠ 4 ∧ ∃ f, exec i s = s.inWalk f ∧
        (i.wf = true → meets s.params.maxWidth (d.hi - d.lo) →
          ∀ w : Walk, requiresMask s.params w.entry = true → f w = .error .descriptorOutOfPlace)) := by
  have other {k : BitVec 8} (hk : k ≠ 4) (hc : d.code = k) : d.code ≠ 4 := hc ▸ hk
  have int {j : Instr} (hj : j.wf = true) (hw : meets s.params.maxWidth (d.hi - d.lo)) :
      (j.wf && widthOk s.params d.lo d.hi) = true := Bool.and_eq_true_iff.mpr ⟨hj, withinBound_iff.mpr hw⟩
  obtain ⟨hc, -, rfl⟩ | ⟨hc, -, rfl⟩ | ⟨hc, rfl⟩ | ⟨hc, rfl⟩ | ⟨hc, rfl⟩ | ⟨r, hc, -, rfl⟩ | ⟨hc, rfl⟩ | ⟨h6, -, hu⟩ :=
    decodeDescriptor_cases h
  · exact .inr ⟨other (by decide) hc, _, rfl, fun hi hw _ => fixedField_outOfPlace (int hi hw)⟩
  · exact .inr ⟨other (by decide) hc, _, rfl, fun hi hw _ => fixedField_outOfPlace (int hi hw)⟩
  · exact .inr ⟨other (by decide) hc, _, rfl, fun hi _ _ => fixedField_outOfPlace hi⟩
  · exact .inr ⟨other (by decide) hc, _, rfl, fun hi _ _ => fixedField_outOfPlace hi⟩
  · exact .inr ⟨other (by decide) hc, _, rfl, fun hi hw _ => fixedField_outOfPlace (int hi hw)⟩
  · exact .inl ⟨hc, r, _, rfl⟩
  · exact .inr ⟨other (by decide) hc, _, rfl, fun hi hw _ => fixedField_outOfPlace (int hi hw)⟩
  · exact .inr ⟨fun h4 => absurd (h4 ▸ h6) (by decide), _, hu.exec_eq s, fun hi _ _ => unknownField_outOfPlace hi⟩

section IllFormed

variable {s : State} {w : Walk} (h : s.walk = some w) (name : String)

include h

theorem inWalk_fixedField_illFormed {lo hi : Nat} {ok : Bool} (ha : ok = false) (value : ByteSeq → Value) :
    s.inWalk (fixedField s.params name lo hi ok value) = .refused .descriptorIllFormed :=
  State.inWalk_error h (if_pos ha)

theorem exec_unknownRow_illFormed {d : Descriptor} {i : Instr} (hu : isUnknownOf d i) (hw : i.wf = false) :
    exec i s = .refused .descriptorIllFormed := by
  rw [hu.exec_eq]
  exact State.inWalk_error h (if_pos hw)

theorem exec_fldBitmask_illFormed {bit : Nat} (hb : s.params.maskWidth ≤ bit) (reg : MaskReg) (rb rt : Int)
    (u se : String) : exec (.fldBitmask name reg bit rb rt u se) s = .refused .descriptorIllFormed :=
  State.inWalk_error h (if_pos (Nat.not_lt.mpr hb))

end IllFormed

/-- W3 as the meanings of the integer types find it broken (rule R108). -/
theorem intAttrs_illFormed {p : Params} {lo hi : Nat} (h : hi ≤ lo ∨ ¬ meets p.maxWidth (hi - lo)) :
    (decide (lo < hi) && widthOk p lo hi) = false := by
  rw [Bool.and_eq_false_iff, decide_eq_false_iff_not, ← Bool.not_eq_true]
  exact h.imp Nat.not_lt.mpr (mt withinBound_iff.mp)

/-- FLD.PREDEF tests W3, W8 and that its value table is a map (rule R108). -/
theorem predefAttrs_iff {p : Params} {name : String} {lo hi : Nat} {pm : Option Nat} {vs : List (Nat × String)} :
    ((Instr.fldPredef name lo hi pm vs).wf && widthOk p lo hi) = true ↔
      (decide (lo < hi) && widthOk p lo hi) = true ∧ (∀ m, pm = some m → m < 2 ^ (8 * (hi - lo))) ∧
        (vs.map Prod.fst).Nodup := by
  simp only [Instr.wf, Bool.and_eq_true, pmaskFits_iff, distinctKeys_iff]
  tauto

end Sys2Proof.Machine

/-! ## The statements of the family -/

namespace Sys2Proof.Proofs

open Machine Claims

/-- Settles O7: the domain of FRAME_DECODE is a frame at the front with a length field that is not 0. -/
theorem frameDecodeRefusedOutsideDomain : Obligations.FrameDecodeRefusedOutsideDomain := by
  intro b s h
  refine exec_frameDecode_refused ?_ s
  rw [← Bool.not_eq_true, frameDecodable_iff_holdsFrame]
  rintro ⟨hframe, h5⟩
  exact h.elim (absurd hframe) h5

/-- Settles O17: the five steps discard the buffer, and an empty `PARTIAL` is within every capacity. -/
theorem zeroLengthIsDiscarded : Obligations.ZeroLengthIsDiscarded :=
  fun _ _ hm h => exec_ingest_of_steps (ingestSteps_zeroLength h) (room_nil hm)

/-- Settles O19: the chunk is tested first, and then the new `PARTIAL`, which is the surplus of a Frame or the
fragment. -/
theorem capacityOverflowIsRefused : Obligations.CapacityOverflowIsRefused := by
  intro chunk s k
  refine ⟨exec_ingest_tooLong, fun hm hk => ⟨fun f t hs hv hlt h => ?surplus, fun hc hsop hb hlt => ?fragment⟩⟩
  case surplus =>
    have hi := ingestSteps_frame hs h
    rw [carry_of_verifies hs hv] at hi
    exact exec_ingest_overflow hm hi hk hlt
  case fragment =>
    have hi := ingestSteps_pending (complete_eq_false_iff.mpr hc) (complete_eq_false_iff.mpr hb)
      (.inr (sopsOk_iff_startsFrame.mpr hsop))
    exact exec_ingest_overflow hm hi hk hlt

/-- Settles O27: the lookup of a frame is the lookup in one of the table's two maps, or none. -/
theorem lookupByEventIdOrHostKey : Obligations.LookupByEventIdOrHostKey :=
  fun _ =>
    ⟨fun _ _ _ _ _ _ hd h => lookup_of_mem (distinctKeys_iff.mp hd) h, fun _ _ _ _ _ h => lookup_of_notMem h,
      fun _ _ _ _ _ _ _ hd h => lookup_of_mem (distinctKeys_iff.mp hd) h, fun _ _ _ _ _ _ h => lookup_of_notMem h,
      fun _ _ _ _ _ => rfl⟩

/-- Settles O33: DECODE_RECORD tests the table, the operand and the masks in this order; DECODE tests the masks
first. -/
theorem decodeRecordRefusals : Obligations.DecodeRecordRefusals := by
  intro f key m1 m2 s
  refine ⟨execDecodeRecord_tableIllFormed, fun ht hf => ?_, fun m h hm => ?_⟩
  · exact execDecodeRecord_notAFrame ht (Bool.eq_false_iff.mpr fun hv => hf (Frame.valid_iff.mp hv))
  · have hwide := maskFits_of_tooWide h hm
    exact ⟨fun ht hf => execDecodeRecord_maskTooWide ht hf hwide, fun chunk => exec_decode_maskTooWide hwide chunk key⟩

/-- Settles O35: the digits denote the value, and the first is a zero only in the numeral of 0. -/
theorem hexFieldIsMinimalUpperCase : Obligations.HexFieldIsMinimalUpperCase :=
  ⟨fun _ => decodeDescriptor_hex, fun name _ _ _ _ h hl hh hw =>
    ⟨_, exec_fldHex h name hl hh hw, hexDigits_denotes _, hexDigits_minimal _⟩⟩

/-- Settles O38: the code looked up is the masked one, and the value table is a map. -/
theorem predefFieldLooksUpMaskedCode : Obligations.PredefFieldLooksUpMaskedCode := by
  refine ⟨fun d => decodeDescriptor_predef, ?_⟩
  intro name lo hi pm vs s w h hl hh hw hm hv raw code hcode
  rw [exec_fldPredef h name hl hh hw hm hv]
  obtain rfl := predefCode_eq hcode
  refine ⟨fun label hmem => ?_, fun hmiss => ?_⟩
  · rw [predefValue_mapped (lookup_of_mem hv hmem)]
  · rw [predefValue_unknown (lookup_of_notMem hmiss)]

/-- Settles O43: a descriptor is a field step of the walk in progress, and each mode refuses the types of the other. -/
theorem descriptorsNeedTheirWalk : Obligations.DescriptorsNeedTheirWalk := by
  intro d i s hd
  obtain ⟨hc, reg, fresh, hx⟩ | ⟨hc, f, hx, hf⟩ := exec_descriptor_cases hd s <;> rw [hx]
  · refine ⟨State.inWalk_none, fun w h _ hb => ?_, fun _ _ hne => absurd hc hne⟩
    exact State.inWalk_error h.1 (ringField_outOfPlace hb (requiresMask_false.mpr h.2))
  · refine ⟨State.inWalk_none, fun _ _ h4 => absurd h4 hc, fun w h _ hi hw => ?_⟩
    exact State.inWalk_error h.1 (hf hi hw w (requiresMask_iff.mpr h.2))

/-- Settles O44: each type tests its attributes before it looks at the walk. -/
theorem illFormedDescriptorsAreRefused : Obligations.IllFormedDescriptorsAreRefused := by
  intro name s w h no
  have fixed {lo hi : Nat} {ok : Bool} {value : ByteSeq → Value} (ha : ok = false) :
      s.inWalk (fixedField s.params name lo hi ok value) = no := inWalk_fixedField_illFormed h name ha value
  have predef {lo hi : Nat} {pm : Option Nat} {vs : List (Nat × String)}
      (ha : ¬ ((Instr.fldPredef name lo hi pm vs).wf && widthOk s.params lo hi) = true) :
      exec (.fldPredef name lo hi pm vs) s = no := fixed (Bool.eq_false_iff.mpr ha)
  refine ⟨fun lo hi h3 => ?w3, fun lo hi pm vs h8 => predef ?w8, fun lo hi h2 => ?w2,
    fun r bit rb rt u se hb => exec_fldBitmask_illFormed h name hb r rb rt u se, fun c lo hi => ?rows⟩
  case w3 =>
    have hint := intAttrs_illFormed h3
    refine ⟨fixed hint, fixed hint, fixed hint, fun pm vs => predef fun ha => ?_⟩
    obtain ⟨hok, -⟩ := predefAttrs_iff.mp ha
    exact absurd (hok.symm.trans hint) (by decide)
  case w8 =>
    intro ha
    obtain ⟨-, hmask, hmap⟩ := predefAttrs_iff.mp ha
    obtain ⟨m, hm, hwide⟩ | hdup := h8
    · exact absurd (hmask m hm) (Nat.not_lt.mpr hwide)
    · exact hdup hmap
  case w2 =>
    have hrange : decide (lo ≤ hi) = false := decide_eq_false (Nat.not_le.mpr h2)
    exact ⟨fixed hrange, fun enc => fixed hrange⟩
  case rows =>
    have row (i : Instr) (hu : isUnknownOf { name := name, code := c, lo := lo, hi := hi } i) (hw : i.wf = false) :
        exec i s = no := exec_unknownRow_illFormed h hu hw
    refine ⟨fun hc => row _ (.inl rfl) ?_, fun hc => row _ (.inr (.inl rfl)) ?_,
      fun hc => row _ (.inr (.inr (.inl rfl))) ?_, fun hc => row _ (.inr (.inr (.inr (.inl rfl)))) ?_,
      fun hc => row _ (.inr (.inr (.inr (.inr (.inl rfl))))) ?_,
      fun hc => row _ (.inr (.inr (.inr (.inr (.inr rfl))))) ?_⟩
    · exact beq_false_of_ne fun hb => by have := (block_06 c).mp hb; omega
    · exact beq_false_of_ne fun hb => by have := (block_08 c).mp hb; omega
    · exact beq_false_of_ne fun hb => by have := (block_10 c).mp hb; omega
    · exact beq_false_of_ne fun hb => by have := (block_20 c).mp hb; omega
    · exact beq_false_of_ne fun hb => by have := (block_40 c).mp hb; omega
    · exact beq_false_of_ne fun hb => by have := (block_80 c).mp hb; omega

/-- Settles O22: the select code and the meaning of RESET, read off their definitions. -/
theorem resetEmptiesPartialOnly : Obligations.ResetEmptiesPartialOnly := ⟨fun _ => rfl, fun _ => rfl⟩

/-- Settles O46: both test the length of the payload before they lay anything out. -/
theorem buildFrameRefusesLongPayload : Obligations.BuildFrameRefusesLongPayload := by
  intro did cid d k sq p s hp
  have hlong : ¬ payloadFits p = true := fun hfits => absurd (of_decide_eq_true hfits) (Nat.not_le.mpr hp)
  exact ⟨if_neg hlong, if_neg hlong⟩

/-- Settles O60: the codes read off their definitions. -/
theorem statusCodes : Obligations.StatusCodes :=
  ⟨fun _ => rfl, fun _ => rfl, rfl, rfl, rfl, rfl, rfl, rfl, fun _ _ => rfl, fun _ _ => rfl, fun _ _ => rfl,
    fun _ => rfl, fun _ => rfl, fun _ => rfl, fun _ => rfl, fun _ => rfl⟩

end Sys2Proof.Proofs
